-- ==== Sys2Proof/Word.lean ====
section
/-! DEFINITION. The plain data every other file is written over: words and bytes (spec 00_scope.md R9),
the eight-word hash state (R14, 10_state.md R34), and half-open ranges of bus addresses
(20_memory.md R65). -/

namespace Sys2Proof

/-- A word: a 32-bit unsigned value (R9). -/
abbrev Word := BitVec 32

/-- A byte: an 8-bit unsigned value (R9). -/
abbrev Byte := BitVec 8

/-- The size of the bus space, 2^32 bytes (20_memory.md R60). Integer address arithmetic is exact
(R10), so a range may be compared with it. -/
def busTop : Nat := 2 ^ 32

/-- HashState, the source's ordered 8-tuple of words (A, B, C, D, E, F, G, H): the register file
STATE0..7 (R34) and the working registers of one compression (R39). -/
structure HashState where
  a : Word
  b : Word
  c : Word
  d : Word
  e : Word
  f : Word
  g : Word
  h : Word
deriving DecidableEq, Repr

/-- A half-open range [lo, hi) of bus byte addresses; [a, a) holds no byte (R65). -/
structure Span where
  lo : Nat
  hi : Nat
deriving DecidableEq, Repr

/-- Whether a byte address lies in the range. -/
def Span.has (r : Span) (a : Nat) : Bool := decide (r.lo ≤ a) && decide (a < r.hi)

/-- Whether two ranges are both non-empty and share at least one byte address (R67). -/
def Span.meets (r q : Span) : Bool :=
  decide (r.lo < r.hi) && decide (q.lo < q.hi) && decide (r.lo < q.hi) && decide (q.lo < r.hi)

end Sys2Proof
end

