-- ==== Sys2Proof/Syntax.lean ====
section
/-! DEFINITION. The six commands (spec 00_scope.md R2, 30_encoding.md R91), one constructor per row of
the opcode table. -/

namespace Sys2Proof

/-- A command a host writes to CMD. Only DISPATCH carries operands in the command word (R93): the
affinity hint AFF and the requested worker count WORKERS, an unsigned integer 0..255. -/
inductive Instr where
  /-- OP 0x0, no operation (44_command_control.md R246). -/
  | nop
  /-- OP 0x1, reload STATE0..7 from the IV (40_compression.md R136). -/
  | init
  /-- OP 0x2, absorb LEN/64 blocks into STATE0..7 (R137). -/
  | compress
  /-- OP 0x3, write the funnel of one message (41_funnel.md R170). -/
  | funnel
  /-- OP 0x4, write the digest of one message (42_digest.md R194). -/
  | digest
  /-- OP 0x5, write the digests of COUNT messages (43_dispatch.md R220). -/
  | dispatch (aff : Bool) (workers : Nat)
deriving DecidableEq, Repr

end Sys2Proof
end

