-- ==== Sys2Proof/WellFormed.lean ====
section
/-! DEFINITION. Which commands the encoding can hold (spec 30_encoding.md R90, R93): the WORKERS field has
8 bits. -/

namespace Sys2Proof

/-- The check: every operand of the command fits its field. WORKERS is "an unsigned integer 0..255"
(R93); the other commands have no operand. -/
def Instr.wellFormed (i : Instr) : Bool :=
  match i with
  | .nop => true
  | .init => true
  | .compress => true
  | .funnel => true
  | .digest => true
  | .dispatch _ workers => decide (workers ≤ 255)

/-- `Instr.WellFormed i`: the check holds of i. -/
abbrev Instr.WellFormed (i : Instr) : Prop := i.wellFormed = true

end Sys2Proof
end

