-- ==== Sys2Proof/Decode.lean ====
section
/-! DEFINITION. The decoder of spec 30_encoding.md R98, total on every 32-bit word and rejecting by name,
and the encoder written from the field table R90 and the opcode map R91. A command is exactly one
32-bit word (R100). -/

namespace Sys2Proof

/-- Why a word is Invalid (R98). Every reason becomes InvalidCommand at acceptance
(60_exceptions.md R274). -/
inductive Invalid where
  /-- OP is one of the reserved opcodes 0x6 to 0xF (R99). -/
  | reservedOpcode
  /-- OP is defined and a bit this opcode reserves is 1 (R92). -/
  | reservedBits
deriving DecidableEq, Repr

/-- OP, bits 3:0 (R90). -/
def fieldOp (w : Word) : BitVec 4 := w.extractLsb' 0 4

/-- AFF, bit 4 (R93). -/
def fieldAff (w : Word) : Bool := w.getLsbD 4

/-- WORKERS, bits 15:8, zero-extended (R93). -/
def fieldWorkers (w : Word) : Nat := (w.extractLsb' 8 8).toNat

/-- Bits 31:4, reserved for every opcode but DISPATCH (R92). -/
def fieldAboveOp (w : Word) : BitVec 28 := w.extractLsb' 4 28

/-- Bits 7:5, reserved for DISPATCH (R92). -/
def fieldLowReserved (w : Word) : BitVec 3 := w.extractLsb' 5 3

/-- Bits 31:16, reserved for DISPATCH (R92). -/
def fieldHighReserved (w : Word) : BitVec 16 := w.extractLsb' 16 16

/-- The command a fixed opcode stands for when its reserved bits are 0 (R98's last line). -/
def decodeFixed (w : Word) (i : Instr) : Except Invalid Instr :=
  if fieldAboveOp w = 0#28 then .ok i else .error .reservedBits

/-- The decoder (R98). -/
def decode (w : Word) : Except Invalid Instr :=
  if fieldOp w = 0x0#4 then decodeFixed w .nop
  else if fieldOp w = 0x1#4 then decodeFixed w .init
  else if fieldOp w = 0x2#4 then decodeFixed w .compress
  else if fieldOp w = 0x3#4 then decodeFixed w .funnel
  else if fieldOp w = 0x4#4 then decodeFixed w .digest
  else if fieldOp w = 0x5#4 then
    if fieldLowReserved w = 0#3 ∧ fieldHighReserved w = 0#16 then
      .ok (.dispatch (fieldAff w) (fieldWorkers w))
    else .error .reservedBits
  else .error .reservedOpcode

/-- The command word of an instruction (R90, R91, R101): the fields laid out from bit 31 down,
reserved bits 0. -/
def encode (i : Instr) : Word :=
  match i with
  | .nop => 0#28 ++ 0x0#4
  | .init => 0#28 ++ 0x1#4
  | .compress => 0#28 ++ 0x2#4
  | .funnel => 0#28 ++ 0x3#4
  | .digest => 0#28 ++ 0x4#4
  | .dispatch aff workers =>
      0#16 ++ BitVec.ofNat 8 workers ++ 0#3 ++ BitVec.ofBool aff ++ 0x5#4

/-- The command word numbered as spec/opcode_table.json numbers it: its bits below `nbits` are those
of `w`, every other bit is 0. -/
def tableWord (nbits w : Nat) : Word := BitVec.ofNat 32 (w % 2 ^ nbits)

/-- What the decoder reads from a word of the opcode table. -/
def decodeTableWord (nbits w : Nat) : Option Instr :=
  match decode (tableWord nbits w) with
  | .ok i => some i
  | .error _ => none

end Sys2Proof
end

