-- ==== Sys2Proof/Machine/Rom.lean ====
section
/-! DEFINITION. The read-only tables of spec 10_state.md: the initial-value ROM (R42) and the round-constant
ROM (R43). -/

namespace Sys2Proof.Machine

/-- The initial-value ROM IV[0..7] (R42). -/
def iv : HashState where
  a := 0x7380166F#32
  b := 0x4914B2B9#32
  c := 0x172442D7#32
  d := 0xDA8A0600#32
  e := 0xA96F30BC#32
  f := 0x163138AA#32
  g := 0xE38DEE4D#32
  h := 0xB0FB0E4E#32

/-- The round-constant ROM T[0..63], unrotated (R43). -/
def tRom (j : Nat) : Word := if j ≤ 15 then 0x79CC4519#32 else 0x7A879D8A#32

end Sys2Proof.Machine
end

