-- ==== Sys2Proof/Machine/Compression.lean ====
section
/-! DEFINITION. The compression function (spec 40_compression.md R120 to R135): pure functions on words and
byte strings. -/

namespace Sys2Proof.Machine

/-- rotl(x, n): the left rotation by n mod 32 places (R10, R120). -/
def rotl (x : Word) (n : Nat) : Word := (x <<< (n % 32)) ||| (x >>> (32 - n % 32))

/-- Permutation P0 (R121). -/
def p0 (x : Word) : Word := x ^^^ rotl x 9 ^^^ rotl x 17

/-- Permutation P1 (R122). -/
def p1 (x : Word) : Word := x ^^^ rotl x 15 ^^^ rotl x 23

/-- FF_j: the linear phase for j ≤ 15, majority from 16 on (R123). -/
def ffj (j : Nat) (x y z : Word) : Word :=
  if j ≤ 15 then x ^^^ y ^^^ z else (x &&& y) ||| (x &&& z) ||| (y &&& z)

/-- GG_j: the linear phase for j ≤ 15, choice from 16 on (R124). -/
def ggj (j : Nat) (x y z : Word) : Word :=
  if j ≤ 15 then x ^^^ y ^^^ z else (x &&& y) ||| (~~~x &&& z)

/-- BE32: four bytes read as a big-endian word (R11). -/
def be32 (b0 b1 b2 b3 : Byte) : Word := b0 ++ b1 ++ b2 ++ b3

/-- BEbytes: the four bytes of a word, the most significant first (R11). -/
def beBytes (w : Word) : List Byte :=
  [w.extractLsb' 24 8, w.extractLsb' 16 8, w.extractLsb' 8 8, w.extractLsb' 0 8]

/-- The 16 words of a 64-byte block: W[i] = BE32(B[4i], .., B[4i+3]) (R125). -/
def blockWords (b : List Byte) : List Word :=
  (List.range 16).map fun i =>
    be32 (b.getD (4 * i) 0) (b.getD (4 * i + 1) 0) (b.getD (4 * i + 2) 0) (b.getD (4 * i + 3) 0)

/-- W[j] from the entries with a smaller index (R126), where j is the number of entries so far. -/
def nextScheduleWord (w : List Word) : Word :=
  let j := w.length
  p1 (w.getD (j - 16) 0 ^^^ w.getD (j - 9) 0 ^^^ rotl (w.getD (j - 3) 0) 15) ^^^
    rotl (w.getD (j - 13) 0) 7 ^^^ w.getD (j - 6) 0

/-- The expansion (R126): n more entries, in increasing j. -/
def expandSchedule : Nat → List Word → List Word
  | 0, w => w
  | n + 1, w => expandSchedule n (w ++ [nextScheduleWord w])

/-- The schedule W[0..67] of a block (R125, R126). -/
def schedule (b : List Byte) : List Word := expandSchedule 52 (blockWords b)

/-- The derived schedule W'[0..63]: W'[j] = W[j] ⊕ W[j+4] (R127). -/
def derivedSchedule (w : List Word) : List Word :=
  (List.range 64).map fun j => w.getD j 0 ^^^ w.getD (j + 4) 0

/-- The round constant of round j: the ROM's word rotated once, in the round (R128, R43). -/
def roundConstant (j : Nat) : Word := rotl (tRom j) (j % 32)

/-- Round j: the values of R129 and the simultaneous update of R130. -/
def roundStep (w w' : List Word) (j : Nat) (r : HashState) : HashState :=
  let ss1 := rotl (rotl r.a 12 + r.e + roundConstant j) 7
  let ss2 := ss1 ^^^ rotl r.a 12
  let tt1 := ffj j r.a r.b r.c + r.d + ss2 + w'.getD j 0
  let tt2 := ggj j r.e r.f r.g + r.h + ss1 + w.getD j 0
  { a := tt1, b := r.a, c := rotl r.b 9, d := r.c,
    e := p0 tt2, f := r.e, g := rotl r.f 19, h := r.g }

/-- Word-wise XOR of two states: the feed-forward (R132). -/
def feedForward (v r : HashState) : HashState where
  a := r.a ^^^ v.a
  b := r.b ^^^ v.b
  c := r.c ^^^ v.c
  d := r.d ^^^ v.d
  e := r.e ^^^ v.e
  f := r.f ^^^ v.f
  g := r.g ^^^ v.g
  h := r.h ^^^ v.h

/-- The compression function CF(V, B) (R131). -/
def cf (v : HashState) (b : List Byte) : HashState :=
  let w := schedule b
  let w' := derivedSchedule w
  feedForward v ((List.range 64).foldl (fun r j => roundStep w w' j r) v)

/-- The first n slices of k bytes of a byte string, in order. -/
def slices (k : Nat) : Nat → List Byte → List (List Byte)
  | 0, _ => []
  | n + 1, x => x.take k :: slices k n (x.drop k)

/-- CFstar(V, s): the blocks of s absorbed in increasing order, no padding (R134). -/
def cfStar (v : HashState) (s : List Byte) : HashState :=
  (slices 64 (s.length / 64) s).foldl cf v

/-- SER(V): the eight words, each most significant byte first (R135). -/
def ser (v : HashState) : List Byte :=
  beBytes v.a ++ beBytes v.b ++ beBytes v.c ++ beBytes v.d ++
    beBytes v.e ++ beBytes v.f ++ beBytes v.g ++ beBytes v.h

end Sys2Proof.Machine
end

