-- ==== Sys2Proof/Machine/Funnel.lean ====
section
/-! DEFINITION. The entropy funnel mixer (spec 41_funnel.md R160 to R168): the XOR-fold, and the one keyed AES
round of the block mix. -/

namespace Sys2Proof.Machine

/-! ## Arithmetic in GF(2^8) modulo 0x11B -/

/-- 2•a (R167). -/
def gfDouble (a : Byte) : Byte := (a <<< 1) ^^^ (if a.getLsbD 7 then 0x1B#8 else 0#8)

/-- 3•a = 2•a ⊕ a (R167). -/
def gfTriple (a : Byte) : Byte := gfDouble a ^^^ a

/-- The product in GF(2^8): a times the n lowest coefficients of b (R165's field). -/
def gfMulAux : Nat → Byte → Byte → Byte
  | 0, _, _ => 0#8
  | n + 1, a, b => (if b.getLsbD 0 then a else 0#8) ^^^ gfMulAux n (gfDouble a) (b >>> 1)

/-- The product in GF(2^8) modulo 0x11B. -/
def gfMul (a b : Byte) : Byte := gfMulAux 8 a b

/-- Rotation of a byte to the left (R165). -/
def rotl8 (x : Byte) (n : Nat) : Byte := (x <<< (n % 8)) ||| (x >>> (8 - n % 8))

/-- The affine transform of R165 step 2, applied to an inverse. -/
def sboxAffine (x : Byte) : Byte :=
  x ^^^ rotl8 x 1 ^^^ rotl8 x 2 ^^^ rotl8 x 3 ^^^ rotl8 x 4 ^^^ 0x63#8

/-! ## The AES round -/

/-- One row of the S-box table (R165): the row is the high nibble of the byte. -/
def sboxRow (hi : Nat) : List Byte :=
  match hi with
  | 0 => [0x63#8, 0x7c#8, 0x77#8, 0x7b#8, 0xf2#8, 0x6b#8, 0x6f#8, 0xc5#8,
          0x30#8, 0x01#8, 0x67#8, 0x2b#8, 0xfe#8, 0xd7#8, 0xab#8, 0x76#8]
  | 1 => [0xca#8, 0x82#8, 0xc9#8, 0x7d#8, 0xfa#8, 0x59#8, 0x47#8, 0xf0#8,
          0xad#8, 0xd4#8, 0xa2#8, 0xaf#8, 0x9c#8, 0xa4#8, 0x72#8, 0xc0#8]
  | 2 => [0xb7#8, 0xfd#8, 0x93#8, 0x26#8, 0x36#8, 0x3f#8, 0xf7#8, 0xcc#8,
          0x34#8, 0xa5#8, 0xe5#8, 0xf1#8, 0x71#8, 0xd8#8, 0x31#8, 0x15#8]
  | 3 => [0x04#8, 0xc7#8, 0x23#8, 0xc3#8, 0x18#8, 0x96#8, 0x05#8, 0x9a#8,
          0x07#8, 0x12#8, 0x80#8, 0xe2#8, 0xeb#8, 0x27#8, 0xb2#8, 0x75#8]
  | 4 => [0x09#8, 0x83#8, 0x2c#8, 0x1a#8, 0x1b#8, 0x6e#8, 0x5a#8, 0xa0#8,
          0x52#8, 0x3b#8, 0xd6#8, 0xb3#8, 0x29#8, 0xe3#8, 0x2f#8, 0x84#8]
  | 5 => [0x53#8, 0xd1#8, 0x00#8, 0xed#8, 0x20#8, 0xfc#8, 0xb1#8, 0x5b#8,
          0x6a#8, 0xcb#8, 0xbe#8, 0x39#8, 0x4a#8, 0x4c#8, 0x58#8, 0xcf#8]
  | 6 => [0xd0#8, 0xef#8, 0xaa#8, 0xfb#8, 0x43#8, 0x4d#8, 0x33#8, 0x85#8,
          0x45#8, 0xf9#8, 0x02#8, 0x7f#8, 0x50#8, 0x3c#8, 0x9f#8, 0xa8#8]
  | 7 => [0x51#8, 0xa3#8, 0x40#8, 0x8f#8, 0x92#8, 0x9d#8, 0x38#8, 0xf5#8,
          0xbc#8, 0xb6#8, 0xda#8, 0x21#8, 0x10#8, 0xff#8, 0xf3#8, 0xd2#8]
  | 8 => [0xcd#8, 0x0c#8, 0x13#8, 0xec#8, 0x5f#8, 0x97#8, 0x44#8, 0x17#8,
          0xc4#8, 0xa7#8, 0x7e#8, 0x3d#8, 0x64#8, 0x5d#8, 0x19#8, 0x73#8]
  | 9 => [0x60#8, 0x81#8, 0x4f#8, 0xdc#8, 0x22#8, 0x2a#8, 0x90#8, 0x88#8,
          0x46#8, 0xee#8, 0xb8#8, 0x14#8, 0xde#8, 0x5e#8, 0x0b#8, 0xdb#8]
  | 10 => [0xe0#8, 0x32#8, 0x3a#8, 0x0a#8, 0x49#8, 0x06#8, 0x24#8, 0x5c#8,
           0xc2#8, 0xd3#8, 0xac#8, 0x62#8, 0x91#8, 0x95#8, 0xe4#8, 0x79#8]
  | 11 => [0xe7#8, 0xc8#8, 0x37#8, 0x6d#8, 0x8d#8, 0xd5#8, 0x4e#8, 0xa9#8,
           0x6c#8, 0x56#8, 0xf4#8, 0xea#8, 0x65#8, 0x7a#8, 0xae#8, 0x08#8]
  | 12 => [0xba#8, 0x78#8, 0x25#8, 0x2e#8, 0x1c#8, 0xa6#8, 0xb4#8, 0xc6#8,
           0xe8#8, 0xdd#8, 0x74#8, 0x1f#8, 0x4b#8, 0xbd#8, 0x8b#8, 0x8a#8]
  | 13 => [0x70#8, 0x3e#8, 0xb5#8, 0x66#8, 0x48#8, 0x03#8, 0xf6#8, 0x0e#8,
           0x61#8, 0x35#8, 0x57#8, 0xb9#8, 0x86#8, 0xc1#8, 0x1d#8, 0x9e#8]
  | 14 => [0xe1#8, 0xf8#8, 0x98#8, 0x11#8, 0x69#8, 0xd9#8, 0x8e#8, 0x94#8,
           0x9b#8, 0x1e#8, 0x87#8, 0xe9#8, 0xce#8, 0x55#8, 0x28#8, 0xdf#8]
  | _ => [0x8c#8, 0xa1#8, 0x89#8, 0x0d#8, 0xbf#8, 0xe6#8, 0x42#8, 0x68#8,
          0x41#8, 0x99#8, 0x2d#8, 0x0f#8, 0xb0#8, 0x54#8, 0xbb#8, 0x16#8]

/-- SBOX[b], from the table of R165. -/
def sbox (b : Byte) : Byte := (sboxRow (b.toNat / 16)).getD (b.toNat % 16) 0

/-- SubBytes: each byte replaced by SBOX of it (R165). -/
def subBytes (x : List Byte) : List Byte := x.map sbox

/-- The input byte that ShiftRows moves to output byte k (R166). -/
def shiftRowsSource : List Nat := [0, 5, 10, 15, 4, 9, 14, 3, 8, 13, 2, 7, 12, 1, 6, 11]

/-- ShiftRows: row r of the state rotated left by r positions, in the byte indexing of R164
(R166). -/
def shiftRows (x : List Byte) : List Byte := shiftRowsSource.map fun k => x.getD k 0

/-- One column of MixColumns (R167). -/
def mixColumn (a0 a1 a2 a3 : Byte) : List Byte :=
  [gfDouble a0 ^^^ gfTriple a1 ^^^ a2 ^^^ a3,
   a0 ^^^ gfDouble a1 ^^^ gfTriple a2 ^^^ a3,
   a0 ^^^ a1 ^^^ gfDouble a2 ^^^ gfTriple a3,
   gfTriple a0 ^^^ a1 ^^^ a2 ^^^ gfDouble a3]

/-- MixColumns: column c is bytes 4c to 4c+3 (R164, R167). -/
def mixColumns (x : List Byte) : List Byte :=
  [0, 4, 8, 12].flatMap fun k =>
    mixColumn (x.getD k 0) (x.getD (k + 1) 0) (x.getD (k + 2) 0) (x.getD (k + 3) 0)

/-- Byte-wise XOR of two byte strings of one length. -/
def xorBytes (x y : List Byte) : List Byte := List.zipWith (fun a b => a ^^^ b) x y

/-- MixRound(S) = MixColumns(ShiftRows(SubBytes(S ⊕ MIX_KEY))) (R163). -/
def mixRound (key : Vector Byte 16) (s : List Byte) : List Byte :=
  mixColumns (shiftRows (subBytes (xorBytes s key.toList)))

/-! ## The funnel -/

/-- BlockMix: each 16-byte sub-block mixed on its own (R168). -/
def blockMix (key : Vector Byte 16) (m : List Byte) : List Byte :=
  (slices 16 256 m).flatMap (mixRound key)

/-- XorFold(X, r): with L = 4096 div r, output byte i is the XOR of byte i of every one of the r
contiguous slices of L bytes (R162). -/
def xorFold (x : List Byte) (r : Nat) : List Byte :=
  (slices (4096 / r) r x).foldl xorBytes (List.replicate (4096 / r) 0#8)

/-- Funnel(M, r, mix): mix 0 is xor_fold, mix 1 the block mix before it (R160). -/
def funnel (key : Vector Byte 16) (m : List Byte) (r : Nat) (mix : BitVec 2) : List Byte :=
  if mix = 0#2 then xorFold m r else xorFold (blockMix key m) r

end Sys2Proof.Machine
end

