-- ==== Sys2Proof/Config.lean ====
section
/-! DEFINITION. What an instance of the engine fixes (spec 00_scope.md R8), and the values the spec
leaves free (93_implementation_defined.md, treatment "any value"). -/

namespace Sys2Proof

/-- The parameters of one instance (R8). "A model takes each one as an argument": they stand in
State, which no step changes there, so that a statement about every state is a statement about
every instance. The set SUPPORTED_RATIOS is {8,16,32,64} ∪ X with X ⊆ {1,2,4}: one flag for each
member X may have. `bus_ok` is the complement of the listed ranges, and `devices` are the bus
ranges that are not normal memory (20_memory.md R68; assumption log 6). -/
structure Instance where
  /-- HCE_BASE, the bus address of the 256-byte register window. -/
  hceBase : Word
  /-- NUM_LANES, 1 to 32. -/
  numLanes : Nat
  /-- LANE_AVAIL_MASK: bit k is 1 iff lane k can be started. -/
  laneAvail : Word
  /-- 1 ∈ SUPPORTED_RATIOS. -/
  ratio1 : Bool
  /-- 2 ∈ SUPPORTED_RATIOS. -/
  ratio2 : Bool
  /-- 4 ∈ SUPPORTED_RATIOS. -/
  ratio4 : Bool
  /-- MIX_KEY, the 16-byte round key of the block mix (R44). -/
  mixKey : Vector Byte 16
  /-- The byte addresses for which bus_ok is false (20_memory.md R62). -/
  busBad : List Span
  /-- Bus ranges that hold a device and not normal memory (R68). -/
  devices : List Span
deriving DecidableEq, Repr

/-- The legal values of the parameters (R8's third column). -/
abbrev Instance.legal (p : Instance) : Prop :=
  p.hceBase.toNat % 256 = 0 ∧ 1 ≤ p.numLanes ∧ p.numLanes ≤ 32 ∧
    ∀ k < 32, p.numLanes ≤ k → p.laneAvail.getLsbD k = false

/-- The default instance (R8's default column). HCE_BASE and bus_ok are OPEN in the spec: the base
0x40000000, a bus that completes every access, and no device are DESIGN CHOICES of this model
(assumption log 2). -/
def Instance.default : Instance where
  hceBase := 0x40000000#32
  numLanes := 4
  laneAvail := 0xF#32
  ratio1 := false
  ratio2 := false
  ratio4 := false
  mixKey := #v[0x00#8, 0x01#8, 0x02#8, 0x03#8, 0x04#8, 0x05#8, 0x06#8, 0x07#8,
               0x08#8, 0x09#8, 0x0a#8, 0x0b#8, 0x0c#8, 0x0d#8, 0x0e#8, 0x0f#8]
  busBad := []
  devices := []

/-- A byte the spec leaves unspecified (U2, U3: "any value" per byte), one for each value of the
state's counter of free values. It has no body: nothing can be proved about its value. -/
opaque Config.freeByte : Nat → Byte

/-- A choice between two outcomes the spec leaves free (U5), one for each value of the counter. -/
opaque Config.freeChoice : Nat → Bool

end Sys2Proof
end

