-- ==== Sys2Proof/Machine/State.lean ====
section
/-! DEFINITION. The state of the machine: every register, field and internal state element of spec
10_state.md, the instance's parameters, the bus memory the engine reaches, and the model's own
record of what the host will do next. Plain data throughout. -/

namespace Sys2Proof.Machine

/-- The bus memory (20_memory.md R60): the listed bytes, addresses strictly rising, no entry equal
to what an unlisted address reads as. -/
abbrev Memory := List Host.Cell

/-- The six error codes of R270. -/
inductive ErrorCode where
  | invalidInputLength
  | invalidConfiguration
  | workerCreationFailure
  | invalidCommand
  | busError
  | rangeError
deriving DecidableEq, Repr

/-- The stored bits of STATUS (R25): DONE, ERR, DROPPED and ERRCODE. BUSY is not stored here: it is
1 exactly while the engine is busy (R37). -/
structure Status where
  done : Bool
  err : Bool
  dropped : Bool
  errcode : BitVec 4
deriving DecidableEq, Repr

/-- The command context ctx (R38), captured at acceptance: the command word's opcode, WORKERS and
AFF (all three are `cmd`), the CONFIG fields, SRC, DST, LEN, COUNT, and STATE0..7. With it stands the
model's own record of the bus memory at acceptance, from which a host's early read of a destination
byte takes the value before the command (70_reset_and_hazards.md R306; assumption log 8). -/
structure Ctx where
  cmd : Instr
  ratio : BitVec 7
  mix : BitVec 2
  width : BitVec 2
  src : Word
  dst : Word
  len : Word
  count : Word
  state : HashState
  before : Memory
deriving DecidableEq, Repr

/-- One evaluation of the compression function in progress: the state it began from (for the
feed-forward, R132), the working registers A..H and the round index j (R39), and its own
schedules W[0..67] and W'[0..63] (R40). It exists only while the evaluation runs. -/
structure CoreEval where
  start : HashState
  regs : HashState
  round : Nat
  w : List Word
  w' : List Word
deriving DecidableEq, Repr

/-- One orchestrator evaluation in progress (42_digest.md R190), with the funnel buffer and the
digest buffer of R46 and the HashState of R41 in the phases in which they exist. -/
inductive Orch where
  /-- The message is still to be read and funnelled. -/
  | fetch
  /-- The funnel buffer's bytes not yet absorbed, and the state after those that are. -/
  | absorb (buffer : List Byte) (state : HashState)
  /-- A block of the buffer is in the compression core; the rest waits. -/
  | compress (rest : List Byte) (core : CoreEval)
  /-- The 32-byte digest, not yet written. -/
  | digest (bytes : List Byte)
deriving DecidableEq, Repr

/-- The state of one dispatcher lane (R41). -/
structure Lane where
  active : Bool
  lo : Nat
  hi : Nat
  next : Nat
  orch : Orch
deriving DecidableEq, Repr

/-- A lane that is not started. R41 and R48 give `active` its reset value; the other fields hold
nothing a rule reads while the lane is inactive (DESIGN CHOICE, assumption log 4). -/
def laneIdle : Lane where
  active := false
  lo := 0
  hi := 0
  next := 0
  orch := .fetch

/-- What the busy engine is doing (R243). -/
inductive Job where
  /-- COMPRESS: blocks absorbed so far, the state they gave, the evaluation in progress if any. -/
  | compress (block : Nat) (state : HashState) (core : Option CoreEval)
  /-- FUNNEL: the funnel buffer, once the message has been read. -/
  | funnel (buffer : Option (List Byte))
  /-- DIGEST: its one orchestrator evaluation. -/
  | digest (orch : Orch)
  /-- DISPATCH: the work stands in the lanes. -/
  | dispatch
deriving DecidableEq, Repr

/-- The sequencer state seq (R37). The context exists exactly while seq = BUSY (R38). -/
inductive Engine where
  | idle
  | busy (ctx : Ctx) (job : Job)
deriving DecidableEq, Repr

/-- The defined registers of the window (R20), with one name for every reserved offset (R22). -/
inductive Reg where
  | id
  | ctrl
  | status
  | cmd
  | config
  | src
  | dst
  | len
  | count
  | params
  | laneAvail
  | state (k : Fin 8)
  | reserved
deriving DecidableEq, Repr

/-- One thing the world outside the engine does: a host access to the register window (R20, R21),
a host access to bus memory (R101's `mem`, R305, R306), or the reset input (R300). Window accesses
carry a value and not bytes, since no register exposes a byte order (20_memory.md R63). -/
inductive HostOp where
  /-- A write of `value` to bus address `addr`, `size` bytes wide. -/
  | wr (addr : Word) (size : Nat) (value : Word)
  /-- A read of `size` bytes at bus address `addr` of the window. -/
  | rd (addr : Word) (size : Nat)
  /-- The host (or another agent that is not the engine) writes bytes to bus memory. -/
  | memWrite (addr : Word) (bytes : List Byte)
  /-- The host reads bytes of bus memory. -/
  | memRead (addr : Word) (n : Nat)
  /-- The reset input is asserted and released. -/
  | hardReset
deriving DecidableEq, Repr

/-- Whose turn it is while the engine is busy: the host's, or the engine's, which then moves lane
`lane` if a DISPATCH runs and that lane is active (43_dispatch.md R214: lanes run concurrently). -/
inductive Turn where
  | host
  | engine (lane : Nat)
deriving DecidableEq, Repr

/-- What the bus last answered to the host. -/
inductive Response where
  /-- Nothing has been answered yet, or the last event was the reset input. -/
  | none
  /-- A write completed. -/
  | written
  /-- A register read returned this word. -/
  | data (value : Word)
  /-- A memory read returned these bytes. -/
  | bytes (bytes : List Byte)
deriving DecidableEq, Repr

/-- The machine. -/
structure State where
  /-- The parameters of the instance (00_scope.md R8). No step changes them. -/
  inst : Instance
  /-- The bus memory (R60), which is the platform's and not the engine's. -/
  memory : Memory
  /-- CTRL.IRQ_EN (R24). CTRL has no other stored bit. -/
  irqEn : Bool
  /-- The stored bits of STATUS (R25). -/
  status : Status
  /-- CONFIG (R27), its reserved bits 0. -/
  config : Word
  /-- SRC (R28). -/
  src : Word
  /-- DST (R29). -/
  dst : Word
  /-- LEN (R30). -/
  len : Word
  /-- COUNT (R31). -/
  count : Word
  /-- STATE0 to STATE7 (R34). -/
  hash : HashState
  /-- seq, and with it ctx and the work in progress (R37 to R40, R46). -/
  engine : Engine
  /-- Lanes 0..NUM_LANES-1 (R41). -/
  lanes : List Lane
  /-- The model's own: what the host does next, oldest first. -/
  inputs : List HostOp
  /-- The model's own: who moves next while the engine is busy. -/
  sched : List Turn
  /-- The model's own: the answer to the last host access. -/
  response : Response
  /-- The model's own: how many free values have been taken. -/
  fresh : Nat
deriving DecidableEq, Repr

/-- Reasons a step stops with a fault. -/
inductive Fault where
  /-- Raised by a host access to bus memory that runs past byte 0xFFFFFFFF: the bus space has 2^32
  bytes and no more (R60). Safe: no effect is claimed. No command raises it, since a range that
  wraps is a RangeError (R66). -/
  | outsideBusSpace
  /-- Raised by a host access inside the register window of another size than 4 bytes or at an address
  that is no multiple of 4: the bus answers it with a bus error response, no state of the engine
  changes, and a read returns no data (R21, U1: "`fault` for the host access"). Safe. -/
  | windowBusError
deriving DecidableEq, Repr

/-- Reasons a step is refused. -/
inductive Refusal where
  /-- Raised by an arm of exec that has no meaning yet. Safe. -/
  | notModelled (mnemonic : String)
  /-- Raised when an agent other than the engine writes a byte of the running command's source or
  destination range (R305, U4: "The execution is refused"). Safe. -/
  | hostWroteBusyRange
  /-- Raised by a command that passes every pre-check and whose ranges touch a device range (R68, U6:
  "A model refuses a command whose ranges it cannot show to be normal memory"). Safe. -/
  | rangeNotNormalMemory
  /-- Raised by a host access to the bytes of a device range: what a device does is not in the spec
  (R68). Safe. -/
  | hostDeviceAccess
  /-- Raised by a `wr` or `rd` outside the register window, or a `memWrite` or `memRead` that
  touches it: such an access is not one the engine decodes (R20), or has no byte order (R63). Safe:
  a host program uses the other form. -/
  | wrongAccessForm
deriving DecidableEq, Repr

/-- What executing a command or a host access answers. -/
abbrev Result := Host.Outcome State Fault Refusal

/-- STATUS after reset: 0x00000000 (R48). -/
def statusReset : Status where
  done := false
  err := false
  dropped := false
  errcode := 0#4

/-- The machine right after a hardware reset (R48, R301) of the default instance, with nothing in bus
memory and no host access waiting. -/
def State.reset : State where
  inst := Instance.default
  memory := []
  irqEn := false
  status := statusReset
  config := 0x00000008#32
  src := 0#32
  dst := 0#32
  len := 0#32
  count := 0#32
  hash := iv
  engine := .idle
  lanes := List.replicate Instance.default.numLanes laneIdle
  inputs := []
  sched := []
  response := .none
  fresh := 0

end Sys2Proof.Machine
end

