-- ==== Sys2Proof/Machine/Flags.lean ====
section
/-! DEFINITION. Every computation on STATUS the spec gives (10_state.md R25; 44_command_control.md R240 to
R245, R248; 60_exceptions.md R270), and the interrupt output that follows it (R47). -/

namespace Sys2Proof.Machine

/-- The number a failing command records in ERRCODE (R270). -/
def errorNumber (e : ErrorCode) : BitVec 4 :=
  match e with
  | .invalidInputLength => 1#4
  | .invalidConfiguration => 2#4
  | .workerCreationFailure => 3#4
  | .invalidCommand => 4#4
  | .busError => 5#4
  | .rangeError => 6#4

/-- Acceptance clears DONE, ERR and ERRCODE and leaves DROPPED (R240 step 1). -/
def statusAccepted (t : Status) : Status := { t with done := false, err := false, errcode := 0#4 }

/-- Completion with success sets DONE (R244). -/
def statusSucceeded (t : Status) : Status := { t with done := true }

/-- Completion with error sets DONE and ERR and records the code (R242, R270). -/
def statusFailed (e : ErrorCode) (t : Status) : Status :=
  { t with done := true, err := true, errcode := errorNumber e }

/-- A write lost to the lock sets DROPPED (R35, R241). -/
def statusDropped (t : Status) : Status := { t with dropped := true }

/-- The W1C write of R248: bit 1 clears DONE, bit 2 clears ERR and ERRCODE, bit 3 clears DROPPED; no
bit is ever set. -/
def statusCleared (v : Word) (t : Status) : Status where
  done := t.done && !v.getLsbD 1
  err := t.err && !v.getLsbD 2
  dropped := t.dropped && !v.getLsbD 3
  errcode := if v.getLsbD 2 then 0#4 else t.errcode

/-- STATUS as a host reads it (R25): BUSY in bit 0, DONE 1, ERR 2, DROPPED 3, ERRCODE 7:4, the rest
0. -/
def statusWord (busy : Bool) (t : Status) : Word :=
  0#24 ++ t.errcode ++ BitVec.ofBool t.dropped ++ BitVec.ofBool t.err ++ BitVec.ofBool t.done ++
    BitVec.ofBool busy

/-- STATUS.BUSY: 1 iff seq = BUSY (R37). -/
def isBusy (s : State) : Bool :=
  match s.engine with
  | .idle => false
  | .busy _ _ => true

/-- The interrupt output: irq = CTRL.IRQ_EN ∧ STATUS.DONE, a level and not a stored bit (R47). -/
def irq (s : State) : Bool := s.irqEn && s.status.done

end Sys2Proof.Machine
end

