-- ==== Sys2Proof/Machine/Operands.lean ====
section
/-! DEFINITION. Where a command's operands come from: the CONFIG fields (spec 30_encoding.md R94 to R97),
the captured context (10_state.md R38), the source and destination ranges (20_memory.md R65 to R68),
the effective worker count and the partition (43_dispatch.md R211, R212). -/

namespace Sys2Proof.Machine

/-- SUPPORTED_RATIOS as a test (00_scope.md R8): 8, 16, 32 and 64 always, 1, 2 and 4 where the
instance adds them. -/
def ratioSupported (p : Instance) (r : Nat) : Bool :=
  r == 8 || r == 16 || r == 32 || r == 64 ||
    (r == 1 && p.ratio1) || (r == 2 && p.ratio2) || (r == 4 && p.ratio4)

/-- CONFIG.RATIO, bits 6:0 (R94). -/
def configRatio (config : Word) : BitVec 7 := config.extractLsb' 0 7

/-- CONFIG.MIX, bits 9:8 (R95). -/
def configMix (config : Word) : BitVec 2 := config.extractLsb' 8 2

/-- CONFIG.WIDTH, bits 13:12 (R96). -/
def configWidth (config : Word) : BitVec 2 := config.extractLsb' 12 2

/-- The context ctx a command captures at acceptance (R38), and the bus memory as it then is. -/
def capture (i : Instr) (s : State) : Ctx where
  cmd := i
  ratio := configRatio s.config
  mix := configMix s.config
  width := configWidth s.config
  src := s.src
  dst := s.dst
  len := s.len
  count := s.count
  state := s.hash
  before := s.memory

/-- RATIO ∈ SUPPORTED_RATIOS (R94). -/
def ratioLegal (p : Instance) (c : Ctx) : Bool := ratioSupported p c.ratio.toNat

/-- MIX ∈ {0, 1} (R95). -/
def mixLegal (c : Ctx) : Bool := decide (c.mix.toNat ≤ 1)

/-- WIDTH ∈ {0, 1} (R96). -/
def widthLegal (c : Ctx) : Bool := decide (c.width.toNat ≤ 1)

/-- The bytes of one digest as written, wb: 32 when width = 0, otherwise 16 (R65). -/
def digestBytes (c : Ctx) : Nat := if c.width = 0#2 then 32 else 16

/-- The length L = 4096 div r of the funnel's output (41_funnel.md R160). -/
def funnelLength (c : Ctx) : Nat := 4096 / c.ratio.toNat

/-- The number of bytes of the command's source range (R65). -/
def sourceLength (c : Ctx) : Nat :=
  match c.cmd with
  | .nop => 0
  | .init => 0
  | .compress => c.len.toNat
  | .funnel => 4096
  | .digest => 4096
  | .dispatch _ _ => c.count.toNat * 4096

/-- The number of bytes of the command's destination range (R65). -/
def destLength (c : Ctx) : Nat :=
  match c.cmd with
  | .nop => 0
  | .init => 0
  | .compress => 0
  | .funnel => funnelLength c
  | .digest => digestBytes c
  | .dispatch _ _ => c.count.toNat * digestBytes c

/-- The source range (R65), in exact arithmetic. -/
def sourceRange (c : Ctx) : Span := ⟨c.src.toNat, c.src.toNat + sourceLength c⟩

/-- The destination range (R65), in exact arithmetic. -/
def destRange (c : Ctx) : Span := ⟨c.dst.toNat, c.dst.toNat + destLength c⟩

/-- A range passes 2^32 (R66). -/
def rangeWraps (c : Ctx) : Bool :=
  decide (busTop < (sourceRange c).hi) || decide (busTop < (destRange c).hi)

/-- The two ranges are both non-empty and overlap (R67). -/
def rangesOverlap (c : Ctx) : Bool := (sourceRange c).meets (destRange c)

/-- The range check of R276: the wrap check of both ranges, then the overlap check. -/
def rangeFails (c : Ctx) : Bool := rangeWraps c || rangesOverlap c

/-- The bus addresses of the register window (R20). -/
def windowSpan (p : Instance) : Span := ⟨p.hceBase.toNat, p.hceBase.toNat + 256⟩

/-- The command's ranges lie in normal memory: they touch no device range of the platform (R68). The
register window is no such range: the engine's accesses reach the bus space and never the window
(R60; assumption log 6). -/
def rangesNormal (p : Instance) (c : Ctx) : Bool :=
  p.devices.all fun d => !d.meets (sourceRange c) && !d.meets (destRange c)

/-- bus_ok(a) (R62). -/
def busOk (p : Instance) (a : Nat) : Bool := !p.busBad.any fun r => r.has a

/-- The command meets a bus error: some byte of its source or destination range has ¬bus_ok
(R62). -/
def busFails (p : Instance) (c : Ctx) : Bool :=
  p.busBad.any fun r => r.meets (sourceRange c) || r.meets (destRange c)

/-- The effective worker count W = min(max(workers, 1), NUM_LANES) (R211). -/
def effectiveWorkers (p : Instance) (workers : Nat) : Nat := min (max workers 1) p.numLanes

/-- Partition(N, W)[k] = (lo_k, hi_k) (R212). -/
def partitionAt (n w k : Nat) : Nat × Nat :=
  (k * (n / w), if k < w - 1 then (k + 1) * (n / w) else n)

/-- Partition(N, W) (R212). -/
def partition (n w : Nat) : List (Nat × Nat) := (List.range w).map (partitionAt n w)

/-- Every lane k < W can be started (R213). -/
def lanesAvailable (p : Instance) (workers : Nat) : Bool :=
  (List.range (effectiveWorkers p workers)).all fun k => p.laneAvail.getLsbD k

/-- The address of input message i of a DISPATCH (R214). -/
def messageAddr (c : Ctx) (i : Nat) : Nat := c.src.toNat + 4096 * i

/-- The address of output slot i of a DISPATCH (R215). -/
def slotAddr (c : Ctx) (i : Nat) : Nat := c.dst.toNat + digestBytes c * i

end Sys2Proof.Machine
end

