-- ==== Sys2Proof/Machine/Ops.lean ====
section
/-! DEFINITION. The shared operations over the bus memory and the registers: reads and writes of bytes
(spec 20_memory.md R61), engine accesses with their bus errors (R62), register reads and stores
(10_state.md R20 to R35), acceptance and completion (44_command_control.md R240 to R245), taking an
error and acknowledging it (60_exceptions.md R282, R283), and reset (70_reset_and_hazards.md R300,
R302). -/

namespace Sys2Proof.Machine

/-! ## Bus memory -/

/-- What a byte of bus memory that nothing has written reads as. Power-up contents are the platform's
(U17); the model reads 0x00 (DESIGN CHOICE, assumption log 1). -/
def unlistedByte : Byte := 0x00#8

/-- The byte at address a. -/
def Memory.read : Memory → Nat → Byte
  | [], _ => unlistedByte
  | (k, b) :: m, a => if k = a then b else Memory.read m a

/-- Memory with byte b at address a, in canonical form: writing what an unlisted address reads as
removes the entry. -/
def Memory.write : Memory → Nat → Byte → Memory
  | [], a, b => if b = unlistedByte then [] else [(a, b)]
  | (k, c) :: m, a, b =>
    if a < k then
      if b = unlistedByte then (k, c) :: m else (a, b) :: (k, c) :: m
    else if a = k then
      if b = unlistedByte then m else (a, b) :: m
    else (k, c) :: Memory.write m a b

/-- MemRead's byte string (R61): byte i is the byte at address a + i. -/
def Memory.readBytes (m : Memory) : Nat → Nat → List Byte
  | _, 0 => []
  | a, n + 1 => Memory.read m a :: Memory.readBytes m (a + 1) n

/-- MemWrite's effect (R61): byte i of the string goes to address a + i. -/
def Memory.writeBytes : Memory → Nat → List Byte → Memory
  | m, _, [] => m
  | m, a, b :: bs => Memory.writeBytes (Memory.write m a b) (a + 1) bs

/-- The canonical form: addresses strictly rising, and no entry equal to what an unlisted address
reads as. -/
abbrev Memory.wf (m : Memory) : Prop :=
  m.Pairwise (fun x y => x.1 < y.1) ∧ ∀ x ∈ m, x.2 ≠ unlistedByte

/-- Every listed address is an address of the bus space (R60). -/
abbrev Memory.inBusSpace (m : Memory) : Prop := ∀ x ∈ m, x.1 < busTop

/-- Every byte of [a, a + n) completes an engine access (R62). -/
def busOkRange (p : Instance) (a n : Nat) : Bool := !p.busBad.any fun r => r.meets ⟨a, a + n⟩

/-- MemRead by the engine: the bytes, or nothing when some access meets ¬bus_ok (R62). -/
def engineRead (s : State) (a n : Nat) : Option (List Byte) :=
  if busOkRange s.inst a n then some (Memory.readBytes s.memory a n) else none

/-! ## Updates of one field -/

/-- `State.setMemory`: the bus memory replaced. -/
def State.setMemory (s : State) (m : Memory) : State := { s with memory := m }

/-- `State.setIrqEn`: CTRL.IRQ_EN replaced. -/
def State.setIrqEn (s : State) (b : Bool) : State := { s with irqEn := b }

/-- `State.setStatus`: the stored bits of STATUS replaced. -/
def State.setStatus (s : State) (t : Status) : State := { s with status := t }

/-- `State.setConfig`: CONFIG replaced. -/
def State.setConfig (s : State) (v : Word) : State := { s with config := v }

/-- `State.setSrc`: SRC replaced. -/
def State.setSrc (s : State) (v : Word) : State := { s with src := v }

/-- `State.setDst`: DST replaced. -/
def State.setDst (s : State) (v : Word) : State := { s with dst := v }

/-- `State.setLen`: LEN replaced. -/
def State.setLen (s : State) (v : Word) : State := { s with len := v }

/-- `State.setCount`: COUNT replaced. -/
def State.setCount (s : State) (v : Word) : State := { s with count := v }

/-- `State.setHash`: STATE0..7 replaced, all eight at once (R36). -/
def State.setHash (s : State) (v : HashState) : State := { s with hash := v }

/-- `State.setEngine`: the sequencer state replaced. -/
def State.setEngine (s : State) (e : Engine) : State := { s with engine := e }

/-- `State.setLanes`: the lanes replaced. -/
def State.setLanes (s : State) (l : List Lane) : State := { s with lanes := l }

/-- `State.setInputs`: the host accesses still to come replaced. -/
def State.setInputs (s : State) (l : List HostOp) : State := { s with inputs := l }

/-- `State.setSched`: the turns still to come replaced. -/
def State.setSched (s : State) (l : List Turn) : State := { s with sched := l }

/-- `State.setResponse`: the bus's answer to the host replaced. -/
def State.setResponse (s : State) (r : Response) : State := { s with response := r }

/-- `State.setFresh`: the counter of free values replaced. -/
def State.setFresh (s : State) (n : Nat) : State := { s with fresh := n }

/-! ## Registers -/

/-- STATEk (R34). -/
def hashGet (v : HashState) (k : Fin 8) : Word :=
  match k.val with
  | 0 => v.a
  | 1 => v.b
  | 2 => v.c
  | 3 => v.d
  | 4 => v.e
  | 5 => v.f
  | 6 => v.g
  | _ => v.h

/-- The register file with STATEk replaced (R34). -/
def hashSet (v : HashState) (k : Fin 8) (x : Word) : HashState :=
  match k.val with
  | 0 => { v with a := x }
  | 1 => { v with b := x }
  | 2 => { v with c := x }
  | 3 => { v with d := x }
  | 4 => { v with e := x }
  | 5 => { v with f := x }
  | 6 => { v with g := x }
  | _ => { v with h := x }

/-- The register at an aligned offset of the window (R20). -/
def regAt (offset : Nat) : Reg :=
  match offset with
  | 0x00 => .id
  | 0x04 => .ctrl
  | 0x08 => .status
  | 0x0C => .cmd
  | 0x10 => .config
  | 0x14 => .src
  | 0x18 => .dst
  | 0x1C => .len
  | 0x20 => .count
  | 0x24 => .params
  | 0x28 => .laneAvail
  | 0x40 => .state 0
  | 0x44 => .state 1
  | 0x48 => .state 2
  | 0x4C => .state 3
  | 0x50 => .state 4
  | 0x54 => .state 5
  | 0x58 => .state 6
  | 0x5C => .state 7
  | _ => .reserved

/-- ID, permanently 0x48434531 (R23). -/
def idWord : Word := 0x48434531#32

/-- PARAMS.RATIO_MAP: bit i is 1 iff 2^i ∈ SUPPORTED_RATIOS (R32). -/
def ratioMap (p : Instance) : BitVec 7 :=
  BitVec.ofBool (ratioSupported p 64) ++ BitVec.ofBool (ratioSupported p 32) ++
    BitVec.ofBool (ratioSupported p 16) ++ BitVec.ofBool (ratioSupported p 8) ++
    BitVec.ofBool (ratioSupported p 4) ++ BitVec.ofBool (ratioSupported p 2) ++
    BitVec.ofBool (ratioSupported p 1)

/-- PARAMS (R32). -/
def paramsWord (p : Instance) : Word :=
  0#9 ++ ratioMap p ++ 0#8 ++ BitVec.ofNat 8 p.numLanes

/-- CTRL as a host reads it: IRQ_EN in bit 0, SOFT_RESET reads 0 (R24). -/
def ctrlWord (irqEn : Bool) : Word := 0#31 ++ BitVec.ofBool irqEn

/-- What a read of a register returns (R20 to R34). No read changes anything and none is locked
(R35). -/
def regRead (s : State) (r : Reg) : Word :=
  match r with
  | .id => idWord
  | .ctrl => ctrlWord s.irqEn
  | .status => statusWord (isBusy s) s.status
  | .cmd => 0#32
  | .config => s.config
  | .src => s.src
  | .dst => s.dst
  | .len => s.len
  | .count => s.count
  | .params => paramsWord s.inst
  | .laneAvail => s.inst.laneAvail
  | .state k => hashGet s.hash k
  | .reserved => 0#32

/-- The bits CONFIG stores: RATIO 6:0, MIX 9:8, WIDTH 13:12; the reserved bits ignore writes and read
0 (R27). -/
def configMask : Word := 0x0000337F#32

/-! ## Acceptance, completion, errors -/

/-- A locked write lost because the engine is BUSY: DROPPED is set and nothing else happens (R35,
R241). -/
def dropWrite (s : State) : State := s.setStatus (statusDropped s.status)

/-- Acceptance's first effect on the state (R240 step 1). -/
def acceptCommand (s : State) : State := s.setStatus (statusAccepted s.status)

/-- A command word written to CMD: dropped while BUSY (R241), otherwise accepted (R240) and then run
by `body`. -/
def onCommand (s : State) (body : State → Result) : Result :=
  match s.engine with
  | .busy _ _ => .next (dropWrite s)
  | .idle => body (acceptCommand s)

/-- Completion with success (R244 steps 3 and 4): seq <- IDLE and DONE <- 1. -/
def completeSuccess (s : State) : State :=
  (s.setEngine .idle).setStatus (statusSucceeded s.status)

/-- Taking an error (R282): the command's remaining steps do not occur, STATUS records DONE, ERR and
ERRCODE, seq returns to IDLE; irq follows DONE (R47). Nothing else is recorded (R278), and control
goes nowhere. -/
def takeError (e : ErrorCode) (s : State) : State :=
  (s.setEngine .idle).setStatus (statusFailed e s.status)

/-- The return from an error (R283): the host's W1C write of STATUS (R248). Nothing is restored,
because nothing was saved. -/
def acknowledge (v : Word) (s : State) : State := s.setStatus (statusCleared v s.status)

/-- `n` unspecified bytes (U2, U3: "any value" per byte), from the counter's value on. -/
def freeBytes (fresh n : Nat) : List Byte :=
  (List.range n).map fun i => Config.freeByte (fresh + i)

/-- Every byte of the destination range holds an unspecified value (U2, U3), and no other byte
changes. -/
def scrambleDest (c : Ctx) (s : State) : State :=
  (s.setMemory (Memory.writeBytes s.memory (destRange c).lo (freeBytes s.fresh (destLength c)))).setFresh
    (s.fresh + destLength c)

/-- No lane is active (R41). -/
def stopLanes (s : State) : State := s.setLanes (List.replicate s.inst.numLanes laneIdle)

/-- Completion with BusError (R245, R275): every lane stops, the destination range is unspecified,
STATE0..7 keep their values. -/
def takeBusError (c : Ctx) (s : State) : State :=
  takeError .busError (stopLanes (scrambleDest c s))

/-! ## Reset -/

/-- Every register and internal state element at its reset value (R48). The instance, the bus memory
and the model's own fields are not the engine's to reset. -/
def resetRegisters (s : State) : State where
  inst := s.inst
  memory := s.memory
  irqEn := false
  status := statusReset
  config := 0x00000008#32
  src := 0#32
  dst := 0#32
  len := 0#32
  count := 0#32
  hash := iv
  engine := .idle
  lanes := List.replicate s.inst.numLanes laneIdle
  inputs := s.inputs
  sched := s.sched
  response := s.response
  fresh := s.fresh

/-- A hardware or soft reset (R300, R302): a command BUSY at that moment is abandoned and its
destination range is unspecified (R303, U3); then every register takes its reset value. -/
def resetEngine (s : State) : State :=
  match s.engine with
  | .idle => resetRegisters s
  | .busy c _ => resetRegisters (scrambleDest c s)

/-- A write of CTRL (R24, R247): bit 1 performs a soft reset whatever bit 0 is; otherwise IRQ_EN takes
bit 0. -/
def ctrlWrite (v : Word) (s : State) : State :=
  if v.getLsbD 1 then resetEngine s else s.setIrqEn (v.getLsbD 0)

/-- A write of a register that the lock covers (R35): dropped while BUSY, stored otherwise. -/
def lockedStore (s : State) (store : State → State) : State :=
  match s.engine with
  | .busy _ _ => dropWrite s
  | .idle => store s

end Sys2Proof.Machine
end

