-- ==== Sys2Proof/Machine/Digest.lean ====
section
/-! DEFINITION. The digest functions (spec 42_digest.md R190, R191), and what a command that completes with
success leaves in memory and in STATE0..7 as a pure function of its context and the bytes of its
source range (20_memory.md R77 item 2). -/

namespace Sys2Proof.Machine

/-- D256(M, (r, mix)) = SER(CFstar(IV, Funnel(M, r, mix))): no padding, always from IV (R190, R192,
R193). -/
def d256 (key : Vector Byte 16) (m : List Byte) (r : Nat) (mix : BitVec 2) : List Byte :=
  ser (cfStar iv (funnel key m r mix))

/-- D128(M, (r, mix)): the first 16 bytes of D256 (R191). -/
def d128 (key : Vector Byte 16) (m : List Byte) (r : Nat) (mix : BitVec 2) : List Byte :=
  (d256 key m r mix).take 16

/-- The funnel of the 4096-byte message at an address, in a command's configuration. -/
def funnelAt (p : Instance) (c : Ctx) (mem : Memory) (a : Nat) : List Byte :=
  funnel p.mixKey (Memory.readBytes mem a 4096) c.ratio.toNat c.mix

/-- The digest of the 4096-byte message at an address, in a command's configuration and width: d[0 .. wb)
of R194 and R214. -/
def digestAt (p : Instance) (c : Ctx) (mem : Memory) (a : Nat) : List Byte :=
  (d256 p.mixKey (Memory.readBytes mem a 4096) c.ratio.toNat c.mix).take (digestBytes c)

/-- The final value of the destination byte at address a, when the running command completes with
success: what the command's rule gives for it (R74, R170, R194, R215). -/
def finalByte (p : Instance) (c : Ctx) (mem : Memory) (a : Nat) : Byte :=
  match c.cmd with
  | .nop => Memory.read mem a
  | .init => Memory.read mem a
  | .compress => Memory.read mem a
  | .funnel => (funnelAt p c mem c.src.toNat).getD (a - c.dst.toNat) 0
  | .digest => (digestAt p c mem c.src.toNat).getD (a - c.dst.toNat) 0
  | .dispatch _ _ =>
    (digestAt p c mem (messageAddr c ((a - c.dst.toNat) / digestBytes c))).getD
      ((a - c.dst.toNat) % digestBytes c) 0

/-- Memory after n digests of a batch have been written to their slots, slot i holding the digest of
message i (R215, R221). -/
def batchMemory (p : Instance) (c : Ctx) (mem : Memory) : Nat → Memory
  | 0 => mem
  | n + 1 => Memory.writeBytes (batchMemory p c mem n) (slotAddr c n) (digestAt p c mem (messageAddr c n))

end Sys2Proof.Machine
end

