-- ==== Sys2Proof/Machine/Engine.lean ====
section
/-! DEFINITION. The busy engine, one move at a time (spec 44_command_control.md R243): the compression core
(10_state.md R39, R40), the orchestrator (R46), the dispatcher's lanes (43_dispatch.md R214, R216),
completion and bus errors (R244, R245). A move is one round of one compression, one block loaded, one
message read or one digest written: the spec fixes no granularity (70_reset_and_hazards.md R311). -/

namespace Sys2Proof.Machine

/-! ## The compression core -/

/-- The start of CF(V, B): the schedules of the block, A..H from V0..V7 (R131). -/
def coreStart (v : HashState) (b : List Byte) : CoreEval where
  start := v
  regs := v
  round := 0
  w := schedule b
  w' := derivedSchedule (schedule b)

/-- One round (R129, R130); after round 63 the feed-forward and the result (R132). -/
def coreStep (e : CoreEval) : CoreEval ⊕ HashState :=
  let r := roundStep e.w e.w' e.round e.regs
  if e.round < 63 then .inl { e with regs := r, round := e.round + 1 }
  else .inr (feedForward e.start r)

/-! ## The orchestrator -/

/-- What one move of an orchestrator evaluation answers. -/
inductive OrchResult where
  /-- The evaluation goes on. -/
  | running (o : Orch)
  /-- Its digest is complete and to be written. -/
  | finished (digest : List Byte)
  /-- Reading the message met a bus error. -/
  | busError
deriving DecidableEq, Repr

/-- One move of the orchestrator on the message at address a (R190, R214): read and funnel the
message; load a block of the funnel buffer; one round; serialize; hand the digest over. -/
def orchStep (s : State) (c : Ctx) (a : Nat) (o : Orch) : OrchResult :=
  match o with
  | .fetch =>
    match engineRead s a 4096 with
    | none => .busError
    | some m => .running (.absorb (funnel s.inst.mixKey m c.ratio.toNat c.mix) iv)
  | .absorb [] v => .running (.digest (ser v))
  | .absorb (b :: bs) v =>
    .running (.compress ((b :: bs).drop 64) (coreStart v ((b :: bs).take 64)))
  | .compress rest e =>
    match coreStep e with
    | .inl e' => .running (.compress rest e')
    | .inr v => .running (.absorb rest v)
  | .digest d => .finished d

/-! ## Writes and completions -/

/-- MemWrite by the engine and then `after`, or the command's BusError when the bus does not complete
the write (R62, R245). -/
def engineWrite (c : Ctx) (s : State) (a : Nat) (bytes : List Byte) (after : State → State) : State :=
  if busOkRange s.inst a bytes.length then
    after (s.setMemory (Memory.writeBytes s.memory a bytes))
  else takeBusError c s

/-- The busy state with its job replaced. -/
def setJob (c : Ctx) (j : Job) (s : State) : State := s.setEngine (.busy c j)

/-! ## COMPRESS, FUNNEL, DIGEST -/

/-- A move of COMPRESS (R137): load block k, one round, or complete with STATE0..7 <- V. -/
def compressMove (c : Ctx) (k : Nat) (v : HashState) (core : Option CoreEval) (s : State) : State :=
  match core with
  | some e =>
    match coreStep e with
    | .inl e' => setJob c (.compress k v (some e')) s
    | .inr v' => setJob c (.compress (k + 1) v' none) s
  | none =>
    if c.len.toNat / 64 ≤ k then completeSuccess (s.setHash v)
    else
      match engineRead s (c.src.toNat + 64 * k) 64 with
      | none => takeBusError c s
      | some b => setJob c (.compress k v (some (coreStart v b))) s

/-- A move of FUNNEL (R170): read the message into the funnel buffer, or write the buffer and
complete. -/
def funnelMove (c : Ctx) (buffer : Option (List Byte)) (s : State) : State :=
  match buffer with
  | none =>
    match engineRead s c.src.toNat 4096 with
    | none => takeBusError c s
    | some m => setJob c (.funnel (some (funnel s.inst.mixKey m c.ratio.toNat c.mix))) s
  | some b => engineWrite c s c.dst.toNat b completeSuccess

/-- A move of DIGEST (R194). -/
def digestMove (c : Ctx) (o : Orch) (s : State) : State :=
  match orchStep s c c.src.toNat o with
  | .running o' => setJob c (.digest o') s
  | .finished d => engineWrite c s c.dst.toNat (d.take (digestBytes c)) completeSuccess
  | .busError => takeBusError c s

/-! ## DISPATCH -/

/-- The lane that moves: the one whose turn it is if it is active, otherwise the first active one. -/
def pickLane (turn : Nat) (lanes : List Lane) : Option Nat :=
  match lanes[turn]? with
  | some l => if l.active then some turn else lanes.findIdx? (fun l => l.active)
  | none => lanes.findIdx? (fun l => l.active)

/-- A lane after its message `next` has been written (R214). -/
def laneAdvance (l : Lane) : Lane := { l with next := l.next + 1, orch := .fetch }

/-- A move of lane k (R214): signal done when its range is finished, otherwise one move of the
digest of message `next`, whose digest goes to slot `next` (R215). -/
def laneMove (c : Ctx) (k : Nat) (l : Lane) (s : State) : State :=
  if l.hi ≤ l.next then s.setLanes (s.lanes.set k { l with active := false })
  else
    match orchStep s c (messageAddr c l.next) l.orch with
    | .running o => s.setLanes (s.lanes.set k { l with orch := o })
    | .finished d =>
      engineWrite c s (slotAddr c l.next) (d.take (digestBytes c)) fun s' =>
        s'.setLanes (s'.lanes.set k (laneAdvance l))
    | .busError => takeBusError c s

/-- A move of DISPATCH: one active lane moves; when every lane has signalled done, the completion
barrier (R216). -/
def dispatchMove (c : Ctx) (turn : Nat) (s : State) : State :=
  match pickLane turn s.lanes with
  | none => completeSuccess (stopLanes s)
  | some k =>
    match s.lanes[k]? with
    | none => completeSuccess (stopLanes s)
    | some l => laneMove c k l s

/-- The lanes at the start of a DISPATCH: lane k < W on partition k, the others not started (R213,
R220). -/
def startLanes (numLanes n w : Nat) : List Lane :=
  (List.range numLanes).map fun k =>
    if k < w then
      { active := true, lo := (partitionAt n w k).1, hi := (partitionAt n w k).2,
        next := (partitionAt n w k).1, orch := .fetch }
    else laneIdle

/-! ## The engine's move and its run to completion -/

/-- One move of the busy engine; an idle engine does nothing (R301). -/
def engineMove (turn : Nat) (s : State) : State :=
  match s.engine with
  | .idle => s
  | .busy c job =>
    match job with
    | .compress k v core => compressMove c k v core s
    | .funnel buffer => funnelMove c buffer s
    | .digest o => digestMove c o s
    | .dispatch => dispatchMove c turn s

/-- Moves left in a compression in progress. -/
def coreMoves (e : CoreEval) : Nat := 64 - min e.round 63

/-- Moves needed to absorb n more bytes of a funnel buffer. -/
def absorbMoves (n : Nat) : Nat := 65 * ((n + 63) / 64)

/-- Moves left in an orchestrator evaluation, its hand-over included. -/
def orchMoves (c : Ctx) (o : Orch) : Nat :=
  match o with
  | .fetch => absorbMoves (funnelLength c) + 3
  | .absorb buffer _ => absorbMoves buffer.length + 2
  | .compress rest e => coreMoves e + absorbMoves rest.length + 2
  | .digest _ => 1

/-- Moves left in a lane, its done signal included. -/
def laneMoves (c : Ctx) (l : Lane) : Nat :=
  if l.active then
    if l.hi ≤ l.next then 1
    else (l.hi - l.next - 1) * (absorbMoves (funnelLength c) + 3) + orchMoves c l.orch + 1
  else 0

/-- Moves left until the running command completes, whatever the order of the lanes: a bound, which a
bus error may cut short (R252). -/
def movesLeft (s : State) : Nat :=
  match s.engine with
  | .idle => 0
  | .busy c job =>
    match job with
    | .compress k _ none => 65 * (c.len.toNat / 64 - k) + 1
    | .compress k _ (some e) => coreMoves e + 65 * (c.len.toNat / 64 - (k + 1)) + 1
    | .funnel none => 2
    | .funnel (some _) => 1
    | .digest o => orchMoves c o
    | .dispatch => (s.lanes.map (laneMoves c)).sum + 1

/-- At most n moves of the engine, stopping when it is idle; the first active lane moves first. -/
def runEngine : Nat → State → State
  | 0, s => s
  | n + 1, s =>
    match s.engine with
    | .idle => s
    | .busy _ _ => runEngine n (engineMove 0 s)

/-- The running command to its completion, no host access landing in between. -/
def finishCommand (s : State) : State := runEngine (movesLeft s) s

/-- A command that has passed every pre-check and has memory work (R242): refused when its ranges are
not normal memory (R68), otherwise seq <- BUSY with its context. With turns waiting in the schedule
the engine stays BUSY and the turns decide what happens next; with none, no host access lands before
the completion, and the command runs to it in this step (assumption log 3). -/
def launch (c : Ctx) (job : Job) (s : State) : Result :=
  if rangesNormal s.inst c then
    match s.sched with
    | [] => .next (finishCommand (setJob c job s))
    | _ :: _ => .next (setJob c job s)
  else .refused .rangeNotNormalMemory

end Sys2Proof.Machine
end

