-- ==== Sys2Proof/Machine/CompressionCommands.lean ====
section
/-! DEFINITION. INIT and COMPRESS (spec 40_compression.md R136, R137). -/

namespace Sys2Proof.Machine

/-- INIT: STATEk <- IV[k], complete with success at acceptance (R136). -/
def execInit (s : State) : Result := onCommand s fun s => .next (completeSuccess (s.setHash iv))

/-- COMPRESS: the pre-checks in R137's order, then the blocks of [SRC, SRC + LEN) absorbed into
STATE0..7. -/
def execCompress (s : State) : Result :=
  onCommand s fun s =>
    let c := capture .compress s
    if c.len.toNat % 64 ≠ 0 then .next (takeError .invalidInputLength s)
    else if rangeFails c then .next (takeError .rangeError s)
    else if c.len.toNat = 0 then .next (completeSuccess s)
    else launch c (.compress 0 c.state none) s

end Sys2Proof.Machine
end

