-- ==== Sys2Proof/Machine/ControlCommands.lean ====
section
/-! DEFINITION. NOP (spec 44_command_control.md R246), and a command word that does not decode
(60_exceptions.md R274). -/

namespace Sys2Proof.Machine

/-- NOP: complete with success at acceptance (R246). -/
def execNop (s : State) : Result := onCommand s fun s => .next (completeSuccess s)

/-- A word that decodes as Invalid: accepted like any command word, it completes at acceptance with
InvalidCommand and reads neither CONFIG, LEN nor the lanes (R242 check 1, R274). -/
def execInvalid (s : State) : Result := onCommand s fun s => .next (takeError .invalidCommand s)

end Sys2Proof.Machine
end

