-- ==== Sys2Proof/Machine/DigestCommand.lean ====
section
/-! DEFINITION. DIGEST (spec 42_digest.md R194). -/

namespace Sys2Proof.Machine

/-- DIGEST: the pre-checks in R194's order, then the digest of one message to DST. -/
def execDigest (s : State) : Result :=
  onCommand s fun s =>
    let c := capture .digest s
    if !(ratioLegal s.inst c && mixLegal c && widthLegal c) then
      .next (takeError .invalidConfiguration s)
    else if c.len.toNat ≠ 4096 then .next (takeError .invalidInputLength s)
    else if rangeFails c then .next (takeError .rangeError s)
    else launch c (.digest .fetch) s

end Sys2Proof.Machine
end

