-- ==== Sys2Proof/Machine/DispatchCommand.lean ====
section
/-! DEFINITION. DISPATCH (spec 43_dispatch.md R220). -/

namespace Sys2Proof.Machine

/-- DISPATCH: the pre-checks in R220's order, then N = COUNT digests on W lanes. AFF is captured and
has no effect (R217). -/
def execDispatch (aff : Bool) (workers : Nat) (s : State) : Result :=
  onCommand s fun s =>
    let c := capture (.dispatch aff workers) s
    if !(ratioLegal s.inst c && mixLegal c && widthLegal c) then
      .next (takeError .invalidConfiguration s)
    else if c.len.toNat ≠ 4096 then .next (takeError .invalidInputLength s)
    else if rangeFails c then .next (takeError .rangeError s)
    else if !lanesAvailable s.inst workers then .next (takeError .workerCreationFailure s)
    else if c.count.toNat = 0 then .next (completeSuccess s)
    else
      launch c .dispatch
        (s.setLanes (startLanes s.inst.numLanes c.count.toNat (effectiveWorkers s.inst workers)))

end Sys2Proof.Machine
end

