-- ==== Sys2Proof/Machine/FunnelCommand.lean ====
section
/-! DEFINITION. FUNNEL (spec 41_funnel.md R170). -/

namespace Sys2Proof.Machine

/-- FUNNEL: the pre-checks in R170's order (WIDTH is not read), then Funnel(message) to DST. -/
def execFunnel (s : State) : Result :=
  onCommand s fun s =>
    let c := capture .funnel s
    if !(ratioLegal s.inst c && mixLegal c) then .next (takeError .invalidConfiguration s)
    else if c.len.toNat ≠ 4096 then .next (takeError .invalidInputLength s)
    else if rangeFails c then .next (takeError .rangeError s)
    else launch c (.funnel none) s

end Sys2Proof.Machine
end

