-- ==== Sys2Proof/Machine/Dispatch.lean ====
section
/-! DEFINITION. exec: what writing the word of a command to CMD does in a state (spec 30_encoding.md R91,
44_command_control.md R240 to R245). -/

namespace Sys2Proof.Machine

def exec (i : Instr) (s : State) : Host.Outcome State Fault Refusal :=
  match i with
  | .nop => Sys2Proof.Machine.execNop s
  | .init => Sys2Proof.Machine.execInit s
  | .compress => Sys2Proof.Machine.execCompress s
  | .funnel => Sys2Proof.Machine.execFunnel s
  | .digest => Sys2Proof.Machine.execDigest s
  | .dispatch aff workers => Sys2Proof.Machine.execDispatch aff workers s

end Sys2Proof.Machine
end

