-- ==== Sys2Proof/Machine/HostBus.lean ====
section
/-! DEFINITION. What a host access does: the register window (spec 10_state.md R20 to R35), bus memory
(70_reset_and_hazards.md R305, R306) and the reset input (R300). -/

namespace Sys2Proof.Machine

/-- The byte offset of a bus address in the register window, if it lies there (R20). -/
def windowOffset (p : Instance) (addr : Word) : Option Nat :=
  if (windowSpan p).has addr.toNat then some (addr.toNat - p.hceBase.toNat) else none

/-- A window access of this size at this offset is one the window accepts: an aligned 32-bit one
(R21). -/
def accessAccepted (offset size : Nat) : Bool := decide (size = 4) && decide (offset % 4 = 0)

/-- A command word written to CMD (R26): the decoder reads the word alone (R100); an Invalid word
completes with InvalidCommand (R274). -/
def commandWrite (w : Word) (s : State) : Result :=
  match decode w with
  | .ok i => exec i s
  | .error _ => execInvalid s

/-- A host write of a register: what the register's rule gives it, under the write lock of R35. -/
def regWrite (r : Reg) (v : Word) (s : State) : Result :=
  match r with
  | .id => .next s
  | .ctrl => .next (ctrlWrite v s)
  | .status => .next (acknowledge v s)
  | .cmd => commandWrite v s
  | .config => .next (lockedStore s fun s => s.setConfig (v &&& configMask))
  | .src => .next (lockedStore s fun s => s.setSrc v)
  | .dst => .next (lockedStore s fun s => s.setDst v)
  | .len => .next (lockedStore s fun s => s.setLen v)
  | .count => .next (lockedStore s fun s => s.setCount v)
  | .params => .next s
  | .laneAvail => .next s
  | .state k => .next (lockedStore s fun s => s.setHash (hashSet s.hash k v))
  | .reserved => .next s

/-- A host write at a bus address (R20, R21). An access of another size or alignment has no effect and
the model stops with a fault (R21, U1; assumption log 5). -/
def windowWrite (addr : Word) (size : Nat) (v : Word) (s : State) : Result :=
  match windowOffset s.inst addr with
  | none => .refused .wrongAccessForm
  | some offset =>
    if accessAccepted offset size then regWrite (regAt offset) v (s.setResponse .written)
    else .fault .windowBusError

/-- A host read at a bus address (R20, R21), with the same fault. -/
def windowRead (addr : Word) (size : Nat) (s : State) : Result :=
  match windowOffset s.inst addr with
  | none => .refused .wrongAccessForm
  | some offset =>
    if accessAccepted offset size then .next (s.setResponse (.data (regRead s (regAt offset))))
    else .fault .windowBusError

/-- The bytes [a, a + n) of a host access to bus memory. -/
def hostSpan (addr : Word) (n : Nat) : Span := ⟨addr.toNat, addr.toNat + n⟩

/-- The byte range meets a range the running command uses as its source or destination (R305). -/
def meetsRunning (s : State) (r : Span) : Bool :=
  match s.engine with
  | .idle => false
  | .busy c _ => r.meets (sourceRange c) || r.meets (destRange c)

/-- A host access to bus memory that the model admits is checked for its place: inside the bus space
(R60), outside the register window, outside every device. -/
def onBusMemory (s : State) (r : Span) (body : Result) : Result :=
  if busTop < r.hi then .fault .outsideBusSpace
  else if r.meets (windowSpan s.inst) then .refused .wrongAccessForm
  else if s.inst.devices.any fun d => r.meets d then .refused .hostDeviceAccess
  else body

/-- A host write to bus memory: it completes at once (R101); refused on the running command's ranges
(R305, U4). -/
def memoryWrite (addr : Word) (bytes : List Byte) (s : State) : Result :=
  onBusMemory s (hostSpan addr bytes.length)
    (if meetsRunning s (hostSpan addr bytes.length) then .refused .hostWroteBusyRange
     else .next ((s.setMemory (Memory.writeBytes s.memory addr.toNat bytes)).setResponse .written))

/-- One byte of a host read of bus memory. On a destination byte of the running command it is the
value before the command or the final value, chosen freely whatever the engine has written so far
(R306, U5); the final value is itself any value when the command will meet a bus error (U2). -/
def hostReadByte (s : State) (a i : Nat) : Byte :=
  match s.engine with
  | .idle => Memory.read s.memory a
  | .busy c _ =>
    if (destRange c).has a then
      if Config.freeChoice (s.fresh + i) then
        if busFails s.inst c then Config.freeByte (s.fresh + i) else finalByte s.inst c s.memory a
      else Memory.read c.before a
    else Memory.read s.memory a

/-- A host read of bus memory (R306). -/
def memoryRead (addr : Word) (n : Nat) (s : State) : Result :=
  onBusMemory s (hostSpan addr n)
    (.next ((s.setResponse
      (.bytes ((List.range n).map fun i => hostReadByte s (addr.toNat + i) i))).setFresh (s.fresh + n)))

/-- What one event from outside the engine does. -/
def hostAccess (op : HostOp) (s : State) : Result :=
  match op with
  | .wr addr size v => windowWrite addr size v s
  | .rd addr size => windowRead addr size s
  | .memWrite addr bytes => memoryWrite addr bytes s
  | .memRead addr n => memoryRead addr n s
  | .hardReset => .next ((resetEngine s).setResponse .none)

/-- The host's turn: its next access, or nothing if it has none (R301: the engine waits). -/
def hostTurn (s : State) : Result :=
  match s.inputs with
  | [] => .next s
  | op :: rest => hostAccess op (s.setInputs rest)

/-- The bus address of CMD (R20, R26). -/
def cmdAddr (p : Instance) : Word := p.hceBase + 0x0C#32

/-- A turn of the host put first, where the engine is busy. -/
def hostFirst (s : State) : List Turn :=
  match s.engine with
  | .idle => s.sched
  | .busy _ _ => .host :: s.sched

end Sys2Proof.Machine
end

