-- ==== Sys2Proof/Machine/Step.lean ====
section
/-! DEFINITION. One step of the machine. The engine fetches no instruction (spec 10_state.md R45): its
program is the host's sequence of accesses (00_scope.md R2), which stands in State as the accesses
still to come. -/

namespace Sys2Proof.Machine

/-- One step. An idle engine waits for the host (R301), whose next access is performed. While the
engine is busy the schedule says whose turn it is; when no turn is left in it, no more host access
lands before the completion and the command runs to it (R252, R311; assumption log 3). -/
def step (s : State) : Host.Outcome State Fault Refusal :=
  match s.engine with
  | .idle => hostTurn s
  | .busy _ _ =>
    match s.sched with
    | [] => .next (finishCommand s)
    | .host :: turns => hostTurn (s.setSched turns)
    | .engine k :: turns => .next (engineMove k (s.setSched turns))

/-- The state with a write of this command word as the host's next access, so that the very next step
issues it (R26). While the engine is busy the next turn is made the host's. -/
def State.withFetchWord (s : State) (nbits w : Nat) : State :=
  (s.setInputs (.wr (cmdAddr s.inst) 4 (tableWord nbits w) :: s.inputs)).setSched (hostFirst s)

end Sys2Proof.Machine
end

