-- ==== Sys2Proof/Machine/HostNotation.lean ====
section
/-! DEFINITION. The host program notation (spec 30_encoding.md R101, R102): each form and each
pseudo-instruction as the host accesses it stands for. Labels, branches and temporaries are the
host's own (44_command_control.md R249): a poll loop is given here by the number of times it reads
STATUS, and a value the host has read before is an argument. -/

namespace Sys2Proof.Machine

/-- The offset of a register (R20). -/
def regOffset (r : Reg) : Nat :=
  match r with
  | .id => 0x00
  | .ctrl => 0x04
  | .status => 0x08
  | .cmd => 0x0C
  | .config => 0x10
  | .src => 0x14
  | .dst => 0x18
  | .len => 0x1C
  | .count => 0x20
  | .params => 0x24
  | .laneAvail => 0x28
  | .state k => 0x40 + 4 * k.val
  | .reserved => 0x2C

/-- The bus address of a register. -/
def regAddr (p : Instance) (r : Reg) : Word := p.hceBase + BitVec.ofNat 32 (regOffset r)

/-- `wr REG, v` (R101). -/
def hostWr (p : Instance) (r : Reg) (v : Word) : HostOp := .wr (regAddr p r) 4 v

/-- `rd t, REG` (R101). -/
def hostRd (p : Instance) (r : Reg) : HostOp := .rd (regAddr p r) 4

/-- `mem a := s` (R101). -/
def hostMem (a : Word) (bytes : List Byte) : HostOp := .memWrite a bytes

/-- `wr CMD, <mnemonic-form>` (R101). -/
def hostCommand (p : Instance) (i : Instr) : HostOp := hostWr p .cmd (encode i)

/-- `set_config ratio=r, mix=m, width=w`, with w = 0 for 256 bits and 1 for 128 (R102). -/
def hostSetConfig (p : Instance) (r m w : Word) : HostOp :=
  hostWr p .config (r ||| (m <<< 8) ||| (w <<< 12))

/-- `wait_done` whose loop reads STATUS `polls` times (R102, R309). -/
def hostWaitDone (p : Instance) (polls : Nat) : List HostOp := List.replicate polls (hostRd p .status)

/-- `run X` (R102). -/
def hostRun (p : Instance) (i : Instr) (polls : Nat) : List HostOp :=
  hostCommand p i :: hostWaitDone p polls

/-- `clear_status` (R102). -/
def hostClearStatus (p : Instance) : HostOp := hostWr p .status 0x0000000E#32

/-- `soft_reset` (R102). -/
def hostSoftReset (p : Instance) : HostOp := hostWr p .ctrl 0x00000002#32

/-- `digest256 src, dst`, where `t` is what its read of CONFIG returns (R102). -/
def hostDigest256 (p : Instance) (src dst t : Word) (polls : Nat) : List HostOp :=
  [hostWr p .src src, hostWr p .dst dst, hostWr p .len 4096#32, hostRd p .config,
    hostWr p .config (t &&& ~~~0x3000#32)] ++ hostRun p .digest polls

/-- `digest128 src, dst`, where `t` is what its read of CONFIG returns (R102). -/
def hostDigest128 (p : Instance) (src dst t : Word) (polls : Nat) : List HostOp :=
  [hostWr p .src src, hostWr p .dst dst, hostWr p .len 4096#32, hostRd p .config,
    hostWr p .config ((t &&& ~~~0x3000#32) ||| 0x1000#32)] ++ hostRun p .digest polls

end Sys2Proof.Machine
end

