-- ==== Sys2Proof/Safety.lean ====
section
/-! DEFINITION. What counts as a sound state and as a safe run: the invariant every step keeps, and the host's
duties (spec 70_reset_and_hazards.md R304 to R308) under which no step stops. -/

namespace Sys2Proof.Machine

/-! ## The invariant -/

/-- The pre-checks a command with memory work has passed when it is BUSY (44_command_control.md
R242, 10_state.md R37), its ranges being normal memory (R68). NOP and INIT are never BUSY. -/
def passesChecks (p : Instance) (c : Ctx) : Prop :=
  rangesNormal p c = true ∧ rangeFails c = false ∧
    match c.cmd with
    | .nop => False
    | .init => False
    | .compress => c.len.toNat % 64 = 0 ∧ 0 < c.len.toNat
    | .funnel => ratioLegal p c = true ∧ mixLegal c = true ∧ c.len.toNat = 4096
    | .digest =>
      ratioLegal p c = true ∧ mixLegal c = true ∧ widthLegal c = true ∧ c.len.toNat = 4096
    | .dispatch _ workers =>
      ratioLegal p c = true ∧ mixLegal c = true ∧ widthLegal c = true ∧ c.len.toNat = 4096 ∧
        lanesAvailable p workers = true ∧ 0 < c.count.toNat

/-- Lane k of a running DISPATCH: on partition k with lo ≤ next ≤ hi when k < W, not started
otherwise (R41, R212, R213; what a lane not started holds is assumption log 4). -/
def laneSound (p : Instance) (c : Ctx) (workers k : Nat) (l : Lane) : Prop :=
  if k < effectiveWorkers p workers then
    (l.lo, l.hi) = partitionAt c.count.toNat (effectiveWorkers p workers) k ∧
      l.lo ≤ l.next ∧ l.next ≤ l.hi ∧ (l.active = false → l.next = l.hi)
  else l = laneIdle

/-- The work in progress belongs to the command in the context (R243). -/
def jobSound (p : Instance) (c : Ctx) (lanes : List Lane) (job : Job) : Prop :=
  match job with
  | .compress k _ none => c.cmd = .compress ∧ k ≤ c.len.toNat / 64
  | .compress k _ (some e) => c.cmd = .compress ∧ k < c.len.toNat / 64 ∧ e.round ≤ 63
  | .funnel none => c.cmd = .funnel
  | .funnel (some buffer) => c.cmd = .funnel ∧ buffer.length = funnelLength c
  | .digest _ => c.cmd = .digest
  | .dispatch =>
    match c.cmd with
    | .dispatch _ workers => ∀ k l, lanes[k]? = some l → laneSound p c workers k l
    | _ => False

/-- The sequencer, the context and the lanes agree: while BUSY the context passes the pre-checks, the
live registers still hold what it captured (R35, R38), the work is the command's, and DONE and ERR
are 0 (R248); no lane is started except in a DISPATCH (R41). -/
def engineSound (s : State) : Prop :=
  match s.engine with
  | .idle => s.lanes = List.replicate s.inst.numLanes laneIdle
  | .busy c job =>
    passesChecks s.inst c ∧ c = { capture c.cmd s with before := c.before } ∧ jobSound s.inst c s.lanes job ∧
      (job ≠ .dispatch → s.lanes = List.replicate s.inst.numLanes laneIdle) ∧
      s.status.done = false ∧ s.status.err = false

/-- What an evaluation of the compression function in progress will answer: its remaining rounds, then
the feed-forward (R131, R132). -/
def coreResult (e : CoreEval) : HashState :=
  feedForward e.start
    ((List.range' e.round (64 - e.round)).foldl (fun r j => roundStep e.w e.w' j r) e.regs)

/-- An orchestrator evaluation on the message at address a is on its way to that message's digest
(42_digest.md R190). -/
def orchCorrect (p : Instance) (c : Ctx) (mem : Memory) (a : Nat) (o : Orch) : Prop :=
  match o with
  | .fetch => True
  | .absorb buffer v =>
    buffer.length % 64 = 0 ∧ cfStar v buffer = cfStar iv (funnelAt p c mem a)
  | .compress rest e =>
    rest.length % 64 = 0 ∧ e.round ≤ 63 ∧
      cfStar (coreResult e) rest = cfStar iv (funnelAt p c mem a)
  | .digest d => d = ser (cfStar iv (funnelAt p c mem a))

/-- The work done so far is right: COMPRESS holds CFstar of the blocks absorbed (R137), FUNNEL the
funnel of its message (R170), DIGEST's and every lane's evaluation is on its way to its digest, and
the slots of the messages a lane has finished hold their digests (R214, R215). -/
def workCorrect (s : State) : Prop :=
  match s.engine with
  | .idle => True
  | .busy c job =>
    match job with
    | .compress k v none =>
      v = cfStar c.state (Memory.readBytes s.memory c.src.toNat (64 * k))
    | .compress k _ (some e) =>
      coreResult e = cfStar c.state (Memory.readBytes s.memory c.src.toNat (64 * (k + 1)))
    | .funnel none => True
    | .funnel (some buffer) => buffer = funnelAt s.inst c s.memory c.src.toNat
    | .digest o => orchCorrect s.inst c s.memory c.src.toNat o
    | .dispatch =>
      ∀ l ∈ s.lanes,
        (l.next < l.hi → orchCorrect s.inst c s.memory (messageAddr c l.next) l.orch) ∧
        ∀ i, l.lo ≤ i → i < l.next →
          Memory.readBytes s.memory (slotAddr c i) (digestBytes c) =
            digestAt s.inst c s.memory (messageAddr c i)

/-- The bus memory before the running command is a bus memory, and every destination byte holds what it
held there or its final value (20_memory.md R74: each is written once, with its final value). -/
def beforeSound (s : State) : Prop :=
  match s.engine with
  | .idle => True
  | .busy c _ =>
    Memory.wf c.before ∧ Memory.inBusSpace c.before ∧
      ∀ a, (destRange c).has a = true →
        Memory.read s.memory a = Memory.read c.before a ∨
          Memory.read s.memory a = finalByte s.inst c s.memory a

/-- The invariant. -/
structure Inv (s : State) : Prop where
  /-- The instance's parameters are legal (R8). -/
  instance_legal : s.inst.legal
  /-- The bus memory is in its canonical form and lists only addresses of the bus space. -/
  memory_canonical : Memory.wf s.memory
  memory_bounded : Memory.inBusSpace s.memory
  /-- The reserved bits of CONFIG are 0 (R27). -/
  config_reserved : s.config &&& ~~~configMask = 0#32
  /-- ERRCODE is 0 whenever ERR is 0, and a code 1..6 when it is 1 (R25, R270). -/
  errcode_zero : s.status.err = false → s.status.errcode = 0#4
  errcode_code : s.status.err = true → 1 ≤ s.status.errcode.toNat ∧ s.status.errcode.toNat ≤ 6
  /-- There are NUM_LANES lanes (R41). -/
  lane_count : s.lanes.length = s.inst.numLanes
  /-- The sequencer, the context and the lanes agree. -/
  engine_sound : engineSound s
  /-- The work done so far is right. -/
  work_correct : workCorrect s
  /-- The destination holds old and final bytes alone. -/
  before_sound : beforeSound s

/-! ## The host's duties -/

/-- The bytes of a host access to bus memory lie in normal memory outside the register window. -/
def plainMemory (s : State) (r : Span) : Bool :=
  decide (r.hi ≤ busTop) && !r.meets (windowSpan s.inst) && !s.inst.devices.any fun d => r.meets d

/-- A register access lies in the window and is an aligned 32-bit one (R20, R21). -/
def windowAccepts (p : Instance) (addr : Word) (size : Nat) : Bool :=
  match windowOffset p addr with
  | none => false
  | some offset => accessAccepted offset size

/-- A host access that the model admits without stopping: a register access the window accepts (R21), a
memory access in plain memory, and no write to a range the running command uses (R305). -/
def admitted (s : State) (op : HostOp) : Bool :=
  match op with
  | .wr addr size _ => windowAccepts s.inst addr size
  | .rd addr size => windowAccepts s.inst addr size
  | .memWrite addr bytes =>
    plainMemory s (hostSpan addr bytes.length) && !meetsRunning s (hostSpan addr bytes.length)
  | .memRead addr n => plainMemory s (hostSpan addr n)
  | .hardReset => true

/-- An admitted access that is not one of the host program errors the model goes on after either: a
memory read of a running command's destination (R306), or a locked write while BUSY, which is lost
(R308). -/
def wellBehaved (s : State) (op : HostOp) : Bool :=
  admitted s op &&
    match op with
    | .wr addr _ _ => !isBusy s || addr == regAddr s.inst .ctrl || addr == regAddr s.inst .status
    | .rd _ _ => true
    | .memWrite _ _ => true
    | .memRead addr n =>
      match s.engine with
      | .idle => true
      | .busy c _ => !(hostSpan addr n).meets (destRange c)
    | .hardReset => true

/-- The next k steps answer next states. -/
def safeFor (k : Nat) (s : State) : Bool :=
  match Sys2Proof.core.run k s with
  | .next _ => true
  | .fault _ => false
  | .refused _ => false

end Sys2Proof.Machine
end

