-- ==== Sys2Proof/Certificates/Slice0/Obligations.lean ====
section
/-! DEFINITION. The statements for the provers. Each docstring names the rule of the spec it formalises.
`s.setStatus ⟨done, err, dropped, errcode⟩` writes the stored bits of STATUS whole (10_state.md R25). -/

open Sys2Proof Sys2Proof.Machine

/-! ## Encoding -/

/-- Encoding a command and decoding the word gives the command back, with every WORKERS and AFF value
the field admits (30_encoding.md R90, R93, R98). -/
def Obligations.DecodeOfEncodeIsTheCommand : Prop :=
  ∀ i : Instr, i.WellFormed → decode (encode i) = .ok i

/-- A word that decodes is the encoding of what it decodes to: no bit is ignored (R92, R98). -/
def Obligations.EncodeOfDecodeIsTheWord : Prop :=
  ∀ (w : Word) (i : Instr), decode w = .ok i → i.WellFormed ∧ encode i = w

/-- Exactly 517 of the 2^32 words decode to a command (R98's last paragraph). -/
def Obligations.ExactlyFiveHundredSeventeenWordsDecode : Prop :=
  ∃ l : List Word, l.Nodup ∧ l.length = 517 ∧ ∀ w, w ∈ l ↔ ∃ i, decode w = .ok i

/-- Words written out bit by bit from R90 and R91 decode to the commands they stand for, one for each
command and two for DISPATCH. -/
def Obligations.WrittenWordsDecode : Prop :=
  decode 0b00000000000000000000000000000000#32 = .ok .nop ∧
  decode 0b00000000000000000000000000000001#32 = .ok .init ∧
  decode 0b00000000000000000000000000000010#32 = .ok .compress ∧
  decode 0b00000000000000000000000000000011#32 = .ok .funnel ∧
  decode 0b00000000000000000000000000000100#32 = .ok .digest ∧
  decode 0b00000000000000000000001100000101#32 = .ok (.dispatch false 3) ∧
  decode 0b00000000000000001111111100010101#32 = .ok (.dispatch true 255)

/-- R274 with R92: a word is Invalid exactly when OP is 0x6..0xF, or OP is 0x0..0x4 and a bit of 31:4
is 1, or OP is 0x5 and a bit of 7:5 or 31:16 is 1; written to CMD while IDLE it completes with
InvalidCommand (code 4) and changes nothing else, whatever CONFIG, LEN and the lanes hold. Every other
word decodes. -/
def Obligations.InvalidWordsCompleteWithInvalidCommand : Prop :=
  ∀ (w : Word) (s : State), s.engine = .idle →
    if 6 ≤ w.toNat % 16 ∨ (w.toNat % 16 ≤ 4 ∧ w.toNat / 16 ≠ 0) ∨
        (w.toNat % 16 = 5 ∧ (w.toNat / 32 % 8 ≠ 0 ∨ w.toNat / 65536 ≠ 0)) then
      commandWrite w s = .next (s.setStatus ⟨true, true, s.status.dropped, 4#4⟩)
    else ∃ i, decode w = .ok i ∧ commandWrite w s = exec i s

/-! ## The step -/

/-- A step runs the decoded command: where the host's next access writes a command word to CMD, the
step is exec of the decoded command, in the state with that access taken and answered; likewise on the
host's turn while the engine is busy. The list of accesses is assumption log 11, the turns log 3. -/
def Obligations.StepRunsTheDecodedCommand : Prop :=
  ∀ (s : State) (w : Word) (i : Instr) (rest : List HostOp) (turns : List Turn),
    s.inst.legal → decode w = .ok i → s.inputs = .wr (regAddr s.inst .cmd) 4 w :: rest →
    (s.engine = .idle → step s = exec i ((s.setInputs rest).setResponse .written)) ∧
    (s.engine ≠ .idle → s.sched = .host :: turns →
      step s = exec i (((s.setSched turns).setInputs rest).setResponse .written))

/-- A CMD write while BUSY has exactly one effect, DROPPED <- 1, whatever the word (R241), and so has
every command. -/
def Obligations.CommandWhileBusyIsDropped : Prop :=
  ∀ (s : State) (w : Word) (i : Instr), s.engine ≠ .idle →
    commandWrite w s = .next (s.setStatus { s.status with dropped := true }) ∧
    exec i s = .next (s.setStatus { s.status with dropped := true })

/-! ## NOP and INIT -/

/-- NOP (R246): its encoding is the word 0x00000000 exactly, any other word with OP = 0 raises
InvalidCommand; while IDLE it completes with success, changes STATUS alone and raises irq iff
IRQ_EN = 1; while BUSY it is dropped. -/
def Obligations.NopCompletes : Prop :=
  ∀ s : State,
    (∀ w, decode w = .ok .nop ↔ w = 0x00000000#32) ∧
    (∀ w, w.toNat % 16 = 0 → w ≠ 0x00000000#32 → s.engine = .idle →
      commandWrite w s = .next (s.setStatus ⟨true, true, s.status.dropped, 4#4⟩)) ∧
    (s.engine = .idle →
      exec .nop s = .next (s.setStatus ⟨true, false, s.status.dropped, 0#4⟩) ∧
      irq (s.setStatus ⟨true, false, s.status.dropped, 0#4⟩) = s.irqEn) ∧
    (s.engine ≠ .idle → exec .nop s = .next (s.setStatus { s.status with dropped := true }))

/-- INIT (R136, with R42's words): its encoding is the word 0x00000001 exactly, any other word with OP = 1
raises InvalidCommand; while IDLE it loads STATE0..7 with IV, completes with success and changes nothing
else, so that after a reset STATE is unchanged; while BUSY it is dropped. -/
def Obligations.InitLoadsTheIv : Prop :=
  ∀ s : State,
    (∀ w, decode w = .ok .init ↔ w = 0x00000001#32) ∧
    (∀ w, w.toNat % 16 = 1 → w ≠ 0x00000001#32 → s.engine = .idle →
      commandWrite w s = .next (s.setStatus ⟨true, true, s.status.dropped, 4#4⟩)) ∧
    exec .init (resetEngine s) = .next ((resetEngine s).setStatus ⟨true, false, false, 0#4⟩) ∧
    (s.engine = .idle →
      exec .init s = .next ((s.setHash ⟨0x7380166F#32, 0x4914B2B9#32, 0x172442D7#32, 0xDA8A0600#32,
        0xA96F30BC#32, 0x163138AA#32, 0xE38DEE4D#32, 0xB0FB0E4E#32⟩).setStatus
          ⟨true, false, s.status.dropped, 0#4⟩)) ∧
    (s.engine ≠ .idle → exec .init s = .next (s.setStatus { s.status with dropped := true }))

/-! ## COMPRESS -/

/-- COMPRESS while IDLE, its pre-checks passed, no bus error, no host access before its completion
(`sched = []`, assumption log 3):
STATE0..7 become CFstar(STATE, the LEN bytes at SRC), DONE is set, and nothing else changes, memory
included (R137, R134, R244). -/
def Obligations.CompressCompletes : Prop :=
  ∀ s : State, s.engine = .idle → s.sched = [] → passesChecks s.inst (capture .compress s) →
    busFails s.inst (capture .compress s) = false →
    exec .compress s =
      .next ((s.setHash (cfStar s.hash (Memory.readBytes s.memory s.src.toNat s.len.toNat))).setStatus
        ⟨true, false, s.status.dropped, 0#4⟩)

/-- COMPRESS with LEN = 0 and SRC in the bus space completes at acceptance, STATE0..7 unchanged
(R137). -/
def Obligations.CompressOfNothingCompletes : Prop :=
  ∀ s : State, s.engine = .idle → s.len = 0#32 →
    exec .compress s = .next (s.setStatus ⟨true, false, s.status.dropped, 0#4⟩)

/-- COMPRESS while IDLE fails at acceptance with InvalidInputLength (1) when LEN is no multiple of 64,
otherwise with RangeError (6) when SRC + LEN > 2^32; STATE0..7 and everything else but STATUS keep
their values (R137, R271, R276, R279). -/
def Obligations.CompressErrorsAtAcceptance : Prop :=
  ∀ s : State, s.engine = .idle →
    (s.len.toNat % 64 ≠ 0 → exec .compress s = .next (s.setStatus ⟨true, true, s.status.dropped, 1#4⟩)) ∧
    (s.len.toNat % 64 = 0 → 2 ^ 32 < s.src.toNat + s.len.toNat →
      exec .compress s = .next (s.setStatus ⟨true, true, s.status.dropped, 6#4⟩))

/-- rotl(x, n) is the 32-bit left rotation by n mod 32 places, rotl(x, 0) = rotl(x, 32) = x and
rotl(x, 33) = rotl(x, 1), with R120's example (R120, R10). -/
def Obligations.RotlIsTheLeftRotation : Prop :=
  ∀ (x : Word) (n i : Nat), i < 32 →
    (rotl x n).getLsbD ((i + n) % 32) = x.getLsbD i ∧ rotl x 0 = x ∧ rotl x 32 = x ∧
    rotl x 33 = rotl x 1 ∧ rotl 0x12345678#32 12 = 0x45678123#32

/-- The schedule has 68 words: the first 16 are the block's big-endian words (R125), and each later one
is the expansion of R126, P1 written out (R122); the derived schedule has 64 words W[j] ⊕ W[j+4]
(R127). -/
def Obligations.ScheduleFollowsTheExpansion : Prop :=
  ∀ (b : List Byte),
    let w := fun j => (schedule b).getD j 0
    let perm1 := fun x : Word => x ^^^ rotl x 15 ^^^ rotl x 23
    (schedule b).length = 68 ∧ (derivedSchedule (schedule b)).length = 64 ∧
    (∀ i, i < 16 → w i =
      be32 (b.getD (4 * i) 0) (b.getD (4 * i + 1) 0) (b.getD (4 * i + 2) 0) (b.getD (4 * i + 3) 0)) ∧
    (∀ j, 16 ≤ j → j < 68 → w j =
      perm1 (w (j - 16) ^^^ w (j - 9) ^^^ rotl (w (j - 3)) 15) ^^^ rotl (w (j - 13)) 7 ^^^ w (j - 6)) ∧
    ∀ j, j < 64 → (derivedSchedule (schedule b)).getD j 0 = w j ^^^ w (j + 4)

/-- CF(V, B) is V XORed with the working registers after 64 rounds that begin from V (R131, R132), round j
being R129 and R130 with the block's schedules, P0 (R121), FF_j and GG_j split at j = 16 (R123, R124),
and the round constant rotl(T[j], j mod 32) (R128) of the table R43, all written out. CFstar (R134): of
the empty string it is the identity, of one 64-byte block it is CF, and of x ‖ y, x a string of whole
blocks, it is CFstar of y from CFstar of x: the blocks are absorbed in order, the state threaded, and
nothing is padded. -/
def Obligations.CfStarThreadsTheState : Prop :=
  let perm0 := fun x : Word => x ^^^ rotl x 9 ^^^ rotl x 17
  let ff := fun (j : Nat) (x y z : Word) =>
    if j < 16 then x ^^^ y ^^^ z else (x &&& y) ||| (x &&& z) ||| (y &&& z)
  let gg := fun (j : Nat) (x y z : Word) =>
    if j < 16 then x ^^^ y ^^^ z else (x &&& y) ||| (~~~x &&& z)
  let constant := fun j : Nat =>
    rotl (if j < 16 then 0x79CC4519#32 else 0x7A879D8A#32) (j % 32)
  let round := fun (w : Nat → Word) (r : HashState) (j : Nat) =>
    let ss1 := rotl (rotl r.a 12 + r.e + constant j) 7
    let ss2 := ss1 ^^^ rotl r.a 12
    let tt1 := ff j r.a r.b r.c + r.d + ss2 + (w j ^^^ w (j + 4))
    let tt2 := gg j r.e r.f r.g + r.h + ss1 + w j
    (⟨tt1, r.a, rotl r.b 9, r.c, perm0 tt2, r.e, rotl r.f 19, r.g⟩ : HashState)
  ∀ (v : HashState) (x y b : List Byte), x.length % 64 = 0 → b.length = 64 →
    let r := (List.range 64).foldl (round fun j => (schedule b).getD j 0) v
    cf v b = ⟨r.a ^^^ v.a, r.b ^^^ v.b, r.c ^^^ v.c, r.d ^^^ v.d,
      r.e ^^^ v.e, r.f ^^^ v.f, r.g ^^^ v.g, r.h ^^^ v.h⟩ ∧
    cfStar v [] = v ∧ cfStar v b = cf v b ∧ cfStar v (x ++ y) = cfStar (cfStar v x) y

/-- SER(V) is 32 bytes; byte 4k of it is V_k[31:24] and byte 4k+3 is V_k[7:0] (R135), with the two
between in order. -/
def Obligations.SerializationIsBigEndian : Prop :=
  ∀ (v : HashState) (k : Fin 8),
    (ser v).length = 32 ∧
    (ser v).getD (4 * k.val) 0 = (hashGet v k).extractLsb' 24 8 ∧
    (ser v).getD (4 * k.val + 1) 0 = (hashGet v k).extractLsb' 16 8 ∧
    (ser v).getD (4 * k.val + 2) 0 = (hashGet v k).extractLsb' 8 8 ∧
    (ser v).getD (4 * k.val + 3) 0 = (hashGet v k).extractLsb' 0 8

/-! ## The funnel and FUNNEL -/

/-- XOR-fold byte by byte: with L = 4096 div r, out[i] is the XOR of X[gL + i] over g = 0..r-1 (R162).
Funnel(M, r, 0) is the fold of M and Funnel(M, r, 1) the fold of BlockMix(M), L bytes long either way,
and L is a multiple of 64 for every supported ratio (R160). -/
def Obligations.XorFoldIsTheXorOfTheGroups : Prop :=
  ∀ (x : List Byte) (r i : Nat), x.length = 4096 → 4096 % r = 0 → i < 4096 / r →
    (xorFold x r).length = 4096 / r ∧
    (xorFold x r).getD i 0 =
      (List.range r).foldl (fun b g => b ^^^ x.getD (g * (4096 / r) + i) 0) 0#8 ∧
    (∀ key : Vector Byte 16,
      funnel key x r 0#2 = xorFold x r ∧ funnel key x r 1#2 = xorFold (blockMix key x) r ∧
      (funnel key x r 0#2).length = 4096 / r ∧ (funnel key x r 1#2).length = 4096 / r) ∧
    ∀ p : Instance, ratioSupported p r = true → 4096 / r % 64 = 0

/-- R169's laws. Linearity: Funnel(M ⊕ N, r, 0) = Funnel(M, r, 0) ⊕ Funnel(N, r, 0). Periodic inputs
collapse (90_conflicts.md C1): for either strategy and any even supported ratio, a message whose bytes
repeat with a period dividing L has a funnel output of zero bytes. -/
def Obligations.FunnelIsLinearAndPeriodicInputsCollapse : Prop :=
  ∀ (p : Instance) (m : List Byte) (r : Nat), m.length = 4096 → ratioSupported p r = true →
    (∀ n : List Byte, n.length = 4096 →
      funnel p.mixKey (xorBytes m n) r 0#2 =
        xorBytes (funnel p.mixKey m r 0#2) (funnel p.mixKey n r 0#2)) ∧
    ∀ mix : BitVec 2, mix.toNat ≤ 1 → r % 2 = 0 →
      (∀ i, i + 4096 / r < 4096 → m.getD (i + 4096 / r) 0 = m.getD i 0) →
      funnel p.mixKey m r mix = List.replicate (4096 / r) 0#8

/-- MixRound on a 16-byte sub-block (R163): with s[r][c] the byte 4c + r (R164) of SBOX applied to
S ⊕ MIX_KEY, row r rotated left by r positions (R166), each output column is R167's combination of the
rotated state's column. -/
def Obligations.MixRoundIsOneAesRound : Prop :=
  ∀ (key : Vector Byte 16) (x : List Byte) (c : Nat), x.length = 16 → c < 4 →
    let s := fun row col : Nat => sbox (x.getD (4 * col + row) 0 ^^^ key.toList.getD (4 * col + row) 0)
    let a := fun row : Nat => s row ((c + row) % 4)
    let two := fun b : Byte => (b <<< 1) ^^^ (if b.getLsbD 7 then 0x1B#8 else 0x00#8)
    let three := fun b : Byte => two b ^^^ b
    let out := mixRound key x
    out.length = 16 ∧
    out.getD (4 * c) 0 = two (a 0) ^^^ three (a 1) ^^^ a 2 ^^^ a 3 ∧
    out.getD (4 * c + 1) 0 = a 0 ^^^ two (a 1) ^^^ three (a 2) ^^^ a 3 ∧
    out.getD (4 * c + 2) 0 = a 0 ^^^ a 1 ^^^ two (a 2) ^^^ three (a 3) ∧
    out.getD (4 * c + 3) 0 = three (a 0) ^^^ a 1 ^^^ a 2 ^^^ two (a 3)

/-- SubBytes replaces each byte by SBOX of it, and SBOX[b] is R165's definition: the affine transform of
the inverse of b in GF(2^8) modulo 0x11B, with 0 for the inverse of 0. -/
def Obligations.SboxIsTheAffineOfTheInverse : Prop :=
  ∀ (b : Byte) (x : List Byte),
    (∃ y : Byte, (b = 0#8 → y = 0#8) ∧ (b ≠ 0#8 → gfMul b y = 1#8) ∧
      sbox b = y ^^^ y.rotateLeft 1 ^^^ y.rotateLeft 2 ^^^ y.rotateLeft 3 ^^^ y.rotateLeft 4 ^^^ 0x63#8) ∧
    (subBytes x).length = x.length ∧
    ∀ i, i < x.length → (subBytes x).getD i 0 = sbox (x.getD i 0)

/-- BlockMix mixes each 16-byte sub-block on its own with the same key (R168). -/
def Obligations.BlockMixMixesEachSubBlock : Prop :=
  ∀ (key : Vector Byte 16) (m : List Byte) (q : Nat), m.length = 4096 → q < 256 →
    (blockMix key m).length = 4096 ∧
    ((blockMix key m).drop (16 * q)).take 16 = mixRound key ((m.drop (16 * q)).take 16)

/-- FUNNEL while IDLE, its pre-checks passed, no bus error, no host access before its completion
(`sched = []`, assumption log 3): the
4096 / RATIO bytes at DST become the funnel of the 4096 bytes at SRC, DONE is set, and nothing else
changes: no other byte of memory, no register but STATUS (R170, R160, R244). -/
def Obligations.FunnelCompletes : Prop :=
  ∀ s : State, s.engine = .idle → s.sched = [] → passesChecks s.inst (capture .funnel s) →
    busFails s.inst (capture .funnel s) = false →
    exec .funnel s =
      .next ((s.setMemory (Memory.writeBytes s.memory s.dst.toNat
        (funnel s.inst.mixKey (Memory.readBytes s.memory s.src.toNat 4096)
          (configRatio s.config).toNat (configMix s.config)))).setStatus
            ⟨true, false, s.status.dropped, 0#4⟩)

/-- FUNNEL while IDLE fails at acceptance, in this order, with InvalidConfiguration (2) for an
unsupported RATIO or MIX > 1, InvalidInputLength (1) for LEN ≠ 4096, RangeError (6) when a range
passes 2^32 or the two overlap; nothing but STATUS changes, and WIDTH plays no part (R170, R279). -/
def Obligations.FunnelErrorsAtAcceptance : Prop :=
  ∀ s : State, s.engine = .idle →
    let r := (configRatio s.config).toNat
    let legal := ratioSupported s.inst r = true ∧ (configMix s.config).toNat ≤ 1
    let src := s.src.toNat
    let dst := s.dst.toNat
    (¬legal → exec .funnel s = .next (s.setStatus ⟨true, true, s.status.dropped, 2#4⟩)) ∧
    (legal → s.len.toNat ≠ 4096 →
      exec .funnel s = .next (s.setStatus ⟨true, true, s.status.dropped, 1#4⟩)) ∧
    (legal → s.len.toNat = 4096 →
      (2 ^ 32 < src + 4096 ∨ 2 ^ 32 < dst + 4096 / r ∨
        (src < dst + 4096 / r ∧ dst < src + 4096)) →
      exec .funnel s = .next (s.setStatus ⟨true, true, s.status.dropped, 6#4⟩))

/-! ## DIGEST -/

/-- DIGEST while IDLE, its pre-checks passed, no bus error, no host access before its completion
(`sched = []`, assumption log 3): the
32 bytes (WIDTH 0) or 16 bytes (WIDTH 1) at DST become the first that many bytes of
SER(CFstar(IV, Funnel(M))) for the message M at SRC, DONE is set, and nothing else changes, STATE0..7
included (R194, R190, R191, R193, R244). -/
def Obligations.DigestCompletes : Prop :=
  ∀ s : State, s.engine = .idle → s.sched = [] → passesChecks s.inst (capture .digest s) →
    busFails s.inst (capture .digest s) = false →
    exec .digest s =
      .next ((s.setMemory (Memory.writeBytes s.memory s.dst.toNat
        ((ser (cfStar iv (funnel s.inst.mixKey (Memory.readBytes s.memory s.src.toNat 4096)
          (configRatio s.config).toNat (configMix s.config)))).take
            (if configWidth s.config = 0#2 then 32 else 16)))).setStatus
              ⟨true, false, s.status.dropped, 0#4⟩)

/-- DIGEST while IDLE fails at acceptance, in this order, with InvalidConfiguration (2) for an
unsupported RATIO, MIX > 1 or WIDTH > 1, InvalidInputLength (1) for LEN ≠ 4096, RangeError (6) when a
range passes 2^32 or the two overlap; nothing but STATUS changes (R194, R279). -/
def Obligations.DigestErrorsAtAcceptance : Prop :=
  ∀ s : State, s.engine = .idle →
    let legal := ratioSupported s.inst (configRatio s.config).toNat = true ∧
      (configMix s.config).toNat ≤ 1 ∧ (configWidth s.config).toNat ≤ 1
    let src := s.src.toNat
    let dst := s.dst.toNat
    let wb := if configWidth s.config = 0#2 then 32 else 16
    (¬legal → exec .digest s = .next (s.setStatus ⟨true, true, s.status.dropped, 2#4⟩)) ∧
    (legal → s.len.toNat ≠ 4096 →
      exec .digest s = .next (s.setStatus ⟨true, true, s.status.dropped, 1#4⟩)) ∧
    (legal → s.len.toNat = 4096 →
      (2 ^ 32 < src + 4096 ∨ 2 ^ 32 < dst + wb ∨ (src < dst + wb ∧ dst < src + 4096)) →
      exec .digest s = .next (s.setStatus ⟨true, true, s.status.dropped, 6#4⟩))

/-- D128 is the first 16 bytes of D256: state words V0 to V3 in big-endian order (R191). -/
def Obligations.D128IsTheFirstFourWords : Prop :=
  ∀ (key : Vector Byte 16) (m : List Byte) (r : Nat) (mix : BitVec 2),
    let v := cfStar iv (funnel key m r mix)
    d128 key m r mix = (d256 key m r mix).take 16 ∧
    d128 key m r mix = beBytes v.a ++ beBytes v.b ++ beBytes v.c ++ beBytes v.d

/-- DIGEST and DISPATCH neither read nor write STATE0..7 (R193, R34): from two states that differ in
STATE0..7 alone they leave two states that differ in STATE0..7 alone, each with what it had; run to
completion in one step (assumption log 3). -/
def Obligations.DigestAndDispatchIgnoreState : Prop :=
  ∀ (s t : State) (v : HashState) (i : Instr), s.sched = [] →
    (i = .digest ∨ ∃ aff workers, i = .dispatch aff workers) → exec i s = .next t →
    t.hash = s.hash ∧ exec i (s.setHash v) = .next (t.setHash v)

/-! ## DISPATCH -/

/-- Effective worker count: W = min(max(workers, 1), NUM_LANES), and 1 ≤ W ≤ NUM_LANES (R211): 0 acts as
1, a count above NUM_LANES is clamped. -/
def Obligations.EffectiveWorkerCount : Prop :=
  ∀ (p : Instance) (workers : Nat), p.legal →
    1 ≤ effectiveWorkers p workers ∧ effectiveWorkers p workers ≤ p.numLanes ∧
    effectiveWorkers p workers =
      if workers = 0 then 1 else if p.numLanes < workers then p.numLanes else workers

/-- Partition(N, W): W ranges, contiguous, disjoint, in increasing k, covering 0..N-1 exactly once; every
range but the last has N div W messages and the last has N div W + N mod W (R212). -/
def Obligations.PartitionCoversTheBatchOnce : Prop :=
  ∀ n w : Nat, 1 ≤ w →
    (partition n w).length = w ∧
    (∀ k, k < w → (partition n w)[k]? = some (partitionAt n w k) ∧
      (partitionAt n w k).1 = k * (n / w) ∧
      (partitionAt n w k).2 - (partitionAt n w k).1 = (if k < w - 1 then n / w else n / w + n % w) ∧
      (partitionAt n w k).2 = (if k < w - 1 then (partitionAt n w (k + 1)).1 else n)) ∧
    ∀ i, i < n → ∃ k, (k < w ∧ (partitionAt n w k).1 ≤ i ∧ i < (partitionAt n w k).2) ∧
      ∀ k', k' < w → (partitionAt n w k').1 ≤ i → i < (partitionAt n w k').2 → k' = k

/-- DISPATCH while IDLE, its pre-checks passed, no bus error, no host access before its completion
(`sched = []`, assumption log 3):
slot i of wb bytes at DST + wb·i holds the first wb bytes of the digest of the 4096-byte message at
SRC + 4096·i, for every i < COUNT; no other byte of memory changes; DONE is set once, every lane is
idle again and no other register changes (R220, R214, R215, R216, R221). -/
def Obligations.DispatchCompletes : Prop :=
  ∀ (s : State) (aff : Bool) (workers : Nat), s.engine = .idle → s.sched = [] → Inv s →
    passesChecks s.inst (capture (.dispatch aff workers) s) →
    busFails s.inst (capture (.dispatch aff workers) s) = false →
    let wb := if configWidth s.config = 0#2 then 32 else 16
    ∃ m : Memory,
      exec (.dispatch aff workers) s =
        .next ((s.setMemory m).setStatus ⟨true, false, s.status.dropped, 0#4⟩) ∧
      Memory.wf m ∧
      (∀ i, i < s.count.toNat →
        Memory.readBytes m (s.dst.toNat + wb * i) wb =
          (ser (cfStar iv (funnel s.inst.mixKey
            (Memory.readBytes s.memory (s.src.toNat + 4096 * i) 4096)
            (configRatio s.config).toNat (configMix s.config)))).take wb) ∧
      ∀ a, a < s.dst.toNat ∨ s.dst.toNat + wb * s.count.toNat ≤ a →
        Memory.read m a = Memory.read s.memory a

/-- DISPATCH with COUNT = 0 passes every pre-check, lanes included, and completes at acceptance with
nothing read or written (R220). -/
def Obligations.DispatchOfNothingCompletes : Prop :=
  ∀ (s : State) (aff : Bool) (workers : Nat), s.engine = .idle →
    ratioSupported s.inst (configRatio s.config).toNat = true → (configMix s.config).toNat ≤ 1 →
    (configWidth s.config).toNat ≤ 1 → s.len.toNat = 4096 → s.count = 0#32 →
    (∀ k, k < effectiveWorkers s.inst workers → s.inst.laneAvail.getLsbD k = true) →
    exec (.dispatch aff workers) s = .next (s.setStatus ⟨true, false, s.status.dropped, 0#4⟩)

/-- DISPATCH while IDLE fails at acceptance, in this order, with InvalidConfiguration (2),
InvalidInputLength (1) for LEN ≠ 4096, RangeError (6) when a range passes 2^32 (exactly, no wrap of
COUNT·4096) or N > 0 and the two overlap, WorkerCreationFailure (3) when a lane k < W is unavailable,
whatever COUNT is; nothing but STATUS changes (R220, R213, R279). -/
def Obligations.DispatchErrorsAtAcceptance : Prop :=
  ∀ (s : State) (aff : Bool) (workers : Nat), s.engine = .idle →
    let legal := ratioSupported s.inst (configRatio s.config).toNat = true ∧
      (configMix s.config).toNat ≤ 1 ∧ (configWidth s.config).toNat ≤ 1
    let src := s.src.toNat
    let dst := s.dst.toNat
    let n := s.count.toNat
    let wb := if configWidth s.config = 0#2 then 32 else 16
    let badRange := 2 ^ 32 < src + 4096 * n ∨ 2 ^ 32 < dst + wb * n ∨
      (0 < n ∧ src < dst + wb * n ∧ dst < src + 4096 * n)
    (¬legal →
      exec (.dispatch aff workers) s = .next (s.setStatus ⟨true, true, s.status.dropped, 2#4⟩)) ∧
    (legal → s.len.toNat ≠ 4096 →
      exec (.dispatch aff workers) s = .next (s.setStatus ⟨true, true, s.status.dropped, 1#4⟩)) ∧
    (legal → s.len.toNat = 4096 → badRange →
      exec (.dispatch aff workers) s = .next (s.setStatus ⟨true, true, s.status.dropped, 6#4⟩)) ∧
    (legal → s.len.toNat = 4096 → ¬badRange →
      (∃ k, k < min (max workers 1) s.inst.numLanes ∧ s.inst.laneAvail.getLsbD k = false) →
      exec (.dispatch aff workers) s = .next (s.setStatus ⟨true, true, s.status.dropped, 3#4⟩))

/-- The result of a DISPATCH is independent of WORKERS and AFF (R220, R217, R221): with the lanes of
both worker counts available, two DISPATCHes that differ in these fields alone leave the same state,
a bus error included; run to completion in one step (assumption log 3). That the unspecified bytes after
a bus error are the same too rests on the form of the free values (assumption log 8). -/
def Obligations.DispatchResultIndependentOfWorkersAndAff : Prop :=
  ∀ (s : State) (aff aff' : Bool) (workers workers' : Nat), Inv s → s.engine = .idle →
    s.sched = [] → lanesAvailable s.inst workers = true → lanesAvailable s.inst workers' = true →
    exec (.dispatch aff workers) s = exec (.dispatch aff' workers') s

/-! ## Acceptance, BUSY, completion -/

/-- A command with memory work that passes every pre-check, turns waiting in the schedule (assumption
log 3): acceptance
clears DONE, ERR and ERRCODE, captures the context and makes the engine BUSY; STATE0..7, the other
registers and memory are unchanged (R240, R242, R37, R38). The context holds the command, the CONFIG
fields, SRC, DST, LEN, COUNT and STATE0..7 as they are at acceptance, and the model's own record of the
memory before the command (assumption log 8). -/
def Obligations.AcceptanceMakesTheEngineBusy : Prop :=
  ∀ (s : State) (i : Instr), s.engine = .idle → s.sched ≠ [] →
    passesChecks s.inst (capture i s) →
    capture i s = ⟨i, configRatio s.config, configMix s.config, configWidth s.config, s.src, s.dst,
      s.len, s.count, s.hash, s.memory⟩ ∧
    ∃ job lanes,
      exec i s = .next (((s.setStatus ⟨false, false, s.status.dropped, 0#4⟩).setEngine
        (.busy (capture i s) job)).setLanes lanes) ∧
      jobSound s.inst (capture i s) lanes job ∧
      ((∀ aff workers, i ≠ .dispatch aff workers) → lanes = s.lanes)

/-- A command whose ranges touch a device range is refused by name, once every pre-check has passed
(R68, U6); the list of devices is assumption log 6. -/
def Obligations.DeviceRangesAreRefused : Prop :=
  ∀ (s : State) (i : Instr), s.engine = .idle →
    passesChecks { s.inst with devices := [] } (capture i s) →
    rangesNormal s.inst (capture i s) = false →
    exec i s = .refused .rangeNotNormalMemory

/-- Completion with BusError (R275, R245): a command that passed every pre-check and has a byte with
¬bus_ok in a range ends with code 5, STATE0..7 keep their values, no byte outside the destination range
is written, every byte inside it holds a free value (assumption log 8), and no other register changes; run to
completion in one step (assumption log 3). -/
def Obligations.BusErrorCompletion : Prop :=
  ∀ (s : State) (i : Instr), Inv s → s.engine = .idle → s.sched = [] →
    passesChecks s.inst (capture i s) → busFails s.inst (capture i s) = true →
    ∃ m : Memory,
      exec i s = .next (((s.setMemory m).setFresh (s.fresh + destLength (capture i s))).setStatus
        ⟨true, true, s.status.dropped, 5#4⟩) ∧
      (∀ a, (destRange (capture i s)).has a = false → Memory.read m a = Memory.read s.memory a) ∧
      ∀ k, k < destLength (capture i s) →
        Memory.read m (s.dst.toNat + k) = Config.freeByte (s.fresh + k)

/-- Progress (R252): from every sound BUSY state, finitely many moves of the engine, of whatever lanes,
take the command to its completion with success or BusError, the engine idle and DONE = 1, with no
host access; and so does one step with no turn waiting (assumption log 3). -/
def Obligations.EveryBusyCommandCompletes : Prop :=
  ∀ s : State, Inv s → s.engine ≠ .idle →
    (∃ n, ∀ turns : List Nat, n ≤ turns.length →
      let t := turns.foldl (fun x k => engineMove k x) s
      t.engine = .idle ∧ t.status.done = true ∧ t.inputs = s.inputs ∧
        (t.status.err = false ∨ t.status.errcode = 5#4)) ∧
    (s.sched = [] → ∃ t, step s = .next t ∧ t.engine = .idle ∧ t.status.done = true ∧
      t.inputs = s.inputs)

/-- The order in which the engine and its lanes move is unobservable (R61, R73, R214, R311; U7, U18):
from any sound BUSY state, any moves first and then the run to completion end in the state the run to
completion alone ends in, with success or with BusError. A move's size is assumption log 3; that the
unspecified bytes after a BusError are the same in every order rests on the form of the free values
(assumption log 8). -/
def Obligations.OrderOfMovesIsUnobservable : Prop :=
  ∀ (s : State) (turns : List Nat), Inv s →
    finishCommand (turns.foldl (fun x k => engineMove k x) s) = finishCommand s

/-- From every sound BUSY state, no bus error met, the run to completion ends with the result of the
command's rule, a pure function of its context and of memory (R77 item 2, R243, R244): COMPRESS leaves
CFstar of the captured state and the LEN bytes at SRC in STATE0..7 (R137) and memory as it was; the other
commands leave STATE0..7 as they were and every destination byte at the value their rule gives, FUNNEL
byte j of the funnel at DST + j (R170), DIGEST byte j of the digest at DST + j (R194), DISPATCH byte j
of the digest of message i at DST + wb·i + j (R215); DONE is set, ERR and BUSY are 0. The run to
completion is assumption log 3. -/
def Obligations.BusyCommandEndsInItsResult : Prop :=
  ∀ (s : State) (c : Ctx) (job : Job), Inv s → s.engine = .busy c job →
    busFails s.inst c = false →
    let t := finishCommand s
    t.engine = .idle ∧ t.status = ⟨true, false, s.status.dropped, 0#4⟩ ∧
    (c.cmd = .compress → t.memory = s.memory ∧
      t.hash = cfStar c.state (Memory.readBytes s.memory c.src.toNat c.len.toNat)) ∧
    (c.cmd ≠ .compress → t.hash = s.hash) ∧
    (c.cmd = .funnel → ∀ j, j < 4096 / c.ratio.toNat →
      Memory.read t.memory (c.dst.toNat + j) =
        (funnel s.inst.mixKey (Memory.readBytes s.memory c.src.toNat 4096) c.ratio.toNat c.mix).getD j 0) ∧
    (c.cmd = .digest → ∀ j, j < digestBytes c →
      Memory.read t.memory (c.dst.toNat + j) =
        (d256 s.inst.mixKey (Memory.readBytes s.memory c.src.toNat 4096) c.ratio.toNat c.mix).getD j 0) ∧
    ((∃ aff workers, c.cmd = .dispatch aff workers) → ∀ i j, i < c.count.toNat → j < digestBytes c →
      Memory.read t.memory (c.dst.toNat + digestBytes c * i + j) =
        (d256 s.inst.mixKey (Memory.readBytes s.memory (c.src.toNat + 4096 * i) 4096) c.ratio.toNat
          c.mix).getD j 0)

/-- A host's register accesses while a command runs cannot change its result (R38, R243, R35): after a
locked write or a STATUS write, the engine's context and work are as they were, and the run to completion
ends in the same memory and STATE0..7 as without it. -/
def Obligations.RegisterWritesCannotChangeARunningCommand : Prop :=
  ∀ (s t : State) (r : Reg) (v : Word), s.engine ≠ .idle → r ≠ .ctrl → regWrite r v s = .next t →
    t.engine = s.engine ∧ (finishCommand t).memory = (finishCommand s).memory ∧
    (finishCommand t).hash = (finishCommand s).hash ∧ (finishCommand t).engine = .idle

/-! ## Frames -/

/-- The frame of the register-only commands NOP, INIT and COMPRESS, completed, failed or dropped: memory
is unchanged at every address, and so is every register but STATUS and, for INIT and COMPRESS,
STATE0..7; DROPPED is cleared by none of them. -/
def Obligations.FrameOfCommandsThatStoreNothing : Prop :=
  ∀ (i : Instr) (s t : State), (i = .nop ∨ i = .init ∨ i = .compress) → exec i s = .next t →
    (∀ a, Memory.read t.memory a = Memory.read s.memory a) ∧
    (i = .nop → t.hash = s.hash) ∧
    t.inst = s.inst ∧ t.irqEn = s.irqEn ∧ t.config = s.config ∧ t.src = s.src ∧ t.dst = s.dst ∧
    t.len = s.len ∧ t.count = s.count ∧ t.inputs = s.inputs ∧ t.sched = s.sched ∧
    t.response = s.response ∧ (s.status.dropped = true → t.status.dropped = true)

/-- The frame of the storing commands FUNNEL, DIGEST and DISPATCH, completed, failed or dropped: every
byte of memory outside the destination range is unchanged, STATE0..7 are, and so is every register but
STATUS; DROPPED is not cleared. The destination range is computed by the model's own function from the
captured operands (R65). -/
def Obligations.FrameOfCommandsThatStore : Prop :=
  ∀ (i : Instr) (s t : State), Inv s →
    (i = .funnel ∨ i = .digest ∨ ∃ aff workers, i = .dispatch aff workers) → exec i s = .next t →
    (∀ a, (destRange (capture i s)).has a = false → Memory.read t.memory a = Memory.read s.memory a) ∧
    t.hash = s.hash ∧ t.inst = s.inst ∧ t.irqEn = s.irqEn ∧ t.config = s.config ∧ t.src = s.src ∧
    t.dst = s.dst ∧ t.len = s.len ∧ t.count = s.count ∧ t.inputs = s.inputs ∧ t.sched = s.sched ∧
    t.response = s.response ∧ (s.status.dropped = true → t.status.dropped = true)

/-- The engine writes only bytes of the running command's destination range and never a source byte
(R65, R74): every single move of it leaves every other byte as it was, and changes no part of the context
(R38). -/
def Obligations.EngineWritesOnlyTheDestination : Prop :=
  ∀ (s : State) (c : Ctx) (job : Job) (turn a : Nat), Inv s → s.engine = .busy c job →
    ((destRange c).has a = false →
      Memory.read (engineMove turn s).memory a = Memory.read s.memory a) ∧
    ((sourceRange c).has a = true →
      Memory.read (engineMove turn s).memory a = Memory.read s.memory a) ∧
    ∀ c' job', (engineMove turn s).engine = .busy c' job' → c' = c

/-- Only a completing COMPRESS among the engine's moves writes STATE0..7, all eight at once and as its
last act (R34, R36): any other move leaves them, and one that changes them leaves the engine idle. -/
def Obligations.OnlyCompletionOfCompressWritesState : Prop :=
  ∀ (s : State) (c : Ctx) (job : Job) (turn : Nat), s.engine = .busy c job →
    ((∀ k v core, job ≠ .compress k v core) → (engineMove turn s).hash = s.hash) ∧
    ((engineMove turn s).hash ≠ s.hash →
      (engineMove turn s).engine = .idle ∧ (engineMove turn s).status.done = true)

/-! ## Registers -/

/-- Every defined register reads as R20 to R34 say, on an aligned 32-bit read, and the read changes
nothing but the answer on the bus. -/
def Obligations.AlignedReadsReturnTheRegister : Prop :=
  ∀ s : State, s.inst.legal →
    let reads := fun (off : Nat) (v : Word) =>
      windowRead (s.inst.hceBase + BitVec.ofNat 32 off) 4 s = .next (s.setResponse (.data v))
    reads 0x00 0x48434531#32 ∧
    reads 0x04 (if s.irqEn then 1#32 else 0#32) ∧
    reads 0x08 (statusWord (isBusy s) s.status) ∧
    reads 0x0C 0#32 ∧
    reads 0x10 s.config ∧ reads 0x14 s.src ∧ reads 0x18 s.dst ∧ reads 0x1C s.len ∧
    reads 0x20 s.count ∧
    reads 0x24 (paramsWord s.inst) ∧ reads 0x28 s.inst.laneAvail ∧
    reads 0x40 s.hash.a ∧ reads 0x44 s.hash.b ∧ reads 0x48 s.hash.c ∧ reads 0x4C s.hash.d ∧
    reads 0x50 s.hash.e ∧ reads 0x54 s.hash.f ∧ reads 0x58 s.hash.g ∧ reads 0x5C s.hash.h

/-- A reserved offset reads 0x00000000 and ignores writes; neither access changes any state or sets
DROPPED (R22). -/
def Obligations.ReservedOffsetsReadZeroIgnoreWrites : Prop :=
  ∀ (s : State) (off : Nat) (v : Word), s.inst.legal → off % 4 = 0 → off < 256 →
    (0x2C ≤ off ∧ off < 0x40 ∨ 0x60 ≤ off) →
    windowRead (s.inst.hceBase + BitVec.ofNat 32 off) 4 s = .next (s.setResponse (.data 0#32)) ∧
    windowWrite (s.inst.hceBase + BitVec.ofNat 32 off) 4 v s = .next (s.setResponse .written)

/-- The window accepts exactly the aligned 32-bit accesses: a read answers the register's value, a write
does what the register's rule says. An access of any other size or alignment inside the window stops the
model with the fault that stands for its bus error response: it has no effect, and a read returns no data
(R21, U1; that the stop is a fault and not a refusal is assumption log 5). -/
def Obligations.WrongSizeOrAlignmentIsABusError : Prop :=
  ∀ (s : State) (addr : Word) (size : Nat) (v : Word), s.inst.legal →
    (windowSpan s.inst).has addr.toNat = true →
    let r := regAt (addr.toNat - s.inst.hceBase.toNat)
    if size = 4 ∧ addr.toNat % 4 = 0 then
      windowWrite addr size v s = regWrite r v (s.setResponse .written) ∧
      windowRead addr size s = .next (s.setResponse (.data (regRead s r)))
    else
      windowWrite addr size v s = .fault .windowBusError ∧
      windowRead addr size s = .fault .windowBusError

/-- STATUS as a word (R25): BUSY in bit 0, DONE 1, ERR 2, DROPPED 3, ERRCODE in bits 7:4, the rest 0;
CTRL holds IRQ_EN in bit 0 and reads 0 elsewhere (R24); PARAMS holds NUM_LANES in bits 7:0 and in bit
16 + i whether 2^i ∈ SUPPORTED_RATIOS, the rest 0 (R32). The fields of CONFIG are RATIO in bits 6:0, MIX in
9:8 and WIDTH in 13:12 (R27, R94 to R96), and SUPPORTED_RATIOS holds 8, 16, 32 and 64 always and 1, 2 and 4
where the instance adds them (R8). -/
def Obligations.StatusCtrlAndParamsFields : Prop :=
  ∀ s : State, s.inst.legal →
    let st := regRead s .status
    let ct := regRead s .ctrl
    let pa := regRead s .params
    st.getLsbD 0 = isBusy s ∧ st.getLsbD 1 = s.status.done ∧ st.getLsbD 2 = s.status.err ∧
    st.getLsbD 3 = s.status.dropped ∧ st.extractLsb' 4 4 = s.status.errcode ∧ st.toNat < 256 ∧
    ct.getLsbD 0 = s.irqEn ∧ ct.toNat < 2 ∧
    (pa.extractLsb' 0 8).toNat = s.inst.numLanes ∧ pa.extractLsb' 8 8 = 0#8 ∧
    pa.extractLsb' 23 9 = 0#9 ∧
    (∀ i, i < 7 → pa.getLsbD (16 + i) = ratioSupported s.inst (2 ^ i)) ∧
    (regRead s .config = s.config ∧
      (configRatio s.config).toNat = s.config.toNat % 128 ∧
      (configMix s.config).toNat = s.config.toNat / 256 % 4 ∧
      (configWidth s.config).toNat = s.config.toNat / 4096 % 4) ∧
    ∀ r, ratioSupported s.inst r = true ↔
      r = 8 ∨ r = 16 ∨ r = 32 ∨ r = 64 ∨ (r = 1 ∧ s.inst.ratio1 = true) ∨
        (r = 2 ∧ s.inst.ratio2 = true) ∨ (r = 4 ∧ s.inst.ratio4 = true)

/-- A STATUS write clears DONE where bit 1 is written 1, ERR and ERRCODE where bit 2 is, DROPPED where
bit 3 is, sets no bit, and changes nothing else, BUSY or not; clearing DONE lowers irq; while BUSY DONE
and ERR are 0, so that only DROPPED can change (R248). -/
def Obligations.StatusWriteClears : Prop :=
  ∀ (s : State) (v : Word),
    regAt 0x08 = .status ∧
    ∃ t : Status, regWrite .status v s = .next (s.setStatus t) ∧
      (v.getLsbD 1 = true → irq (s.setStatus t) = false) ∧
      (Inv s → s.engine ≠ .idle → s.status.done = false ∧ s.status.err = false ∧
        t = { s.status with dropped := t.dropped }) ∧
      t.done = (if v.getLsbD 1 then false else s.status.done) ∧
      t.err = (if v.getLsbD 2 then false else s.status.err) ∧
      t.errcode = (if v.getLsbD 2 then 0#4 else s.status.errcode) ∧
      t.dropped = (if v.getLsbD 3 then false else s.status.dropped)

/-- The write lock (R35): while BUSY a write to CMD, CONFIG, SRC, DST, LEN, COUNT or any STATEk leaves
the register as it was and sets DROPPED; a write to CTRL or STATUS has its effect, BUSY or not; a write
to a read-only register or a reserved offset is ignored and does not set DROPPED; every register can be
read. -/
def Obligations.WriteLockWhileBusy : Prop :=
  ∀ (s : State) (v : Word) (k : Fin 8),
    (s.engine ≠ .idle →
      ∀ r ∈ [Reg.cmd, .config, .src, .dst, .len, .count, .state k],
        regWrite r v s = .next (s.setStatus { s.status with dropped := true })) ∧
    regWrite .ctrl v s =
      .next (if v.getLsbD 1 then resetEngine s else s.setIrqEn (v.getLsbD 0)) ∧
    regWrite .status v s = .next (s.setStatus (statusCleared v s.status)) ∧
    (∀ r ∈ [Reg.id, .params, .laneAvail, .reserved], regWrite r v s = .next s) ∧
    (s.inst.legal → ∀ r,
      windowRead (regAddr s.inst r) 4 s = .next (s.setResponse (.data (regRead s r))))

/-- While IDLE a write is stored and reads back as R27 to R34 say: CONFIG keeps RATIO, MIX and WIDTH as
written, illegal values included, and reads 0 in its reserved bits; SRC, DST, LEN, COUNT and STATEk keep
every value; no other register changes. -/
def Obligations.WritesWhileIdleAreStored : Prop :=
  ∀ (s : State) (v : Word) (k : Fin 8), s.engine = .idle →
    regWrite .config v s = .next (s.setConfig (v &&& 0x0000337F#32)) ∧
    regWrite .src v s = .next (s.setSrc v) ∧ regWrite .dst v s = .next (s.setDst v) ∧
    regWrite .len v s = .next (s.setLen v) ∧ regWrite .count v s = .next (s.setCount v) ∧
    ∃ h : HashState, regWrite (.state k) v s = .next (s.setHash h) ∧ hashGet h k = v ∧
      ∀ k', k' ≠ k → hashGet h k' = hashGet s.hash k'

/-- irq = CTRL.IRQ_EN ∧ STATUS.DONE (R47, R280) and 0 after reset: it follows the two fields, so a write
that sets IRQ_EN while DONE = 1 raises it at once, and one that clears IRQ_EN lowers it. -/
def Obligations.InterruptFollowsDone : Prop :=
  ∀ s : State, irq s = ((regRead s .ctrl).getLsbD 0 && (regRead s .status).getLsbD 1) ∧
    irq (resetEngine s) = false ∧ irq State.reset = false ∧
    ∀ (v : Word) (t : State), v.getLsbD 1 = false → regWrite .ctrl v s = .next t →
      irq t = (v.getLsbD 0 && s.status.done)

/-! ## Reset -/

/-- After a soft reset, and after the reset input, every register and internal state element has the value
of R48, for every instance, and so has the state the machine starts in. -/
def Obligations.ResetValues : Prop :=
  ∀ s t : State,
    (regWrite .ctrl 0x00000002#32 s = .next t ∨ hostAccess .hardReset s = .next t ∨ t = State.reset) →
    regRead t .id = 0x48434531#32 ∧ regRead t .ctrl = 0#32 ∧ regRead t .status = 0#32 ∧
    regRead t .config = 0x00000008#32 ∧ regRead t .src = 0#32 ∧ regRead t .dst = 0#32 ∧
    regRead t .len = 0#32 ∧ regRead t .count = 0#32 ∧
    regRead t .params = paramsWord t.inst ∧ regRead t .laneAvail = t.inst.laneAvail ∧
    t.hash = ⟨0x7380166F#32, 0x4914B2B9#32, 0x172442D7#32, 0xDA8A0600#32,
      0xA96F30BC#32, 0x163138AA#32, 0xE38DEE4D#32, 0xB0FB0E4E#32⟩ ∧
    t.engine = .idle ∧ (∀ l ∈ t.lanes, l.active = false) ∧ t.lanes.length = t.inst.numLanes ∧
    irq t = false

/-- A CTRL write with bit 1 set performs a soft reset whatever bit 0 is, BUSY or not; otherwise IRQ_EN
takes bit 0 and nothing else changes (R247, R24). -/
def Obligations.CtrlWriteResetsOrSetsIrqEn : Prop :=
  ∀ (s : State) (v : Word),
    regAt 0x04 = .ctrl ∧
    (v.getLsbD 1 = true → regWrite .ctrl v s = .next (resetEngine s) ∧
      (resetEngine s).irqEn = false ∧ (resetEngine s).status = ⟨false, false, false, 0#4⟩ ∧
      (resetEngine s).engine = .idle) ∧
    (v.getLsbD 1 = false → regWrite .ctrl v s = .next (s.setIrqEn (v.getLsbD 0)))

/-- A reset while BUSY aborts the command (R303): the engine is idle, DONE stays 0 and irq does not rise,
STATE0..7 take IV, the destination range holds free values and no other byte of memory changes; a reset
while IDLE changes no byte. The form of the free values is assumption log 8. -/
def Obligations.ResetAbortsTheRunningCommand : Prop :=
  ∀ (s : State) (a : Nat), Memory.wf s.memory →
    (resetEngine s).engine = .idle ∧ (resetEngine s).status.done = false ∧
    irq (resetEngine s) = false ∧ (resetEngine s).hash = iv ∧ (resetEngine s).inst = s.inst ∧
    (∀ l ∈ (resetEngine s).lanes, l.active = false) ∧
    (s.engine = .idle → Memory.read (resetEngine s).memory a = Memory.read s.memory a) ∧
    ∀ c job, s.engine = .busy c job →
      ((destRange c).has a = false →
        Memory.read (resetEngine s).memory a = Memory.read s.memory a) ∧
      ((destRange c).has a = true →
        Memory.read (resetEngine s).memory a = Config.freeByte (s.fresh + (a - c.dst.toNat)))

/-! ## The host and bus memory -/

/-- A write by another agent to a byte of the running command's source or destination range is refused
(R305); a write elsewhere in plain memory, or while IDLE, stores the bytes and changes nothing else but
the answer. Which accesses reach plain memory is assumption log 7. -/
def Obligations.HostWritesToBusyRangesAreRefused : Prop :=
  ∀ (s : State) (addr : Word) (bytes : List Byte),
    plainMemory s (hostSpan addr bytes.length) = true →
    if meetsRunning s (hostSpan addr bytes.length) then
      memoryWrite addr bytes s = .refused .hostWroteBusyRange
    else
      memoryWrite addr bytes s =
        .next ((s.setMemory (Memory.writeBytes s.memory addr.toNat bytes)).setResponse .written)

/-- A host read of a byte of the running command's destination returns the value before the command, or
its final value, the value there once the command has completed; which of the two is free, whatever the
engine has written so far (R306, U5; the form of the free choice is assumption log 8). Where a bus error
will end the command the final value is itself free (U2). A read outside the destination range returns
the value in memory. Every destination byte in memory is one of the two as well, no bus error met. -/
def Obligations.EarlyReadIsOldOrFinal : Prop :=
  ∀ (s t : State) (c : Ctx) (job : Job) (addr : Word), Inv s →
    s.engine = .busy c job → memoryRead addr 1 s = .next t →
    let final :=
      if busFails s.inst c then Config.freeByte s.fresh
      else Memory.read (finishCommand s).memory addr.toNat
    t = (s.setResponse (.bytes [
      if (destRange c).has addr.toNat = true then
        if Config.freeChoice s.fresh = true then final else Memory.read c.before addr.toNat
      else Memory.read s.memory addr.toNat])).setFresh (s.fresh + 1) ∧
    (busFails s.inst c = false → (destRange c).has addr.toNat = true →
      Memory.read s.memory addr.toNat = Memory.read c.before addr.toNat ∨
      Memory.read s.memory addr.toNat = final)

/-- No step stops but by the host's doing: where no bus range is a device and the host's next access is
an admitted one (assumption log 7; in the window, an aligned 32-bit one, R21), the step answers a next
state. -/
def Obligations.AdmittedStepsNeverStop : Prop :=
  ∀ s : State, s.inst.devices = [] →
    (∀ op rest, s.inputs = op :: rest →
      admitted s op = true) →
    ∃ t, step s = .next t

/-! ## The invariant -/

/-- The state after reset, of the default instance (assumption log 2), meets the invariant. -/
def Obligations.ResetMeetsTheInvariant : Prop := Inv State.reset

/-- Every step keeps the invariant: the memory stays canonical and within the bus space, CONFIG's
reserved bits stay 0, ERRCODE is 0 while ERR is 0 and 1..6 otherwise, there are NUM_LANES lanes; while
BUSY the context passes every pre-check, the live registers still hold what it captured, the work in
progress is the command's and right so far, the lanes are on their partitions, every destination byte is
old or final, and DONE and ERR are 0.
What a lane that is not started holds is assumption log 4. -/
def Obligations.EveryStepKeepsTheInvariant : Prop :=
  ∀ s t : State, Inv s → step s = .next t → Inv t
end

