-- ==== Sys2Proof/Laws/Memory.lean ====
section
/-! SUPPORT. The laws of the bus memory: a read after a write, the canonical form that every operation keeps,
and equality of canonical memories byte by byte (spec 20_memory.md R61). -/

namespace Sys2Proof.Machine

/-! ## One byte -/

@[simp] theorem Memory.read_nil (a : Nat) : Memory.read [] a = unlistedByte := rfl

/-- Below every listed address a canonical memory lists nothing. -/
theorem Memory.read_of_lt {m : Memory} {a : Nat} (h : ∀ x ∈ m, a < x.1) :
    Memory.read m a = unlistedByte := by
  induction m with
  | nil => rfl
  | cons x m ih =>
    obtain ⟨k, b⟩ := x
    have hk : a < k := h (k, b) (by simp)
    simp [Memory.read, Nat.ne_of_gt hk, ih fun y hy => h y (by simp [hy])]

/-- Every address listed after a write is the written one or was listed before. -/
theorem Memory.mem_write {m : Memory} {a : Nat} {b : Byte} {x : Host.Cell}
    (hx : x ∈ Memory.write m a b) : x ∈ m ∨ (x = (a, b) ∧ b ≠ unlistedByte) := by
  induction m with
  | nil =>
    by_cases hb : b = unlistedByte <;> simp_all [Memory.write]
  | cons y m ih =>
    obtain ⟨k, c⟩ := y
    rw [Memory.write] at hx
    split_ifs at hx with h1 h2 h3 h4
    · exact .inl hx
    · rcases List.mem_cons.1 hx with h | h
      · exact .inr ⟨h, h2⟩
      · exact .inl h
    · exact .inl (List.mem_cons_of_mem _ hx)
    · rcases List.mem_cons.1 hx with h | h
      · exact .inr ⟨h, h4⟩
      · exact .inl (List.mem_cons_of_mem _ h)
    · rcases List.mem_cons.1 hx with h | h
      · exact .inl (h ▸ by simp)
      · rcases ih h with h | h
        · exact .inl (List.mem_cons_of_mem _ h)
        · exact .inr h

theorem Memory.write_wf {m : Memory} (a : Nat) (b : Byte) (h : Memory.wf m) :
    Memory.wf (Memory.write m a b) := by
  induction m with
  | nil =>
    by_cases hb : b = unlistedByte <;> simp [Memory.write, Memory.wf, hb]
  | cons y m ih =>
    obtain ⟨k, c⟩ := y
    obtain ⟨hs, hn⟩ := h
    have hs' := List.pairwise_cons.1 hs
    have hm : Memory.wf m := ⟨hs'.2, fun x hx => hn x (by simp [hx])⟩
    rw [Memory.write]
    split_ifs with h1 h2 h3 h4
    · exact ⟨hs, hn⟩
    · refine ⟨List.pairwise_cons.2 ⟨fun x hx => ?_, hs⟩, fun x hx => ?_⟩
      · rcases List.mem_cons.1 hx with rfl | hx
        · exact h1
        · exact Nat.lt_trans h1 (hs'.1 x hx)
      · rcases List.mem_cons.1 hx with rfl | hx
        · exact h2
        · exact hn x hx
    · exact hm
    · refine ⟨List.pairwise_cons.2 ⟨fun x hx => h3 ▸ hs'.1 x hx, hm.1⟩, fun x hx => ?_⟩
      rcases List.mem_cons.1 hx with rfl | hx
      · exact h4
      · exact hm.2 x hx
    · have hw := ih hm
      refine ⟨List.pairwise_cons.2 ⟨fun x hx => ?_, hw.1⟩, fun x hx => ?_⟩
      · rcases Memory.mem_write hx with hx | ⟨rfl, -⟩
        · exact hs'.1 x hx
        · show k < a
          omega
      · rcases List.mem_cons.1 hx with rfl | hx
        · exact hn (k, c) (by simp)
        · exact hw.2 x hx

theorem Memory.write_inBusSpace {m : Memory} {a : Nat} (b : Byte) (ha : a < busTop)
    (h : Memory.inBusSpace m) : Memory.inBusSpace (Memory.write m a b) := fun x hx => by
  rcases Memory.mem_write hx with hx | ⟨rfl, -⟩
  · exact h x hx
  · exact ha

/-- A read after a write to the same address gives the value written. -/
theorem Memory.read_write_same {m : Memory} (a : Nat) (b : Byte) (h : Memory.wf m) :
    Memory.read (Memory.write m a b) a = b := by
  induction m with
  | nil =>
    by_cases hb : b = unlistedByte <;> simp [Memory.write, Memory.read, hb]
  | cons y m ih =>
    obtain ⟨k, c⟩ := y
    have hs' := List.pairwise_cons.1 h.1
    have hm : Memory.wf m := ⟨hs'.2, fun x hx => h.2 x (by simp [hx])⟩
    rw [Memory.write]
    split_ifs with h1 h2 h3 h4
    · rw [h2]
      refine Memory.read_of_lt fun x hx => ?_
      rcases List.mem_cons.1 hx with rfl | hx
      · exact h1
      · exact Nat.lt_trans h1 (hs'.1 x hx)
    · simp [Memory.read]
    · rw [h4]
      exact Memory.read_of_lt fun x hx => h3 ▸ hs'.1 x hx
    · simp [Memory.read]
    · simp [Memory.read, Ne.symm h3, ih hm]

/-- A write leaves every other address as it was. -/
theorem Memory.read_write_other {m : Memory} {a a' : Nat} (b : Byte) (hne : a' ≠ a)
    (h : Memory.wf m) : Memory.read (Memory.write m a b) a' = Memory.read m a' := by
  induction m with
  | nil =>
    by_cases hb : b = unlistedByte <;> simp [Memory.write, Memory.read, hb, Ne.symm hne]
  | cons y m ih =>
    obtain ⟨k, c⟩ := y
    have hs' := List.pairwise_cons.1 h.1
    have hm : Memory.wf m := ⟨hs'.2, fun x hx => h.2 x (by simp [hx])⟩
    rw [Memory.write]
    split_ifs with h1 h2 h3 h4
    · rfl
    · simp [Memory.read, Ne.symm hne]
    · subst h3
      rw [Memory.read, if_neg (Ne.symm hne)]
    · subst h3
      simp [Memory.read, Ne.symm hne]
    · rw [Memory.read, Memory.read, ih hm]

/-- Two canonical memories that read alike everywhere are equal. -/
theorem Memory.ext_of_read {m m' : Memory} (h : Memory.wf m) (h' : Memory.wf m')
    (he : ∀ a, Memory.read m a = Memory.read m' a) : m = m' := by
  induction m generalizing m' with
  | nil =>
    cases m' with
    | nil => rfl
    | cons y m' =>
      have := he y.1
      simp [Memory.read] at this
      exact absurd this.symm (h'.2 y (by simp))
  | cons x m ih =>
    obtain ⟨k, b⟩ := x
    have hb : b ≠ unlistedByte := h.2 (k, b) (by simp)
    have hs := List.pairwise_cons.1 h.1
    have hm : Memory.wf m := ⟨hs.2, fun x hx => h.2 x (by simp [hx])⟩
    cases m' with
    | nil =>
      have := he k
      simp [Memory.read] at this
      exact absurd this hb
    | cons y m' =>
      obtain ⟨k', b'⟩ := y
      have hb' : b' ≠ unlistedByte := h'.2 (k', b') (by simp)
      have hs' := List.pairwise_cons.1 h'.1
      have hm' : Memory.wf m' := ⟨hs'.2, fun x hx => h'.2 x (by simp [hx])⟩
      have hk : k = k' := by
        rcases Nat.lt_trichotomy k k' with hlt | heq | hgt
        · have h1 := he k
          rw [Memory.read, if_pos rfl, Memory.read_of_lt (m := (k', b') :: m')
            (fun x hx => by
              rcases List.mem_cons.1 hx with rfl | hx
              · exact hlt
              · exact Nat.lt_trans hlt (hs'.1 x hx))] at h1
          exact absurd h1 hb
        · exact heq
        · have h1 := he k'
          rw [Memory.read_of_lt (m := (k, b) :: m)
            (fun x hx => by
              rcases List.mem_cons.1 hx with rfl | hx
              · exact hgt
              · exact Nat.lt_trans hgt (hs.1 x hx)), Memory.read, if_pos rfl] at h1
          exact absurd h1.symm hb'
      subst hk
      have h0 := he k
      simp only [Memory.read, if_true] at h0
      subst h0
      have : m = m' := ih hm hm' fun a => by
        by_cases ha : k = a
        · subst ha
          rw [Memory.read_of_lt fun x hx => hs.1 x hx, Memory.read_of_lt fun x hx => hs'.1 x hx]
        · have := he a
          simpa [Memory.read, ha] using this
      rw [this]

/-! ## Byte strings -/

@[simp] theorem Memory.readBytes_length (m : Memory) (a n : Nat) :
    (Memory.readBytes m a n).length = n := by
  induction n generalizing a with
  | zero => rfl
  | succ n ih => simp [Memory.readBytes, ih]

/-- Byte i of MemRead(a, n) is the byte at a + i (R61). -/
theorem Memory.readBytes_getD (m : Memory) (a n i : Nat) (d : Byte) (hi : i < n) :
    (Memory.readBytes m a n).getD i d = Memory.read m (a + i) := by
  induction n generalizing a i with
  | zero => omega
  | succ n ih =>
    cases i with
    | zero => simp [Memory.readBytes]
    | succ i =>
      simp only [Memory.readBytes, List.getD_cons_succ]
      rw [ih (a + 1) i (by omega)]
      congr 1
      omega

/-- MemRead depends only on the bytes it names. -/
theorem Memory.readBytes_congr {m m' : Memory} {a n : Nat}
    (h : ∀ i, i < n → Memory.read m (a + i) = Memory.read m' (a + i)) :
    Memory.readBytes m a n = Memory.readBytes m' a n := by
  induction n generalizing a with
  | zero => rfl
  | succ n ih =>
    have h0 := h 0 (by omega)
    simp only [Nat.add_zero] at h0
    simp only [Memory.readBytes, h0, List.cons.injEq, true_and]
    refine ih fun i hi => ?_
    have := h (i + 1) (by omega)
    simpa [Nat.add_assoc, Nat.add_comm 1 i] using this

theorem Memory.readBytes_append (m : Memory) (a n k : Nat) :
    Memory.readBytes m a (n + k) = Memory.readBytes m a n ++ Memory.readBytes m (a + n) k := by
  induction n generalizing a with
  | zero => simp [Memory.readBytes]
  | succ n ih =>
    rw [Nat.succ_add, Memory.readBytes, Memory.readBytes, ih (a + 1)]
    simp [Nat.add_assoc, Nat.add_comm 1 n]

theorem Memory.writeBytes_wf {m : Memory} (a : Nat) (bs : List Byte) (h : Memory.wf m) :
    Memory.wf (Memory.writeBytes m a bs) := by
  induction bs generalizing m a with
  | nil => exact h
  | cons b bs ih => exact ih (a + 1) (Memory.write_wf a b h)

theorem Memory.writeBytes_inBusSpace {m : Memory} {a : Nat} (bs : List Byte)
    (ha : a + bs.length ≤ busTop) (h : Memory.inBusSpace m) :
    Memory.inBusSpace (Memory.writeBytes m a bs) := by
  induction bs generalizing m a with
  | nil => exact h
  | cons b bs ih =>
    simp only [List.length_cons] at ha
    exact ih (by omega) (Memory.write_inBusSpace b (by omega) h)

/-- MemWrite(a, n, s) leaves every byte outside [a, a + n) as it was (R61). -/
theorem Memory.read_writeBytes_outside {m : Memory} {a a' : Nat} (bs : List Byte)
    (h : Memory.wf m) (ho : a' < a ∨ a + bs.length ≤ a') :
    Memory.read (Memory.writeBytes m a bs) a' = Memory.read m a' := by
  induction bs generalizing m a with
  | nil => rfl
  | cons b bs ih =>
    simp only [List.length_cons] at ho
    rw [Memory.writeBytes, ih (Memory.write_wf a b h) (by omega),
      Memory.read_write_other b (by omega) h]

/-- MemWrite(a, n, s) puts byte i of the string at a + i (R61). -/
theorem Memory.read_writeBytes_inside {m : Memory} {a i : Nat} (bs : List Byte) (d : Byte)
    (h : Memory.wf m) (hi : i < bs.length) :
    Memory.read (Memory.writeBytes m a bs) (a + i) = bs.getD i d := by
  induction bs generalizing m a i with
  | nil => simp at hi
  | cons b bs ih =>
    rw [Memory.writeBytes]
    cases i with
    | zero =>
      rw [Memory.read_writeBytes_outside bs (Memory.write_wf a b h) (by omega), Nat.add_zero,
        Memory.read_write_same a b h]
      rfl
    | succ i =>
      have := ih (a := a + 1) (i := i) (Memory.write_wf a b h) (by simpa using hi)
      simpa [Nat.add_assoc, Nat.add_comm 1 i] using this

/-- What was written reads back. -/
theorem Memory.readBytes_writeBytes_same {m : Memory} {a : Nat} (bs : List Byte)
    (h : Memory.wf m) : Memory.readBytes (Memory.writeBytes m a bs) a bs.length = bs := by
  refine List.ext_getElem (by simp) fun i h1 h2 => ?_
  have h3 := Memory.readBytes_getD (Memory.writeBytes m a bs) a bs.length i 0 h2
  rw [Memory.read_writeBytes_inside bs 0 h h2] at h3
  simpa [List.getD_eq_getElem?_getD, h1, h2] using h3

@[simp] theorem Memory.writeBytes_nil (m : Memory) (a : Nat) : Memory.writeBytes m a [] = m := rfl

theorem Memory.reset_wf : Memory.wf State.reset.memory := by decide

end Sys2Proof.Machine
end

