-- ==== Sys2Proof/Laws/Datapath.lean ====
section
/-! SUPPORT. Small lemmas of the pure datapath: the lengths of its byte strings, slices, and how CFstar absorbs a
string block by block (spec 40_compression.md R134, R135; 41_funnel.md R160 to R168). -/

namespace Sys2Proof.Machine

/-! ## Slices -/

@[simp] theorem slices_length (k n : Nat) (x : List Byte) : (slices k n x).length = n := by
  induction n generalizing x with
  | zero => rfl
  | succ n ih => simp [slices, ih]

/-- Slice g of a byte string is its bytes [g·k, (g+1)·k). -/
theorem slices_getElem (k n g : Nat) (x : List Byte) (hg : g < n) :
    (slices k n x)[g]'(by simpa using hg) = (x.drop (g * k)).take k := by
  induction n generalizing x g with
  | zero => omega
  | succ n ih =>
    cases g with
    | zero => simp [slices]
    | succ g =>
      have h := ih g (x.drop k) (by omega)
      simp only [slices, List.getElem_cons_succ]
      rw [h, List.drop_drop]
      congr 2
      ring

/-- Every slice that lies inside the string has k bytes. -/
theorem slices_mem_length {k n : Nat} {x s : List Byte} (hx : k * n ≤ x.length)
    (hs : s ∈ slices k n x) : s.length = k := by
  induction n generalizing x with
  | zero => simp [slices] at hs
  | succ n ih =>
    rw [Nat.mul_succ] at hx
    rcases List.mem_cons.1 hs with rfl | hs
    · rw [List.length_take]
      omega
    · exact ih (x := x.drop k) (by rw [List.length_drop]; omega) hs

/-- The slices of a concatenation whose first part is n slices long. -/
theorem slices_append (k n m : Nat) (x y : List Byte) (hx : x.length = k * n) :
    slices k (n + m) (x ++ y) = slices k n x ++ slices k m y := by
  induction n generalizing x with
  | zero =>
    have : x = [] := List.length_eq_zero_iff.1 (by simpa using hx)
    simp [slices, this]
  | succ n ih =>
    have hk : k ≤ x.length := by rw [hx, Nat.mul_succ]; omega
    rw [Nat.succ_add, slices, slices, List.take_append_of_le_length hk,
      List.drop_append_of_le_length hk, ih (x.drop k) (by rw [List.length_drop, hx, Nat.mul_succ]; omega)]
    rfl

/-! ## Lengths -/

@[simp] theorem xorBytes_length (x y : List Byte) :
    (xorBytes x y).length = min x.length y.length := by
  simp [xorBytes]

@[simp] theorem shiftRows_length (x : List Byte) : (shiftRows x).length = 16 := rfl

@[simp] theorem mixColumns_length (x : List Byte) : (mixColumns x).length = 16 := rfl

@[simp] theorem mixRound_length (key : Vector Byte 16) (x : List Byte) :
    (mixRound key x).length = 16 := rfl

@[simp] theorem blockMix_length (key : Vector Byte 16) (m : List Byte) :
    (blockMix key m).length = 4096 := by
  have : ∀ l : List (List Byte), (l.flatMap (mixRound key)).length = 16 * l.length := by
    intro l
    induction l with
    | nil => rfl
    | cons s l ih => rw [List.flatMap_cons, List.length_append, ih, mixRound_length, List.length_cons]; omega
  rw [blockMix, this, slices_length]

theorem foldl_xorBytes_length {n : Nat} (l : List (List Byte)) (a : List Byte) (ha : a.length = n)
    (hl : ∀ s ∈ l, s.length = n) : (l.foldl xorBytes a).length = n := by
  induction l generalizing a with
  | nil => exact ha
  | cons s l ih =>
    refine ih (xorBytes a s) ?_ fun t ht => hl t (by simp [ht])
    rw [xorBytes_length, ha, hl s (by simp), min_self]

/-- The fold of 4096 bytes has 4096 div r bytes (R162). -/
theorem xorFold_length (x : List Byte) (r : Nat) (hx : x.length = 4096) :
    (xorFold x r).length = 4096 / r := by
  refine foldl_xorBytes_length _ _ (by simp) fun s hs => slices_mem_length ?_ hs
  rw [hx]
  exact Nat.div_mul_le_self 4096 r

/-- The funnel of a 4096-byte message has 4096 div r bytes (R160). -/
theorem funnel_length (key : Vector Byte 16) (m : List Byte) (r : Nat) (mix : BitVec 2)
    (hm : m.length = 4096) : (funnel key m r mix).length = 4096 / r := by
  unfold funnel
  split
  · exact xorFold_length m r hm
  · exact xorFold_length _ r (blockMix_length key m)

@[simp] theorem beBytes_length (w : Word) : (beBytes w).length = 4 := rfl

/-- SER(V) has 32 bytes (R135). -/
@[simp] theorem ser_length (v : HashState) : (ser v).length = 32 := rfl

/-- A 256-bit digest has 32 bytes (R190). -/
@[simp] theorem d256_length (key : Vector Byte 16) (m : List Byte) (r : Nat) (mix : BitVec 2) :
    (d256 key m r mix).length = 32 := rfl

theorem digestBytes_le (c : Ctx) : digestBytes c ≤ 32 := by
  unfold digestBytes
  split <;> omega

theorem digestBytes_pos (c : Ctx) : 0 < digestBytes c := by
  unfold digestBytes
  split <;> omega

/-- A digest as written has wb bytes (R194, R214). -/
@[simp] theorem digestAt_length (p : Instance) (c : Ctx) (mem : Memory) (a : Nat) :
    (digestAt p c mem a).length = digestBytes c := by
  rw [digestAt, List.length_take, d256_length]
  exact Nat.min_eq_left (digestBytes_le c)

@[simp] theorem funnelAt_length (p : Instance) (c : Ctx) (mem : Memory) (a : Nat) :
    (funnelAt p c mem a).length = funnelLength c :=
  funnel_length _ _ _ _ (Memory.readBytes_length mem a 4096)

/-! ## CFstar block by block -/

@[simp] theorem cfStar_nil (v : HashState) : cfStar v [] = v := rfl

/-- One more block in front: CFstar(V, B ‖ s) = CFstar(CF(V, B), s) (R134). -/
theorem cfStar_cons (v : HashState) (b s : List Byte) (hb : b.length = 64) :
    cfStar v (b ++ s) = cfStar (cf v b) s := by
  have h : (b ++ s).length / 64 = 1 + s.length / 64 := by
    rw [List.length_append, hb]
    omega
  have h1 : slices 64 1 b = [b] := by simp only [slices, List.take_of_length_le hb.le]
  rw [cfStar, h, slices_append 64 1 (s.length / 64) b s hb, List.foldl_append, h1, cfStar]
  rfl

/-- The same for the first 64 bytes of a string that has them. -/
theorem cfStar_take_drop (v : HashState) (s : List Byte) (hs : 64 ≤ s.length) :
    cfStar (cf v (s.take 64)) (s.drop 64) = cfStar v s := by
  rw [← cfStar_cons v (s.take 64) (s.drop 64) (by rw [List.length_take]; omega), List.take_append_drop]

end Sys2Proof.Machine
end

