-- ==== Sys2Proof/Laws/State.lean ====
section
/-! SUPPORT. One lemma per field per update of State, true by rfl: what each one-field update leaves in each
field. -/

namespace Sys2Proof.Machine

/-! ### setMemory -/

@[simp] theorem State.setMemory_inst (s : State) (x : Memory) : (s.setMemory x).inst = s.inst := rfl
@[simp] theorem State.setMemory_memory (s : State) (x : Memory) : (s.setMemory x).memory = x := rfl
@[simp] theorem State.setMemory_irqEn (s : State) (x : Memory) : (s.setMemory x).irqEn = s.irqEn := rfl
@[simp] theorem State.setMemory_status (s : State) (x : Memory) : (s.setMemory x).status = s.status := rfl
@[simp] theorem State.setMemory_config (s : State) (x : Memory) : (s.setMemory x).config = s.config := rfl
@[simp] theorem State.setMemory_src (s : State) (x : Memory) : (s.setMemory x).src = s.src := rfl
@[simp] theorem State.setMemory_dst (s : State) (x : Memory) : (s.setMemory x).dst = s.dst := rfl
@[simp] theorem State.setMemory_len (s : State) (x : Memory) : (s.setMemory x).len = s.len := rfl
@[simp] theorem State.setMemory_count (s : State) (x : Memory) : (s.setMemory x).count = s.count := rfl
@[simp] theorem State.setMemory_hash (s : State) (x : Memory) : (s.setMemory x).hash = s.hash := rfl
@[simp] theorem State.setMemory_engine (s : State) (x : Memory) : (s.setMemory x).engine = s.engine := rfl
@[simp] theorem State.setMemory_lanes (s : State) (x : Memory) : (s.setMemory x).lanes = s.lanes := rfl
@[simp] theorem State.setMemory_inputs (s : State) (x : Memory) : (s.setMemory x).inputs = s.inputs := rfl
@[simp] theorem State.setMemory_sched (s : State) (x : Memory) : (s.setMemory x).sched = s.sched := rfl
@[simp] theorem State.setMemory_response (s : State) (x : Memory) : (s.setMemory x).response = s.response := rfl
@[simp] theorem State.setMemory_fresh (s : State) (x : Memory) : (s.setMemory x).fresh = s.fresh := rfl

/-! ### setIrqEn -/

@[simp] theorem State.setIrqEn_inst (s : State) (x : Bool) : (s.setIrqEn x).inst = s.inst := rfl
@[simp] theorem State.setIrqEn_memory (s : State) (x : Bool) : (s.setIrqEn x).memory = s.memory := rfl
@[simp] theorem State.setIrqEn_irqEn (s : State) (x : Bool) : (s.setIrqEn x).irqEn = x := rfl
@[simp] theorem State.setIrqEn_status (s : State) (x : Bool) : (s.setIrqEn x).status = s.status := rfl
@[simp] theorem State.setIrqEn_config (s : State) (x : Bool) : (s.setIrqEn x).config = s.config := rfl
@[simp] theorem State.setIrqEn_src (s : State) (x : Bool) : (s.setIrqEn x).src = s.src := rfl
@[simp] theorem State.setIrqEn_dst (s : State) (x : Bool) : (s.setIrqEn x).dst = s.dst := rfl
@[simp] theorem State.setIrqEn_len (s : State) (x : Bool) : (s.setIrqEn x).len = s.len := rfl
@[simp] theorem State.setIrqEn_count (s : State) (x : Bool) : (s.setIrqEn x).count = s.count := rfl
@[simp] theorem State.setIrqEn_hash (s : State) (x : Bool) : (s.setIrqEn x).hash = s.hash := rfl
@[simp] theorem State.setIrqEn_engine (s : State) (x : Bool) : (s.setIrqEn x).engine = s.engine := rfl
@[simp] theorem State.setIrqEn_lanes (s : State) (x : Bool) : (s.setIrqEn x).lanes = s.lanes := rfl
@[simp] theorem State.setIrqEn_inputs (s : State) (x : Bool) : (s.setIrqEn x).inputs = s.inputs := rfl
@[simp] theorem State.setIrqEn_sched (s : State) (x : Bool) : (s.setIrqEn x).sched = s.sched := rfl
@[simp] theorem State.setIrqEn_response (s : State) (x : Bool) : (s.setIrqEn x).response = s.response := rfl
@[simp] theorem State.setIrqEn_fresh (s : State) (x : Bool) : (s.setIrqEn x).fresh = s.fresh := rfl

/-! ### setStatus -/

@[simp] theorem State.setStatus_inst (s : State) (x : Status) : (s.setStatus x).inst = s.inst := rfl
@[simp] theorem State.setStatus_memory (s : State) (x : Status) : (s.setStatus x).memory = s.memory := rfl
@[simp] theorem State.setStatus_irqEn (s : State) (x : Status) : (s.setStatus x).irqEn = s.irqEn := rfl
@[simp] theorem State.setStatus_status (s : State) (x : Status) : (s.setStatus x).status = x := rfl
@[simp] theorem State.setStatus_config (s : State) (x : Status) : (s.setStatus x).config = s.config := rfl
@[simp] theorem State.setStatus_src (s : State) (x : Status) : (s.setStatus x).src = s.src := rfl
@[simp] theorem State.setStatus_dst (s : State) (x : Status) : (s.setStatus x).dst = s.dst := rfl
@[simp] theorem State.setStatus_len (s : State) (x : Status) : (s.setStatus x).len = s.len := rfl
@[simp] theorem State.setStatus_count (s : State) (x : Status) : (s.setStatus x).count = s.count := rfl
@[simp] theorem State.setStatus_hash (s : State) (x : Status) : (s.setStatus x).hash = s.hash := rfl
@[simp] theorem State.setStatus_engine (s : State) (x : Status) : (s.setStatus x).engine = s.engine := rfl
@[simp] theorem State.setStatus_lanes (s : State) (x : Status) : (s.setStatus x).lanes = s.lanes := rfl
@[simp] theorem State.setStatus_inputs (s : State) (x : Status) : (s.setStatus x).inputs = s.inputs := rfl
@[simp] theorem State.setStatus_sched (s : State) (x : Status) : (s.setStatus x).sched = s.sched := rfl
@[simp] theorem State.setStatus_response (s : State) (x : Status) : (s.setStatus x).response = s.response := rfl
@[simp] theorem State.setStatus_fresh (s : State) (x : Status) : (s.setStatus x).fresh = s.fresh := rfl

/-! ### setConfig -/

@[simp] theorem State.setConfig_inst (s : State) (x : Word) : (s.setConfig x).inst = s.inst := rfl
@[simp] theorem State.setConfig_memory (s : State) (x : Word) : (s.setConfig x).memory = s.memory := rfl
@[simp] theorem State.setConfig_irqEn (s : State) (x : Word) : (s.setConfig x).irqEn = s.irqEn := rfl
@[simp] theorem State.setConfig_status (s : State) (x : Word) : (s.setConfig x).status = s.status := rfl
@[simp] theorem State.setConfig_config (s : State) (x : Word) : (s.setConfig x).config = x := rfl
@[simp] theorem State.setConfig_src (s : State) (x : Word) : (s.setConfig x).src = s.src := rfl
@[simp] theorem State.setConfig_dst (s : State) (x : Word) : (s.setConfig x).dst = s.dst := rfl
@[simp] theorem State.setConfig_len (s : State) (x : Word) : (s.setConfig x).len = s.len := rfl
@[simp] theorem State.setConfig_count (s : State) (x : Word) : (s.setConfig x).count = s.count := rfl
@[simp] theorem State.setConfig_hash (s : State) (x : Word) : (s.setConfig x).hash = s.hash := rfl
@[simp] theorem State.setConfig_engine (s : State) (x : Word) : (s.setConfig x).engine = s.engine := rfl
@[simp] theorem State.setConfig_lanes (s : State) (x : Word) : (s.setConfig x).lanes = s.lanes := rfl
@[simp] theorem State.setConfig_inputs (s : State) (x : Word) : (s.setConfig x).inputs = s.inputs := rfl
@[simp] theorem State.setConfig_sched (s : State) (x : Word) : (s.setConfig x).sched = s.sched := rfl
@[simp] theorem State.setConfig_response (s : State) (x : Word) : (s.setConfig x).response = s.response := rfl
@[simp] theorem State.setConfig_fresh (s : State) (x : Word) : (s.setConfig x).fresh = s.fresh := rfl

/-! ### setSrc -/

@[simp] theorem State.setSrc_inst (s : State) (x : Word) : (s.setSrc x).inst = s.inst := rfl
@[simp] theorem State.setSrc_memory (s : State) (x : Word) : (s.setSrc x).memory = s.memory := rfl
@[simp] theorem State.setSrc_irqEn (s : State) (x : Word) : (s.setSrc x).irqEn = s.irqEn := rfl
@[simp] theorem State.setSrc_status (s : State) (x : Word) : (s.setSrc x).status = s.status := rfl
@[simp] theorem State.setSrc_config (s : State) (x : Word) : (s.setSrc x).config = s.config := rfl
@[simp] theorem State.setSrc_src (s : State) (x : Word) : (s.setSrc x).src = x := rfl
@[simp] theorem State.setSrc_dst (s : State) (x : Word) : (s.setSrc x).dst = s.dst := rfl
@[simp] theorem State.setSrc_len (s : State) (x : Word) : (s.setSrc x).len = s.len := rfl
@[simp] theorem State.setSrc_count (s : State) (x : Word) : (s.setSrc x).count = s.count := rfl
@[simp] theorem State.setSrc_hash (s : State) (x : Word) : (s.setSrc x).hash = s.hash := rfl
@[simp] theorem State.setSrc_engine (s : State) (x : Word) : (s.setSrc x).engine = s.engine := rfl
@[simp] theorem State.setSrc_lanes (s : State) (x : Word) : (s.setSrc x).lanes = s.lanes := rfl
@[simp] theorem State.setSrc_inputs (s : State) (x : Word) : (s.setSrc x).inputs = s.inputs := rfl
@[simp] theorem State.setSrc_sched (s : State) (x : Word) : (s.setSrc x).sched = s.sched := rfl
@[simp] theorem State.setSrc_response (s : State) (x : Word) : (s.setSrc x).response = s.response := rfl
@[simp] theorem State.setSrc_fresh (s : State) (x : Word) : (s.setSrc x).fresh = s.fresh := rfl

/-! ### setDst -/

@[simp] theorem State.setDst_inst (s : State) (x : Word) : (s.setDst x).inst = s.inst := rfl
@[simp] theorem State.setDst_memory (s : State) (x : Word) : (s.setDst x).memory = s.memory := rfl
@[simp] theorem State.setDst_irqEn (s : State) (x : Word) : (s.setDst x).irqEn = s.irqEn := rfl
@[simp] theorem State.setDst_status (s : State) (x : Word) : (s.setDst x).status = s.status := rfl
@[simp] theorem State.setDst_config (s : State) (x : Word) : (s.setDst x).config = s.config := rfl
@[simp] theorem State.setDst_src (s : State) (x : Word) : (s.setDst x).src = s.src := rfl
@[simp] theorem State.setDst_dst (s : State) (x : Word) : (s.setDst x).dst = x := rfl
@[simp] theorem State.setDst_len (s : State) (x : Word) : (s.setDst x).len = s.len := rfl
@[simp] theorem State.setDst_count (s : State) (x : Word) : (s.setDst x).count = s.count := rfl
@[simp] theorem State.setDst_hash (s : State) (x : Word) : (s.setDst x).hash = s.hash := rfl
@[simp] theorem State.setDst_engine (s : State) (x : Word) : (s.setDst x).engine = s.engine := rfl
@[simp] theorem State.setDst_lanes (s : State) (x : Word) : (s.setDst x).lanes = s.lanes := rfl
@[simp] theorem State.setDst_inputs (s : State) (x : Word) : (s.setDst x).inputs = s.inputs := rfl
@[simp] theorem State.setDst_sched (s : State) (x : Word) : (s.setDst x).sched = s.sched := rfl
@[simp] theorem State.setDst_response (s : State) (x : Word) : (s.setDst x).response = s.response := rfl
@[simp] theorem State.setDst_fresh (s : State) (x : Word) : (s.setDst x).fresh = s.fresh := rfl

/-! ### setLen -/

@[simp] theorem State.setLen_inst (s : State) (x : Word) : (s.setLen x).inst = s.inst := rfl
@[simp] theorem State.setLen_memory (s : State) (x : Word) : (s.setLen x).memory = s.memory := rfl
@[simp] theorem State.setLen_irqEn (s : State) (x : Word) : (s.setLen x).irqEn = s.irqEn := rfl
@[simp] theorem State.setLen_status (s : State) (x : Word) : (s.setLen x).status = s.status := rfl
@[simp] theorem State.setLen_config (s : State) (x : Word) : (s.setLen x).config = s.config := rfl
@[simp] theorem State.setLen_src (s : State) (x : Word) : (s.setLen x).src = s.src := rfl
@[simp] theorem State.setLen_dst (s : State) (x : Word) : (s.setLen x).dst = s.dst := rfl
@[simp] theorem State.setLen_len (s : State) (x : Word) : (s.setLen x).len = x := rfl
@[simp] theorem State.setLen_count (s : State) (x : Word) : (s.setLen x).count = s.count := rfl
@[simp] theorem State.setLen_hash (s : State) (x : Word) : (s.setLen x).hash = s.hash := rfl
@[simp] theorem State.setLen_engine (s : State) (x : Word) : (s.setLen x).engine = s.engine := rfl
@[simp] theorem State.setLen_lanes (s : State) (x : Word) : (s.setLen x).lanes = s.lanes := rfl
@[simp] theorem State.setLen_inputs (s : State) (x : Word) : (s.setLen x).inputs = s.inputs := rfl
@[simp] theorem State.setLen_sched (s : State) (x : Word) : (s.setLen x).sched = s.sched := rfl
@[simp] theorem State.setLen_response (s : State) (x : Word) : (s.setLen x).response = s.response := rfl
@[simp] theorem State.setLen_fresh (s : State) (x : Word) : (s.setLen x).fresh = s.fresh := rfl

/-! ### setCount -/

@[simp] theorem State.setCount_inst (s : State) (x : Word) : (s.setCount x).inst = s.inst := rfl
@[simp] theorem State.setCount_memory (s : State) (x : Word) : (s.setCount x).memory = s.memory := rfl
@[simp] theorem State.setCount_irqEn (s : State) (x : Word) : (s.setCount x).irqEn = s.irqEn := rfl
@[simp] theorem State.setCount_status (s : State) (x : Word) : (s.setCount x).status = s.status := rfl
@[simp] theorem State.setCount_config (s : State) (x : Word) : (s.setCount x).config = s.config := rfl
@[simp] theorem State.setCount_src (s : State) (x : Word) : (s.setCount x).src = s.src := rfl
@[simp] theorem State.setCount_dst (s : State) (x : Word) : (s.setCount x).dst = s.dst := rfl
@[simp] theorem State.setCount_len (s : State) (x : Word) : (s.setCount x).len = s.len := rfl
@[simp] theorem State.setCount_count (s : State) (x : Word) : (s.setCount x).count = x := rfl
@[simp] theorem State.setCount_hash (s : State) (x : Word) : (s.setCount x).hash = s.hash := rfl
@[simp] theorem State.setCount_engine (s : State) (x : Word) : (s.setCount x).engine = s.engine := rfl
@[simp] theorem State.setCount_lanes (s : State) (x : Word) : (s.setCount x).lanes = s.lanes := rfl
@[simp] theorem State.setCount_inputs (s : State) (x : Word) : (s.setCount x).inputs = s.inputs := rfl
@[simp] theorem State.setCount_sched (s : State) (x : Word) : (s.setCount x).sched = s.sched := rfl
@[simp] theorem State.setCount_response (s : State) (x : Word) : (s.setCount x).response = s.response := rfl
@[simp] theorem State.setCount_fresh (s : State) (x : Word) : (s.setCount x).fresh = s.fresh := rfl

/-! ### setHash -/

@[simp] theorem State.setHash_inst (s : State) (x : HashState) : (s.setHash x).inst = s.inst := rfl
@[simp] theorem State.setHash_memory (s : State) (x : HashState) : (s.setHash x).memory = s.memory := rfl
@[simp] theorem State.setHash_irqEn (s : State) (x : HashState) : (s.setHash x).irqEn = s.irqEn := rfl
@[simp] theorem State.setHash_status (s : State) (x : HashState) : (s.setHash x).status = s.status := rfl
@[simp] theorem State.setHash_config (s : State) (x : HashState) : (s.setHash x).config = s.config := rfl
@[simp] theorem State.setHash_src (s : State) (x : HashState) : (s.setHash x).src = s.src := rfl
@[simp] theorem State.setHash_dst (s : State) (x : HashState) : (s.setHash x).dst = s.dst := rfl
@[simp] theorem State.setHash_len (s : State) (x : HashState) : (s.setHash x).len = s.len := rfl
@[simp] theorem State.setHash_count (s : State) (x : HashState) : (s.setHash x).count = s.count := rfl
@[simp] theorem State.setHash_hash (s : State) (x : HashState) : (s.setHash x).hash = x := rfl
@[simp] theorem State.setHash_engine (s : State) (x : HashState) : (s.setHash x).engine = s.engine := rfl
@[simp] theorem State.setHash_lanes (s : State) (x : HashState) : (s.setHash x).lanes = s.lanes := rfl
@[simp] theorem State.setHash_inputs (s : State) (x : HashState) : (s.setHash x).inputs = s.inputs := rfl
@[simp] theorem State.setHash_sched (s : State) (x : HashState) : (s.setHash x).sched = s.sched := rfl
@[simp] theorem State.setHash_response (s : State) (x : HashState) : (s.setHash x).response = s.response := rfl
@[simp] theorem State.setHash_fresh (s : State) (x : HashState) : (s.setHash x).fresh = s.fresh := rfl

/-! ### setEngine -/

@[simp] theorem State.setEngine_inst (s : State) (x : Engine) : (s.setEngine x).inst = s.inst := rfl
@[simp] theorem State.setEngine_memory (s : State) (x : Engine) : (s.setEngine x).memory = s.memory := rfl
@[simp] theorem State.setEngine_irqEn (s : State) (x : Engine) : (s.setEngine x).irqEn = s.irqEn := rfl
@[simp] theorem State.setEngine_status (s : State) (x : Engine) : (s.setEngine x).status = s.status := rfl
@[simp] theorem State.setEngine_config (s : State) (x : Engine) : (s.setEngine x).config = s.config := rfl
@[simp] theorem State.setEngine_src (s : State) (x : Engine) : (s.setEngine x).src = s.src := rfl
@[simp] theorem State.setEngine_dst (s : State) (x : Engine) : (s.setEngine x).dst = s.dst := rfl
@[simp] theorem State.setEngine_len (s : State) (x : Engine) : (s.setEngine x).len = s.len := rfl
@[simp] theorem State.setEngine_count (s : State) (x : Engine) : (s.setEngine x).count = s.count := rfl
@[simp] theorem State.setEngine_hash (s : State) (x : Engine) : (s.setEngine x).hash = s.hash := rfl
@[simp] theorem State.setEngine_engine (s : State) (x : Engine) : (s.setEngine x).engine = x := rfl
@[simp] theorem State.setEngine_lanes (s : State) (x : Engine) : (s.setEngine x).lanes = s.lanes := rfl
@[simp] theorem State.setEngine_inputs (s : State) (x : Engine) : (s.setEngine x).inputs = s.inputs := rfl
@[simp] theorem State.setEngine_sched (s : State) (x : Engine) : (s.setEngine x).sched = s.sched := rfl
@[simp] theorem State.setEngine_response (s : State) (x : Engine) : (s.setEngine x).response = s.response := rfl
@[simp] theorem State.setEngine_fresh (s : State) (x : Engine) : (s.setEngine x).fresh = s.fresh := rfl

/-! ### setLanes -/

@[simp] theorem State.setLanes_inst (s : State) (x : List Lane) : (s.setLanes x).inst = s.inst := rfl
@[simp] theorem State.setLanes_memory (s : State) (x : List Lane) : (s.setLanes x).memory = s.memory := rfl
@[simp] theorem State.setLanes_irqEn (s : State) (x : List Lane) : (s.setLanes x).irqEn = s.irqEn := rfl
@[simp] theorem State.setLanes_status (s : State) (x : List Lane) : (s.setLanes x).status = s.status := rfl
@[simp] theorem State.setLanes_config (s : State) (x : List Lane) : (s.setLanes x).config = s.config := rfl
@[simp] theorem State.setLanes_src (s : State) (x : List Lane) : (s.setLanes x).src = s.src := rfl
@[simp] theorem State.setLanes_dst (s : State) (x : List Lane) : (s.setLanes x).dst = s.dst := rfl
@[simp] theorem State.setLanes_len (s : State) (x : List Lane) : (s.setLanes x).len = s.len := rfl
@[simp] theorem State.setLanes_count (s : State) (x : List Lane) : (s.setLanes x).count = s.count := rfl
@[simp] theorem State.setLanes_hash (s : State) (x : List Lane) : (s.setLanes x).hash = s.hash := rfl
@[simp] theorem State.setLanes_engine (s : State) (x : List Lane) : (s.setLanes x).engine = s.engine := rfl
@[simp] theorem State.setLanes_lanes (s : State) (x : List Lane) : (s.setLanes x).lanes = x := rfl
@[simp] theorem State.setLanes_inputs (s : State) (x : List Lane) : (s.setLanes x).inputs = s.inputs := rfl
@[simp] theorem State.setLanes_sched (s : State) (x : List Lane) : (s.setLanes x).sched = s.sched := rfl
@[simp] theorem State.setLanes_response (s : State) (x : List Lane) : (s.setLanes x).response = s.response := rfl
@[simp] theorem State.setLanes_fresh (s : State) (x : List Lane) : (s.setLanes x).fresh = s.fresh := rfl

/-! ### setInputs -/

@[simp] theorem State.setInputs_inst (s : State) (x : List HostOp) : (s.setInputs x).inst = s.inst := rfl
@[simp] theorem State.setInputs_memory (s : State) (x : List HostOp) : (s.setInputs x).memory = s.memory := rfl
@[simp] theorem State.setInputs_irqEn (s : State) (x : List HostOp) : (s.setInputs x).irqEn = s.irqEn := rfl
@[simp] theorem State.setInputs_status (s : State) (x : List HostOp) : (s.setInputs x).status = s.status := rfl
@[simp] theorem State.setInputs_config (s : State) (x : List HostOp) : (s.setInputs x).config = s.config := rfl
@[simp] theorem State.setInputs_src (s : State) (x : List HostOp) : (s.setInputs x).src = s.src := rfl
@[simp] theorem State.setInputs_dst (s : State) (x : List HostOp) : (s.setInputs x).dst = s.dst := rfl
@[simp] theorem State.setInputs_len (s : State) (x : List HostOp) : (s.setInputs x).len = s.len := rfl
@[simp] theorem State.setInputs_count (s : State) (x : List HostOp) : (s.setInputs x).count = s.count := rfl
@[simp] theorem State.setInputs_hash (s : State) (x : List HostOp) : (s.setInputs x).hash = s.hash := rfl
@[simp] theorem State.setInputs_engine (s : State) (x : List HostOp) : (s.setInputs x).engine = s.engine := rfl
@[simp] theorem State.setInputs_lanes (s : State) (x : List HostOp) : (s.setInputs x).lanes = s.lanes := rfl
@[simp] theorem State.setInputs_inputs (s : State) (x : List HostOp) : (s.setInputs x).inputs = x := rfl
@[simp] theorem State.setInputs_sched (s : State) (x : List HostOp) : (s.setInputs x).sched = s.sched := rfl
@[simp] theorem State.setInputs_response (s : State) (x : List HostOp) : (s.setInputs x).response = s.response := rfl
@[simp] theorem State.setInputs_fresh (s : State) (x : List HostOp) : (s.setInputs x).fresh = s.fresh := rfl

/-! ### setSched -/

@[simp] theorem State.setSched_inst (s : State) (x : List Turn) : (s.setSched x).inst = s.inst := rfl
@[simp] theorem State.setSched_memory (s : State) (x : List Turn) : (s.setSched x).memory = s.memory := rfl
@[simp] theorem State.setSched_irqEn (s : State) (x : List Turn) : (s.setSched x).irqEn = s.irqEn := rfl
@[simp] theorem State.setSched_status (s : State) (x : List Turn) : (s.setSched x).status = s.status := rfl
@[simp] theorem State.setSched_config (s : State) (x : List Turn) : (s.setSched x).config = s.config := rfl
@[simp] theorem State.setSched_src (s : State) (x : List Turn) : (s.setSched x).src = s.src := rfl
@[simp] theorem State.setSched_dst (s : State) (x : List Turn) : (s.setSched x).dst = s.dst := rfl
@[simp] theorem State.setSched_len (s : State) (x : List Turn) : (s.setSched x).len = s.len := rfl
@[simp] theorem State.setSched_count (s : State) (x : List Turn) : (s.setSched x).count = s.count := rfl
@[simp] theorem State.setSched_hash (s : State) (x : List Turn) : (s.setSched x).hash = s.hash := rfl
@[simp] theorem State.setSched_engine (s : State) (x : List Turn) : (s.setSched x).engine = s.engine := rfl
@[simp] theorem State.setSched_lanes (s : State) (x : List Turn) : (s.setSched x).lanes = s.lanes := rfl
@[simp] theorem State.setSched_inputs (s : State) (x : List Turn) : (s.setSched x).inputs = s.inputs := rfl
@[simp] theorem State.setSched_sched (s : State) (x : List Turn) : (s.setSched x).sched = x := rfl
@[simp] theorem State.setSched_response (s : State) (x : List Turn) : (s.setSched x).response = s.response := rfl
@[simp] theorem State.setSched_fresh (s : State) (x : List Turn) : (s.setSched x).fresh = s.fresh := rfl

/-! ### setResponse -/

@[simp] theorem State.setResponse_inst (s : State) (x : Response) : (s.setResponse x).inst = s.inst := rfl
@[simp] theorem State.setResponse_memory (s : State) (x : Response) : (s.setResponse x).memory = s.memory := rfl
@[simp] theorem State.setResponse_irqEn (s : State) (x : Response) : (s.setResponse x).irqEn = s.irqEn := rfl
@[simp] theorem State.setResponse_status (s : State) (x : Response) : (s.setResponse x).status = s.status := rfl
@[simp] theorem State.setResponse_config (s : State) (x : Response) : (s.setResponse x).config = s.config := rfl
@[simp] theorem State.setResponse_src (s : State) (x : Response) : (s.setResponse x).src = s.src := rfl
@[simp] theorem State.setResponse_dst (s : State) (x : Response) : (s.setResponse x).dst = s.dst := rfl
@[simp] theorem State.setResponse_len (s : State) (x : Response) : (s.setResponse x).len = s.len := rfl
@[simp] theorem State.setResponse_count (s : State) (x : Response) : (s.setResponse x).count = s.count := rfl
@[simp] theorem State.setResponse_hash (s : State) (x : Response) : (s.setResponse x).hash = s.hash := rfl
@[simp] theorem State.setResponse_engine (s : State) (x : Response) : (s.setResponse x).engine = s.engine := rfl
@[simp] theorem State.setResponse_lanes (s : State) (x : Response) : (s.setResponse x).lanes = s.lanes := rfl
@[simp] theorem State.setResponse_inputs (s : State) (x : Response) : (s.setResponse x).inputs = s.inputs := rfl
@[simp] theorem State.setResponse_sched (s : State) (x : Response) : (s.setResponse x).sched = s.sched := rfl
@[simp] theorem State.setResponse_response (s : State) (x : Response) : (s.setResponse x).response = x := rfl
@[simp] theorem State.setResponse_fresh (s : State) (x : Response) : (s.setResponse x).fresh = s.fresh := rfl

/-! ### setFresh -/

@[simp] theorem State.setFresh_inst (s : State) (x : Nat) : (s.setFresh x).inst = s.inst := rfl
@[simp] theorem State.setFresh_memory (s : State) (x : Nat) : (s.setFresh x).memory = s.memory := rfl
@[simp] theorem State.setFresh_irqEn (s : State) (x : Nat) : (s.setFresh x).irqEn = s.irqEn := rfl
@[simp] theorem State.setFresh_status (s : State) (x : Nat) : (s.setFresh x).status = s.status := rfl
@[simp] theorem State.setFresh_config (s : State) (x : Nat) : (s.setFresh x).config = s.config := rfl
@[simp] theorem State.setFresh_src (s : State) (x : Nat) : (s.setFresh x).src = s.src := rfl
@[simp] theorem State.setFresh_dst (s : State) (x : Nat) : (s.setFresh x).dst = s.dst := rfl
@[simp] theorem State.setFresh_len (s : State) (x : Nat) : (s.setFresh x).len = s.len := rfl
@[simp] theorem State.setFresh_count (s : State) (x : Nat) : (s.setFresh x).count = s.count := rfl
@[simp] theorem State.setFresh_hash (s : State) (x : Nat) : (s.setFresh x).hash = s.hash := rfl
@[simp] theorem State.setFresh_engine (s : State) (x : Nat) : (s.setFresh x).engine = s.engine := rfl
@[simp] theorem State.setFresh_lanes (s : State) (x : Nat) : (s.setFresh x).lanes = s.lanes := rfl
@[simp] theorem State.setFresh_inputs (s : State) (x : Nat) : (s.setFresh x).inputs = s.inputs := rfl
@[simp] theorem State.setFresh_sched (s : State) (x : Nat) : (s.setFresh x).sched = s.sched := rfl
@[simp] theorem State.setFresh_response (s : State) (x : Nat) : (s.setFresh x).response = s.response := rfl
@[simp] theorem State.setFresh_fresh (s : State) (x : Nat) : (s.setFresh x).fresh = x := rfl

/-! ### The reset values -/

@[simp] theorem resetRegisters_inst (s : State) : (resetRegisters s).inst = s.inst := rfl
@[simp] theorem resetRegisters_memory (s : State) : (resetRegisters s).memory = s.memory := rfl
@[simp] theorem resetRegisters_irqEn (s : State) : (resetRegisters s).irqEn = false := rfl
@[simp] theorem resetRegisters_status (s : State) : (resetRegisters s).status = statusReset := rfl
@[simp] theorem resetRegisters_config (s : State) : (resetRegisters s).config = 0x00000008#32 := rfl
@[simp] theorem resetRegisters_src (s : State) : (resetRegisters s).src = 0#32 := rfl
@[simp] theorem resetRegisters_dst (s : State) : (resetRegisters s).dst = 0#32 := rfl
@[simp] theorem resetRegisters_len (s : State) : (resetRegisters s).len = 0#32 := rfl
@[simp] theorem resetRegisters_count (s : State) : (resetRegisters s).count = 0#32 := rfl
@[simp] theorem resetRegisters_hash (s : State) : (resetRegisters s).hash = iv := rfl
@[simp] theorem resetRegisters_engine (s : State) : (resetRegisters s).engine = .idle := rfl
@[simp] theorem resetRegisters_lanes (s : State) : (resetRegisters s).lanes = List.replicate s.inst.numLanes laneIdle := rfl
@[simp] theorem resetRegisters_inputs (s : State) : (resetRegisters s).inputs = s.inputs := rfl
@[simp] theorem resetRegisters_sched (s : State) : (resetRegisters s).sched = s.sched := rfl
@[simp] theorem resetRegisters_response (s : State) : (resetRegisters s).response = s.response := rfl
@[simp] theorem resetRegisters_fresh (s : State) : (resetRegisters s).fresh = s.fresh := rfl

end Sys2Proof.Machine
end

