-- ==== Sys2Proof/Laws/Ops.lean ====
section
/-! SUPPORT. One lemma for each shared operation, saying once what it can do: ranges, acceptance, completion,
errors, the free bytes, reset, engine reads and writes, and the launch of a command. -/

namespace Sys2Proof.Machine

/-! ## Ranges -/

theorem Span.has_iff (r : Span) (a : Nat) : r.has a = true ↔ r.lo ≤ a ∧ a < r.hi := by
  simp [Span.has]

/-- Two ranges meet exactly when they share an address (R67). -/
theorem Span.meets_iff (r q : Span) :
    r.meets q = true ↔ ∃ a, r.has a = true ∧ q.has a = true := by
  simp only [Span.meets, Bool.and_eq_true, decide_eq_true_eq, Span.has_iff]
  constructor
  · rintro ⟨⟨⟨h1, h2⟩, h3⟩, h4⟩
    exact ⟨max r.lo q.lo, by omega⟩
  · rintro ⟨a, h1, h2⟩
    omega

/-- The command meets a bus error exactly when some byte of its ranges has ¬bus_ok (R62). -/
theorem busFails_iff (p : Instance) (c : Ctx) :
    busFails p c = true ↔
      ∃ a, ((sourceRange c).has a = true ∨ (destRange c).has a = true) ∧ busOk p a = false := by
  simp only [busFails, busOk, List.any_eq_true, Bool.or_eq_true, Span.meets_iff, Bool.not_eq_false']
  constructor
  · rintro ⟨r, hr, ⟨a, h1, h2⟩ | ⟨a, h1, h2⟩⟩
    · exact ⟨a, .inl h2, r, hr, h1⟩
    · exact ⟨a, .inr h2, r, hr, h1⟩
  · rintro ⟨a, h1 | h1, r, hr, h2⟩
    · exact ⟨r, hr, .inl ⟨a, h2, h1⟩⟩
    · exact ⟨r, hr, .inr ⟨a, h2, h1⟩⟩

/-- The range check of R276 in exact arithmetic. -/
theorem rangeFails_iff (c : Ctx) :
    rangeFails c = true ↔
      busTop < c.src.toNat + sourceLength c ∨ busTop < c.dst.toNat + destLength c ∨
        (0 < sourceLength c ∧ 0 < destLength c ∧ c.src.toNat < c.dst.toNat + destLength c ∧
          c.dst.toNat < c.src.toNat + sourceLength c) := by
  simp only [rangeFails, rangeWraps, rangesOverlap, Span.meets, Bool.or_eq_true, Bool.and_eq_true,
    decide_eq_true_eq]
  simp only [sourceRange, destRange]
  omega

/-- An engine access of n bytes completes exactly when each byte does (R62). -/
theorem busOkRange_iff (p : Instance) (a n : Nat) :
    busOkRange p a n = true ↔ ∀ i, i < n → busOk p (a + i) = true := by
  simp only [busOkRange, busOk, Bool.not_eq_true', List.any_eq_false, Bool.not_eq_true]
  constructor
  · intro h i hi r hr
    have := h r hr
    by_contra hc
    rw [Bool.not_eq_false] at hc
    exact absurd ((Span.meets_iff r ⟨a, a + n⟩).2 ⟨a + i, hc, by simp [Span.has_iff]; omega⟩) (by simp [this])
  · intro h r hr
    by_contra hc
    rw [Bool.not_eq_false] at hc
    obtain ⟨b, h1, h2⟩ := (Span.meets_iff r ⟨a, a + n⟩).1 hc
    simp only [Span.has_iff] at h2
    have := h (b - a) (by omega) r hr
    rw [show a + (b - a) = b by omega] at this
    simp [this] at h1

/-! ## Acceptance and completion -/

theorem onCommand_busy {s : State} {c : Ctx} {j : Job} (h : s.engine = .busy c j)
    (body : State → Result) : onCommand s body = .next (dropWrite s) := by
  simp [onCommand, h]

theorem onCommand_idle {s : State} (h : s.engine = .idle) (body : State → Result) :
    onCommand s body = body (acceptCommand s) := by
  simp [onCommand, h]

/-- A command answers what its body answers on the accepted state, or the state with DROPPED set. -/
theorem onCommand_cases (s : State) (body : State → Result) :
    (∃ c j, s.engine = .busy c j ∧ onCommand s body = .next (dropWrite s)) ∨
      (s.engine = .idle ∧ onCommand s body = body (acceptCommand s)) := by
  cases h : s.engine with
  | idle => exact .inr ⟨rfl, onCommand_idle h body⟩
  | busy c j => exact .inl ⟨c, j, rfl, onCommand_busy h body⟩

/-- Acceptance reads no register it clears: the captured context is the same before and after
(R240). -/
@[simp] theorem capture_acceptCommand (i : Instr) (s : State) :
    capture i (acceptCommand s) = capture i s := rfl

@[simp] theorem isBusy_idle {s : State} (h : s.engine = .idle) : isBusy s = false := by
  simp [isBusy, h]

@[simp] theorem isBusy_busy {s : State} {c : Ctx} {j : Job} (h : s.engine = .busy c j) :
    isBusy s = true := by
  simp [isBusy, h]

/-- An update of the engine to what it is changes nothing. -/
theorem State.setEngine_self {s : State} {e : Engine} (h : s.engine = e) : s.setEngine e = s := by
  subst h
  rfl

theorem State.setSched_self {s : State} {l : List Turn} (h : s.sched = l) : s.setSched l = s := by
  subst h
  rfl

/-- Launch answers a next state exactly when the ranges are normal memory (R68): the BUSY state while
turns wait, its completion otherwise. -/
theorem launch_cases (c : Ctx) (j : Job) (s : State) :
    (rangesNormal s.inst c = false ∧ launch c j s = .refused .rangeNotNormalMemory) ∨
    (rangesNormal s.inst c = true ∧ s.sched = [] ∧
      launch c j s = .next (finishCommand (setJob c j s))) ∨
    (rangesNormal s.inst c = true ∧ s.sched ≠ [] ∧ launch c j s = .next (setJob c j s)) := by
  unfold launch
  cases hn : rangesNormal s.inst c <;> cases hs : s.sched <;> simp

/-! ## Free bytes -/

@[simp] theorem freeBytes_length (fresh n : Nat) : (freeBytes fresh n).length = n := by
  simp [freeBytes]

/-- Outside the destination range an abandoned or failed command changes nothing (R275, U3). -/
theorem scrambleDest_outside {s : State} (c : Ctx) {a : Nat} (h : Memory.wf s.memory)
    (ha : (destRange c).has a = false) :
    Memory.read (scrambleDest c s).memory a = Memory.read s.memory a := by
  refine Memory.read_writeBytes_outside _ h ?_
  rw [freeBytes_length]
  have : ¬((destRange c).lo ≤ a ∧ a < (destRange c).hi) := by
    rw [← Span.has_iff, ha]
    simp
  simp only [destRange] at this ⊢
  omega

/-- Inside it every byte is a free value (U2, U3). -/
theorem scrambleDest_inside {s : State} (c : Ctx) {i : Nat} (h : Memory.wf s.memory)
    (hi : i < destLength c) :
    Memory.read (scrambleDest c s).memory (c.dst.toNat + i) = Config.freeByte (s.fresh + i) := by
  show Memory.read (Memory.writeBytes s.memory c.dst.toNat (freeBytes s.fresh (destLength c)))
    (c.dst.toNat + i) = _
  rw [Memory.read_writeBytes_inside _ 0 h (by simpa using hi)]
  simp [freeBytes, List.getD_eq_getElem?_getD, hi]

theorem scrambleDest_wf {s : State} (c : Ctx) (h : Memory.wf s.memory) :
    Memory.wf (scrambleDest c s).memory := Memory.writeBytes_wf _ _ h

/-! ## Engine accesses -/

theorem engineRead_some {s : State} {a n : Nat} (h : busOkRange s.inst a n = true) :
    engineRead s a n = some (Memory.readBytes s.memory a n) := by
  simp [engineRead, h]

theorem engineRead_none {s : State} {a n : Nat} (h : busOkRange s.inst a n = false) :
    engineRead s a n = none := by
  simp [engineRead, h]

theorem engineWrite_ok {c : Ctx} {s : State} {a : Nat} {bytes : List Byte} (after : State → State)
    (h : busOkRange s.inst a bytes.length = true) :
    engineWrite c s a bytes after = after (s.setMemory (Memory.writeBytes s.memory a bytes)) := by
  simp [engineWrite, h]

theorem engineWrite_busError {c : Ctx} {s : State} {a : Nat} {bytes : List Byte}
    (after : State → State) (h : busOkRange s.inst a bytes.length = false) :
    engineWrite c s a bytes after = takeBusError c s := by
  simp [engineWrite, h]

end Sys2Proof.Machine
end

