-- ==== Sys2Proof/Laws/Engine.lean ====
section
/-! SUPPORT. What the busy engine's moves can do: the registers a move leaves alone, the measure that every move
lowers, the run to completion, and the compression core and orchestrator against the pure functions
(spec 44_command_control.md R243 to R245, R252; 40_compression.md R131; 42_digest.md R190). -/

namespace Sys2Proof.Machine

/-! ## The compression core -/

/-- The evaluation of CF(V, B) begins on its way to CF(V, B) (R131). -/
theorem coreResult_coreStart (v : HashState) (b : List Byte) : coreResult (coreStart v b) = cf v b := by
  simp only [coreResult, coreStart, cf, Nat.sub_zero, ← List.range_eq_range']

/-- A round that is not the last keeps the result the evaluation is on its way to. -/
theorem coreStep_inl {e e' : CoreEval} (h : coreStep e = .inl e') :
    coreResult e' = coreResult e ∧ e'.round = e.round + 1 ∧ e.round < 63 := by
  unfold coreStep at h
  simp only at h
  split_ifs at h with hr
  cases h
  refine ⟨?_, rfl, hr⟩
  simp only [coreResult]
  rw [show 64 - e.round = (64 - (e.round + 1)) + 1 by omega, List.range'_succ, List.foldl_cons]

/-- The last round answers that result. -/
theorem coreStep_inr {e : CoreEval} {v : HashState} (h : coreStep e = .inr v) (hr : e.round ≤ 63) :
    v = coreResult e := by
  unfold coreStep at h
  simp only at h
  split_ifs at h with hlt
  cases h
  have h63 : e.round = 63 := by omega
  simp only [coreResult, h63]
  rfl

/-- Each round lowers the number of rounds left. -/
theorem coreStep_inl_moves {e e' : CoreEval} (h : coreStep e = .inl e') :
    coreMoves e' + 1 = coreMoves e := by
  obtain ⟨-, hr, hlt⟩ := coreStep_inl h
  simp only [coreMoves, hr]
  omega

theorem coreMoves_pos (e : CoreEval) : 0 < coreMoves e := by
  simp only [coreMoves]
  omega

@[simp] theorem coreMoves_coreStart (v : HashState) (b : List Byte) :
    coreMoves (coreStart v b) = 64 := rfl

/-! ## The orchestrator -/

theorem orchMoves_pos (c : Ctx) (o : Orch) : 0 < orchMoves c o := by
  cases o <;> simp [orchMoves]

/-- A move of the orchestrator lowers the number of its moves left by one or more. -/
theorem orchStep_running_moves {s : State} {c : Ctx} {a : Nat} {o o' : Orch}
    (h : orchStep s c a o = .running o') : orchMoves c o' < orchMoves c o := by
  cases o with
  | fetch =>
    simp only [orchStep, engineRead] at h
    split_ifs at h with hb
    cases h
    simp only [orchMoves, funnelLength, funnel_length _ _ _ _ (Memory.readBytes_length s.memory a 4096)]
    omega
  | absorb buffer v =>
    cases buffer with
    | nil =>
      cases h
      simp [orchMoves, absorbMoves]
    | cons b bs =>
      cases h
      simp only [orchMoves, absorbMoves, coreMoves_coreStart, List.length_drop, List.length_cons]
      omega
  | compress rest e =>
    simp only [orchStep] at h
    cases hc : coreStep e with
    | inl e' =>
      rw [hc] at h
      cases h
      have := coreStep_inl_moves hc
      simp only [orchMoves]
      omega
    | inr v =>
      rw [hc] at h
      cases h
      have := coreMoves_pos e
      simp only [orchMoves]
      omega
  | digest d => cases h

/-- An orchestrator reads nothing but the message's bytes and the instance. -/
theorem orchStep_congr {s t : State} {c : Ctx} {a : Nat} (o : Orch) (hi : t.inst = s.inst)
    (hm : Memory.readBytes t.memory a 4096 = Memory.readBytes s.memory a 4096) :
    orchStep t c a o = orchStep s c a o := by
  cases o with
  | fetch => simp only [orchStep, engineRead, hi, hm]
  | absorb buffer v => cases buffer <;> rfl
  | compress rest e => rfl
  | digest d => rfl

/-- A correct evaluation stays correct (R190). -/
theorem orchStep_running_correct {s : State} {c : Ctx} {a : Nat} {o o' : Orch}
    (hl : funnelLength c % 64 = 0)
    (h : orchStep s c a o = .running o') (hc : orchCorrect s.inst c s.memory a o) :
    orchCorrect s.inst c s.memory a o' := by
  cases o with
  | fetch =>
    simp only [orchStep, engineRead] at h
    split_ifs at h with hb
    cases h
    refine ⟨?_, rfl⟩
    rw [funnel_length _ _ _ _ (Memory.readBytes_length s.memory a 4096)]
    exact hl
  | absorb buffer v =>
    obtain ⟨h0, h1⟩ := hc
    cases buffer with
    | nil =>
      cases h
      show ser v = _
      rw [← h1, cfStar_nil]
    | cons b bs =>
      cases h
      simp only [List.length_cons] at h0
      refine ⟨?_, by simp [coreStart], ?_⟩
      · rw [List.length_drop, List.length_cons]
        omega
      · rw [coreResult_coreStart, cfStar_take_drop _ _ (by rw [List.length_cons]; omega), h1]
  | compress rest e =>
    obtain ⟨h0, hr, h1⟩ := hc
    simp only [orchStep] at h
    cases hs : coreStep e with
    | inl e' =>
      rw [hs] at h
      cases h
      obtain ⟨h2, h3, h4⟩ := coreStep_inl hs
      exact ⟨h0, by omega, by rw [h2, h1]⟩
    | inr v =>
      rw [hs] at h
      cases h
      exact ⟨h0, by rw [coreStep_inr hs hr, h1]⟩
  | digest d => cases h

/-- A correct evaluation that hands its digest over hands over the right one (R190). -/
theorem orchStep_finished_correct {s : State} {c : Ctx} {a : Nat} {o : Orch} {d : List Byte}
    (h : orchStep s c a o = .finished d) (hc : orchCorrect s.inst c s.memory a o) :
    d = ser (cfStar iv (funnelAt s.inst c s.memory a)) := by
  cases o with
  | fetch =>
    simp only [orchStep, engineRead] at h
    split_ifs at h
  | absorb buffer v => cases buffer <;> cases h
  | compress rest e =>
    simp only [orchStep] at h
    cases hs : coreStep e <;> rw [hs] at h <;> cases h
  | digest d' =>
    cases h
    exact hc

/-- Only the reading of the message can meet a bus error (R62). -/
theorem orchStep_busError {s : State} {c : Ctx} {a : Nat} {o : Orch}
    (h : orchStep s c a o = .busError) : o = .fetch ∧ busOkRange s.inst a 4096 = false := by
  cases o with
  | fetch =>
    simp only [orchStep, engineRead] at h
    split_ifs at h with hb
    exact ⟨rfl, by simpa using hb⟩
  | absorb buffer v => cases buffer <;> cases h
  | compress rest e =>
    simp only [orchStep] at h
    cases hs : coreStep e <;> rw [hs] at h <;> cases h
  | digest d => cases h

/-! ## What a move can do -/

/-- Whatever the job, a move of the engine (R243) replaces its job; or replaces a lane; or writes a
digest and advances a lane; or completes; or ends with BusError. -/
theorem engineMove_cases {s : State} {c : Ctx} {job : Job} (turn : Nat) (h : s.engine = .busy c job) :
    (∃ j, engineMove turn s = s.setEngine (.busy c j)) ∨
    (job = .dispatch ∧ ∃ k l l', s.lanes[k]? = some l ∧ engineMove turn s = s.setLanes (s.lanes.set k l')) ∨
    (job = .dispatch ∧ ∃ k l bytes, s.lanes[k]? = some l ∧ l.next < l.hi ∧
      bytes.length ≤ digestBytes c ∧
      engineMove turn s =
        (s.setMemory (Memory.writeBytes s.memory (slotAddr c l.next) bytes)).setLanes
          (s.lanes.set k (laneAdvance l))) ∨
    (∃ k v, job = .compress k v none ∧ c.len.toNat / 64 ≤ k ∧
      engineMove turn s = completeSuccess (s.setHash v)) ∨
    (∃ bytes, job = .funnel (some bytes) ∧
      engineMove turn s =
        completeSuccess (s.setMemory (Memory.writeBytes s.memory c.dst.toNat bytes))) ∨
    (∃ o bytes, job = .digest o ∧ bytes.length ≤ digestBytes c ∧
      engineMove turn s =
        completeSuccess (s.setMemory (Memory.writeBytes s.memory c.dst.toNat bytes))) ∨
    (job = .dispatch ∧ engineMove turn s = completeSuccess (stopLanes s)) ∨
    engineMove turn s = takeBusError c s := by
  have hd : ∀ d : List Byte, (d.take (digestBytes c)).length ≤ digestBytes c := fun d => by
    rw [List.length_take]
    exact Nat.min_le_left _ _
  unfold engineMove
  rw [h]
  cases job with
  | compress k v core =>
    cases core with
    | some e =>
      left
      simp only [compressMove]
      cases coreStep e <;> exact ⟨_, rfl⟩
    | none =>
      simp only [compressMove]
      split_ifs with hk
      · exact .inr (.inr (.inr (.inl ⟨k, v, rfl, hk, rfl⟩)))
      · cases engineRead s (c.src.toNat + 64 * k) 64 with
        | none => exact .inr (.inr (.inr (.inr (.inr (.inr (.inr rfl))))))
        | some b => exact .inl ⟨_, rfl⟩
  | funnel buffer =>
    cases buffer with
    | none =>
      simp only [funnelMove]
      cases engineRead s c.src.toNat 4096 with
      | none => exact .inr (.inr (.inr (.inr (.inr (.inr (.inr rfl))))))
      | some b => exact .inl ⟨_, rfl⟩
    | some b =>
      simp only [funnelMove, engineWrite]
      split_ifs
      · exact .inr (.inr (.inr (.inr (.inl ⟨b, rfl, rfl⟩))))
      · exact .inr (.inr (.inr (.inr (.inr (.inr (.inr rfl))))))
  | digest o =>
    simp only [digestMove]
    cases orchStep s c c.src.toNat o with
    | running o' => exact .inl ⟨_, rfl⟩
    | finished d =>
      simp only [engineWrite]
      split_ifs
      · exact .inr (.inr (.inr (.inr (.inr (.inl ⟨o, _, rfl, hd d, rfl⟩)))))
      · exact .inr (.inr (.inr (.inr (.inr (.inr (.inr rfl))))))
    | busError => exact .inr (.inr (.inr (.inr (.inr (.inr (.inr rfl))))))
  | dispatch =>
    simp only [dispatchMove]
    cases pickLane turn s.lanes with
    | none => exact .inr (.inr (.inr (.inr (.inr (.inr (.inl ⟨trivial, rfl⟩))))))
    | some k =>
      cases hl : s.lanes[k]? with
      | none => exact .inr (.inr (.inr (.inr (.inr (.inr (.inl ⟨trivial, by simp only [hl]⟩))))))
      | some l =>
        simp only [hl, laneMove]
        split_ifs with hn
        · exact .inr (.inl ⟨trivial, k, l, _, hl, rfl⟩)
        · cases orchStep s c (messageAddr c l.next) l.orch with
          | running o' => exact .inr (.inl ⟨trivial, k, l, _, hl, rfl⟩)
          | finished d =>
            simp only [engineWrite]
            split_ifs
            · exact .inr (.inr (.inl ⟨trivial, k, l, _, hl, by omega, hd d, rfl⟩))
            · exact .inr (.inr (.inr (.inr (.inr (.inr (.inr rfl))))))
          | busError => exact .inr (.inr (.inr (.inr (.inr (.inr (.inr rfl))))))

/-- The fields no move of the engine changes: the instance, every register but STATE0..7 and STATUS,
and what the host will do (R243, R35). -/
structure SameOutside (s t : State) : Prop where
  inst : t.inst = s.inst
  irqEn : t.irqEn = s.irqEn
  config : t.config = s.config
  src : t.src = s.src
  dst : t.dst = s.dst
  len : t.len = s.len
  count : t.count = s.count
  inputs : t.inputs = s.inputs
  sched : t.sched = s.sched
  response : t.response = s.response
  dropped : t.status.dropped = s.status.dropped

theorem SameOutside.refl (s : State) : SameOutside s s :=
  ⟨rfl, rfl, rfl, rfl, rfl, rfl, rfl, rfl, rfl, rfl, rfl⟩

theorem SameOutside.trans {s t u : State} (h : SameOutside s t) (h' : SameOutside t u) :
    SameOutside s u :=
  ⟨h'.inst.trans h.inst, h'.irqEn.trans h.irqEn, h'.config.trans h.config, h'.src.trans h.src,
    h'.dst.trans h.dst, h'.len.trans h.len, h'.count.trans h.count, h'.inputs.trans h.inputs,
    h'.sched.trans h.sched, h'.response.trans h.response, h'.dropped.trans h.dropped⟩

theorem engineMove_idle {s : State} (turn : Nat) (h : s.engine = .idle) : engineMove turn s = s := by
  simp [engineMove, h]

theorem engineMove_sameOutside (turn : Nat) (s : State) : SameOutside s (engineMove turn s) := by
  cases h : s.engine with
  | idle => rw [engineMove_idle turn h]; exact SameOutside.refl s
  | busy c job =>
    rcases engineMove_cases turn h with ⟨_, e⟩ | ⟨_, _, _, _, _, e⟩ | ⟨_, _, _, _, _, _, _, e⟩ |
      ⟨_, _, _, _, e⟩ | ⟨_, _, e⟩ | ⟨_, _, _, _, e⟩ | ⟨_, e⟩ | e <;> rw [e] <;>
      exact ⟨rfl, rfl, rfl, rfl, rfl, rfl, rfl, rfl, rfl, rfl, rfl⟩

/-! ## The measure and the run to completion -/

theorem movesLeft_idle {s : State} (h : s.engine = .idle) : movesLeft s = 0 := by
  simp [movesLeft, h]

theorem movesLeft_pos {s : State} {c : Ctx} {job : Job} (h : s.engine = .busy c job) :
    0 < movesLeft s := by
  cases job with
  | compress k v core => cases core <;> simp [movesLeft, h]
  | funnel buffer => cases buffer <;> simp [movesLeft, h]
  | digest o => simpa [movesLeft, h] using orchMoves_pos c o
  | dispatch => simp [movesLeft, h]

theorem movesLeft_takeBusError (c : Ctx) (s : State) : movesLeft (takeBusError c s) = 0 := rfl

theorem movesLeft_completeSuccess (s : State) : movesLeft (completeSuccess s) = 0 := rfl

theorem sum_set_lt {f : Lane → Nat} {ls : List Lane} {k : Nat} {l l' : Lane}
    (hl : ls[k]? = some l) (h : f l' < f l) : ((ls.set k l').map f).sum < (ls.map f).sum := by
  induction ls generalizing k with
  | nil => simp at hl
  | cons x ls ih =>
    cases k with
    | zero =>
      simp at hl
      subst hl
      simpa using h
    | succ k =>
      have := ih (k := k) (by simpa using hl)
      simpa using this

theorem pickLane_active {turn k : Nat} {ls : List Lane} (h : pickLane turn ls = some k) :
    ∃ l, ls[k]? = some l ∧ l.active = true := by
  have hf : ∀ {k}, ls.findIdx? (fun l => l.active) = some k → ∃ l, ls[k]? = some l ∧ l.active = true := by
    intro k hk
    obtain ⟨h1, h2, -⟩ := List.findIdx?_eq_some_iff_getElem.1 hk
    exact ⟨ls[k], by simp [h1], h2⟩
  unfold pickLane at h
  cases ht : ls[turn]? with
  | none => rw [ht] at h; exact hf h
  | some l =>
    rw [ht] at h
    simp only at h
    split_ifs at h with ha
    · cases h; exact ⟨l, ht, ha⟩
    · exact hf h

/-- Every move of a lane lowers the number of moves left (R252). -/
theorem laneMove_lt {s : State} {c : Ctx} {k : Nat} {l : Lane} (he : s.engine = .busy c .dispatch)
    (hl : s.lanes[k]? = some l) (ha : l.active = true) : movesLeft (laneMove c k l s) < movesLeft s := by
  have hp := movesLeft_pos he
  have hset : ∀ (t : State) (l' : Lane), t.engine = .busy c .dispatch → t.lanes = s.lanes.set k l' →
      laneMoves c l' < laneMoves c l → movesLeft t < movesLeft s := by
    intro t l' hte htl hlt
    have := sum_set_lt (f := laneMoves c) hl hlt
    simp only [movesLeft, hte, he, htl]
    omega
  unfold laneMove
  split_ifs with hn
  · refine hset _ _ he rfl ?_
    simp [laneMoves, ha, hn]
  · cases ho : orchStep s c (messageAddr c l.next) l.orch with
    | running o =>
      have := orchStep_running_moves ho
      refine hset _ _ he rfl ?_
      simp only [laneMoves, ha, hn, if_true, if_false]
      omega
    | finished d =>
      simp only [engineWrite]
      split_ifs
      · refine hset _ _ he rfl ?_
        have := orchMoves_pos c l.orch
        have hf : orchMoves c .fetch = absorbMoves (funnelLength c) + 3 := rfl
        simp only [laneMoves, laneAdvance, ha, hn, if_true, if_false, hf]
        split_ifs with h2
        · omega
        · rw [show l.hi - l.next - 1 = (l.hi - (l.next + 1) - 1) + 1 by omega, Nat.succ_mul]
          omega
      · rw [movesLeft_takeBusError]
        exact hp
    | busError =>
      simp only
      rw [movesLeft_takeBusError]
      exact hp

/-- Every move of the busy engine brings its completion nearer, whatever the state (R252). -/
theorem engineMove_lt {s : State} (turn : Nat) (h : s.engine ≠ .idle) :
    movesLeft (engineMove turn s) < movesLeft s := by
  cases he : s.engine with
  | idle => exact absurd he h
  | busy c job =>
    have hp := movesLeft_pos he
    have hdone : ∀ t : State, movesLeft t = 0 → movesLeft t < movesLeft s := fun t ht => ht ▸ hp
    unfold engineMove
    rw [he]
    cases job with
    | compress k v core =>
      cases core with
      | some e =>
        simp only [compressMove]
        cases hc : coreStep e with
        | inl e' =>
          have := coreStep_inl_moves hc
          simp only [movesLeft, setJob, State.setEngine_engine, he]
          omega
        | inr v' =>
          have := coreMoves_pos e
          simp only [movesLeft, setJob, State.setEngine_engine, he]
          omega
      | none =>
        simp only [compressMove]
        split_ifs with hk
        · exact hdone _ rfl
        · cases engineRead s (c.src.toNat + 64 * k) 64 with
          | none => exact hdone _ rfl
          | some b =>
            simp only [movesLeft, setJob, State.setEngine_engine, he, coreMoves_coreStart]
            omega
    | funnel buffer =>
      cases buffer with
      | none =>
        simp only [funnelMove]
        cases engineRead s c.src.toNat 4096 with
        | none => exact hdone _ rfl
        | some b => simp [movesLeft, setJob, he]
      | some b =>
        simp only [funnelMove, engineWrite]
        split_ifs <;> exact hdone _ rfl
    | digest o =>
      simp only [digestMove]
      cases ho : orchStep s c c.src.toNat o with
      | running o' => simpa [movesLeft, setJob, he] using orchStep_running_moves ho
      | finished d =>
        simp only [engineWrite]
        split_ifs <;> exact hdone _ rfl
      | busError => exact hdone _ rfl
    | dispatch =>
      simp only [dispatchMove]
      cases hk : pickLane turn s.lanes with
      | none => exact hdone _ rfl
      | some k =>
        obtain ⟨l, hl, ha⟩ := pickLane_active hk
        simp only [hl]
        exact laneMove_lt he hl ha

@[simp] theorem runEngine_idle {s : State} (n : Nat) (h : s.engine = .idle) : runEngine n s = s := by
  cases n <;> simp [runEngine, h]

theorem runEngine_succ_busy {s : State} (n : Nat) (h : s.engine ≠ .idle) :
    runEngine (n + 1) s = runEngine n (engineMove 0 s) := by
  cases he : s.engine with
  | idle => exact absurd he h
  | busy c job => simp [runEngine, he]

/-- With as many moves as are left, the engine ends idle. -/
theorem runEngine_completes {n : Nat} {s : State} (h : movesLeft s ≤ n) :
    (runEngine n s).engine = .idle := by
  induction n generalizing s with
  | zero =>
    by_contra hc
    cases he : s.engine with
    | idle => exact hc he
    | busy c job => exact absurd (movesLeft_pos he) (by omega)
  | succ n ih =>
    by_cases hi : s.engine = .idle
    · rw [runEngine_idle _ hi, hi]
    · rw [runEngine_succ_busy _ hi]
      exact ih (by have := engineMove_lt 0 hi; omega)

/-- More moves than are left change nothing. -/
theorem runEngine_enough {n m : Nat} {s : State} (hn : movesLeft s ≤ n) (hm : movesLeft s ≤ m) :
    runEngine n s = runEngine m s := by
  induction n generalizing s m with
  | zero =>
    have hi : s.engine = .idle := runEngine_completes (n := 0) hn
    rw [runEngine_idle _ hi, runEngine_idle _ hi]
  | succ n ih =>
    by_cases hi : s.engine = .idle
    · rw [runEngine_idle _ hi, runEngine_idle _ hi]
    · have := engineMove_lt 0 hi
      cases m with
      | zero => omega
      | succ m =>
        rw [runEngine_succ_busy _ hi, runEngine_succ_busy _ hi]
        exact ih (by omega) (by omega)

theorem finishCommand_idle {s : State} (h : s.engine = .idle) : finishCommand s = s :=
  runEngine_idle _ h

/-- The run to completion may be taken one move of the first active lane at a time. -/
theorem finishCommand_move {s : State} (h : s.engine ≠ .idle) :
    finishCommand s = finishCommand (engineMove 0 s) := by
  have hlt := engineMove_lt 0 h
  obtain ⟨n, hn⟩ : ∃ n, movesLeft s = n + 1 := ⟨movesLeft s - 1, by omega⟩
  rw [finishCommand, hn, runEngine_succ_busy _ h]
  exact runEngine_enough (by omega) (Nat.le_refl _)

theorem finishCommand_engine (s : State) : (finishCommand s).engine = .idle :=
  runEngine_completes (Nat.le_refl _)

/-- A property that every move keeps holds after the run to completion. -/
theorem finishCommand_induction {P : State → Prop} {s : State} (h0 : P s)
    (hm : ∀ t, t.engine ≠ .idle → P t → P (engineMove 0 t)) : P (finishCommand s) := by
  have : ∀ n t, P t → P (runEngine n t) := by
    intro n
    induction n with
    | zero => exact fun t ht => ht
    | succ n ih =>
      intro t ht
      by_cases hi : t.engine = .idle
      · rw [runEngine_idle _ hi]; exact ht
      · rw [runEngine_succ_busy _ hi]; exact ih _ (hm t hi ht)
  exact this _ s h0

theorem finishCommand_sameOutside (s : State) : SameOutside s (finishCommand s) :=
  finishCommand_induction (P := SameOutside s) (SameOutside.refl s) fun t _ ht =>
    ht.trans (engineMove_sameOutside 0 t)

end Sys2Proof.Machine
end

