-- ==== Sys2Proof/Laws/Commands.lean ====
section
/-! SUPPORT. One lemma for each command, saying what it answers from an idle engine in terms of the state it
was written in: the pre-checks in the order of its rule, then its own effect (spec
44_command_control.md R242). -/

namespace Sys2Proof.Machine

/-- STATUS after completion with an error at acceptance (R242, R270). -/
def statusOfError (e : ErrorCode) (t : Status) : Status := ⟨true, true, t.dropped, errorNumber e⟩

/-- STATUS after completion with success (R244). -/
def statusOfSuccess (t : Status) : Status := ⟨true, false, t.dropped, 0#4⟩

/-- An error at acceptance changes STATUS alone. -/
theorem takeError_acceptCommand {s : State} (h : s.engine = .idle) (e : ErrorCode) :
    takeError e (acceptCommand s) = s.setStatus (statusOfError e s.status) := by
  simp only [takeError, acceptCommand, State.setStatus, State.setEngine, statusFailed, statusAccepted,
    statusOfError, ← h]

/-- Success at acceptance changes STATUS alone. -/
theorem completeSuccess_acceptCommand {s : State} (h : s.engine = .idle) :
    completeSuccess (acceptCommand s) = s.setStatus (statusOfSuccess s.status) := by
  simp only [completeSuccess, acceptCommand, State.setStatus, State.setEngine, statusSucceeded,
    statusAccepted, statusOfSuccess, ← h]

/-- While BUSY every command is dropped (R241). -/
theorem exec_busy {s : State} {c : Ctx} {j : Job} (h : s.engine = .busy c j) (i : Instr) :
    exec i s = .next (dropWrite s) := by
  cases i <;> simp only [exec, execNop, execInit, execCompress, execFunnel, execDigest, execDispatch,
    onCommand_busy h]

theorem not_two_checks (r : Bool) (p : Prop) [Decidable p] :
    (!(r && decide p)) = true ↔ ¬(r = true ∧ p) := by
  cases r <;> simp

theorem not_three_checks (r : Bool) (p q : Prop) [Decidable p] [Decidable q] :
    (!(r && decide p && decide q)) = true ↔ ¬(r = true ∧ p ∧ q) := by
  rw [Bool.not_eq_true', Bool.eq_false_iff, Ne, Bool.and_eq_true, Bool.and_eq_true,
    decide_eq_true_eq, decide_eq_true_eq, and_assoc]

theorem execCompress_idle {s : State} (h : s.engine = .idle) :
    exec .compress s =
      if s.len.toNat % 64 ≠ 0 then .next (s.setStatus (statusOfError .invalidInputLength s.status))
      else if rangeFails (capture .compress s) then
        .next (s.setStatus (statusOfError .rangeError s.status))
      else if s.len.toNat = 0 then .next (s.setStatus (statusOfSuccess s.status))
      else launch (capture .compress s) (.compress 0 s.hash none) (acceptCommand s) := by
  simp only [← takeError_acceptCommand h, ← completeSuccess_acceptCommand h]
  simp only [exec, execCompress, onCommand_idle h]
  rfl

theorem execFunnel_idle {s : State} (h : s.engine = .idle) :
    exec .funnel s =
      if ¬(ratioSupported s.inst (configRatio s.config).toNat = true ∧
          (configMix s.config).toNat ≤ 1) then
        .next (s.setStatus (statusOfError .invalidConfiguration s.status))
      else if s.len.toNat ≠ 4096 then
        .next (s.setStatus (statusOfError .invalidInputLength s.status))
      else if rangeFails (capture .funnel s) then
        .next (s.setStatus (statusOfError .rangeError s.status))
      else launch (capture .funnel s) (.funnel none) (acceptCommand s) := by
  simp only [← takeError_acceptCommand h]
  simp only [exec, execFunnel, onCommand_idle h]
  exact if_congr (not_two_checks _ _) rfl rfl

theorem execDigest_idle {s : State} (h : s.engine = .idle) :
    exec .digest s =
      if ¬(ratioSupported s.inst (configRatio s.config).toNat = true ∧
          (configMix s.config).toNat ≤ 1 ∧ (configWidth s.config).toNat ≤ 1) then
        .next (s.setStatus (statusOfError .invalidConfiguration s.status))
      else if s.len.toNat ≠ 4096 then
        .next (s.setStatus (statusOfError .invalidInputLength s.status))
      else if rangeFails (capture .digest s) then
        .next (s.setStatus (statusOfError .rangeError s.status))
      else launch (capture .digest s) (.digest .fetch) (acceptCommand s) := by
  simp only [← takeError_acceptCommand h]
  simp only [exec, execDigest, onCommand_idle h]
  exact if_congr (not_three_checks _ _ _) rfl rfl

theorem execDispatch_idle {s : State} (h : s.engine = .idle) (aff : Bool) (workers : Nat) :
    exec (.dispatch aff workers) s =
      if ¬(ratioSupported s.inst (configRatio s.config).toNat = true ∧
          (configMix s.config).toNat ≤ 1 ∧ (configWidth s.config).toNat ≤ 1) then
        .next (s.setStatus (statusOfError .invalidConfiguration s.status))
      else if s.len.toNat ≠ 4096 then
        .next (s.setStatus (statusOfError .invalidInputLength s.status))
      else if rangeFails (capture (.dispatch aff workers) s) then
        .next (s.setStatus (statusOfError .rangeError s.status))
      else if !lanesAvailable s.inst workers then
        .next (s.setStatus (statusOfError .workerCreationFailure s.status))
      else if s.count.toNat = 0 then .next (s.setStatus (statusOfSuccess s.status))
      else
        launch (capture (.dispatch aff workers) s) .dispatch
          ((acceptCommand s).setLanes
            (startLanes s.inst.numLanes s.count.toNat (effectiveWorkers s.inst workers))) := by
  simp only [← takeError_acceptCommand h, ← completeSuccess_acceptCommand h]
  simp only [exec, execDispatch, onCommand_idle h]
  exact if_congr (not_three_checks _ _ _) rfl rfl

end Sys2Proof.Machine
end

