-- ==== Sys2Proof/Laws/Invariant.lean ====
section
/-! SUPPORT. What the invariant gives a busy state, and that every move of the engine keeps it (spec
44_command_control.md R243 to R245; 20_memory.md R65 to R67, R74). -/

namespace Sys2Proof.Machine

/-! ## What the pre-checks give -/

theorem ratio_cases {p : Instance} {r : Nat} (h : ratioSupported p r = true) :
    r = 8 ∨ r = 16 ∨ r = 32 ∨ r = 64 ∨ r = 1 ∨ r = 2 ∨ r = 4 := by
  simp only [ratioSupported, Bool.or_eq_true, Bool.and_eq_true, beq_iff_eq] at h
  omega

/-- A supported ratio gives a funnel output of whole blocks (R160, R192). -/
theorem funnelLength_mod {p : Instance} {c : Ctx} (h : ratioLegal p c = true) :
    funnelLength c % 64 = 0 := by
  unfold funnelLength
  rcases ratio_cases h with h | h | h | h | h | h | h <;> rw [h]

/-- The command of a context that passed its pre-checks is one of the four with memory work. -/
theorem passesChecks_ranges {p : Instance} {c : Ctx} (h : passesChecks p c) :
    (sourceRange c).hi ≤ busTop ∧ (destRange c).hi ≤ busTop ∧
      ∀ a, (sourceRange c).has a = true → (destRange c).has a = false := by
  have hr := h.2.1
  simp only [rangeFails, rangeWraps, Bool.or_eq_false_iff, decide_eq_false_iff_not, Nat.not_lt] at hr
  refine ⟨hr.1.1, hr.1.2, fun a h1 => ?_⟩
  by_contra h2
  rw [Bool.not_eq_false] at h2
  exact absurd ((Span.meets_iff _ _).2 ⟨a, h1, h2⟩) (by rw [← rangesOverlap, hr.2]; decide)

/-- Bytes written inside the destination range leave every source byte as it was (R67, R74). -/
theorem read_source_of_write {p : Instance} {c : Ctx} {m : Memory} {a n : Nat} (bs : List Byte)
    (hp : passesChecks p c) (hm : Memory.wf m)
    (hlo : (destRange c).lo ≤ a) (hhi : a + bs.length ≤ (destRange c).hi)
    {b : Nat} (hb : (sourceRange c).lo ≤ b) (hbn : b + n ≤ (sourceRange c).hi) :
    Memory.readBytes (Memory.writeBytes m a bs) b n = Memory.readBytes m b n := by
  refine Memory.readBytes_congr fun i hi => Memory.read_writeBytes_outside bs hm ?_
  by_contra hc
  have h1 : (sourceRange c).has (b + i) = true := (Span.has_iff _ _).2 ⟨by omega, by omega⟩
  have h2 := (passesChecks_ranges hp).2.2 _ h1
  have : (destRange c).has (b + i) = true := (Span.has_iff _ _).2 ⟨by omega, by omega⟩
  rw [this] at h2
  exact absurd h2 (by decide)

/-- An engine access inside the source range of a command that meets no bus error completes. -/
theorem busOkRange_source {p : Instance} {c : Ctx} {a n : Nat} (h : busFails p c = false)
    (h1 : (sourceRange c).lo ≤ a) (h2 : a + n ≤ (sourceRange c).hi) : busOkRange p a n = true := by
  rw [busOkRange_iff]
  intro i hi
  by_contra hc
  rw [Bool.not_eq_true] at hc
  have := (busFails_iff p c).2 ⟨a + i, .inl ((Span.has_iff _ _).2 ⟨by omega, by omega⟩), hc⟩
  simp [this] at h

/-- The same for the destination range. -/
theorem busOkRange_dest {p : Instance} {c : Ctx} {a n : Nat} (h : busFails p c = false)
    (h1 : (destRange c).lo ≤ a) (h2 : a + n ≤ (destRange c).hi) : busOkRange p a n = true := by
  rw [busOkRange_iff]
  intro i hi
  by_contra hc
  rw [Bool.not_eq_true] at hc
  have := (busFails_iff p c).2 ⟨a + i, .inr ((Span.has_iff _ _).2 ⟨by omega, by omega⟩), hc⟩
  simp [this] at h

/-- One more block behind: CFstar(V, s ‖ B) = CF(CFstar(V, s), B) for a string of whole blocks
(R134). -/
theorem cfStar_snoc (v : HashState) (x b : List Byte) (hx : x.length % 64 = 0)
    (hb : b.length = 64) : cfStar v (x ++ b) = cf (cfStar v x) b := by
  induction h : x.length / 64 generalizing v x with
  | zero =>
    have : x = [] := List.length_eq_zero_iff.1 (by omega)
    subst this
    have := cfStar_cons v b [] hb
    rwa [List.append_nil, cfStar_nil] at this
  | succ n ih =>
    have h64 : 64 ≤ x.length := by omega
    rw [← cfStar_take_drop v (x ++ b) (by rw [List.length_append]; omega),
      List.take_append_of_le_length h64, List.drop_append_of_le_length h64,
      ih (cf v (x.take 64)) (x.drop 64) (by rw [List.length_drop]; omega)
        (by rw [List.length_drop]; omega),
      cfStar_take_drop v x h64]

/-! ## Partitions -/

/-- Every partition lies in 0..N-1 (R212). -/
theorem partitionAt_le {n w k : Nat} (hk : k < w) :
    (partitionAt n w k).1 ≤ (partitionAt n w k).2 ∧ (partitionAt n w k).2 ≤ n := by
  have h : ∀ j, j ≤ w → j * (n / w) ≤ n := fun j hj =>
    (Nat.mul_le_mul_right _ hj).trans (Nat.mul_div_le n w)
  simp only [partitionAt]
  split_ifs with hh
  · exact ⟨Nat.mul_le_mul_right _ (Nat.le_succ k), h _ (by omega)⟩
  · exact ⟨h _ (by omega), Nat.le_refl n⟩

/-- Every message falls in some partition (R212). -/
theorem partitionAt_covers {n w i : Nat} (hw : 1 ≤ w) (hi : i < n) :
    ∃ k, k < w ∧ (partitionAt n w k).1 ≤ i ∧ i < (partitionAt n w k).2 := by
  by_cases hq : n / w = 0
  · refine ⟨w - 1, by omega, ?_, ?_⟩ <;> simp [partitionAt, hq, hi]
  · have hq' : 0 < n / w := Nat.pos_of_ne_zero hq
    refine ⟨min (i / (n / w)) (w - 1), by omega, ?_, ?_⟩
    · rw [partitionAt, ← Nat.le_div_iff_mul_le hq']
      omega
    · simp only [partitionAt]
      split_ifs with h
      · rw [← Nat.div_lt_iff_lt_mul hq']
        omega
      · exact hi

/-! ## Ends of a command -/

theorem inv_takeBusError {s : State} {c : Ctx} {job : Job} (hi : Inv s)
    (he : s.engine = .busy c job) : Inv (takeBusError c s) := by
  have hes := hi.engine_sound
  simp only [engineSound, he] at hes
  have hd := (passesChecks_ranges hes.1).2.1
  exact {
    instance_legal := hi.instance_legal
    memory_canonical := Memory.writeBytes_wf _ _ hi.memory_canonical
    memory_bounded := Memory.writeBytes_inBusSpace _ (by simpa [destRange] using hd) hi.memory_bounded
    config_reserved := hi.config_reserved
    errcode_zero := fun h => absurd h (by simp [takeBusError, takeError, statusFailed])
    errcode_code := fun _ => by simp [takeBusError, takeError, statusFailed, errorNumber]
    lane_count := by simp [takeBusError, takeError, stopLanes, scrambleDest]
    engine_sound := rfl
    work_correct := trivial
    before_sound := trivial }

/-- A busy command that completes with success, its memory and STATE0..7 replaced, its lanes stopped. -/
theorem inv_completeSuccess {s t : State} {c : Ctx} {job : Job} (hi : Inv s)
    (he : s.engine = .busy c job) (hm : Memory.wf t.memory) (hb : Memory.inBusSpace t.memory)
    (hin : t.inst = s.inst) (hc : t.config = s.config) (hs : t.status = s.status)
    (hl : t.lanes = List.replicate t.inst.numLanes laneIdle) : Inv (completeSuccess t) := by
  have hes := hi.engine_sound
  simp only [engineSound, he] at hes
  exact {
    instance_legal := by rw [completeSuccess]; exact hin ▸ hi.instance_legal
    memory_canonical := hm
    memory_bounded := hb
    config_reserved := by
      show t.config &&& _ = _
      rw [hc]
      exact hi.config_reserved
    errcode_zero := fun _ => by
      show t.status.errcode = _
      rw [hs]
      exact hi.errcode_zero hes.2.2.2.2.2
    errcode_code := fun h => by
      have : t.status.err = true := h
      rw [hs, hes.2.2.2.2.2] at this
      exact absurd this (by decide)
    lane_count := by
      show t.lanes.length = t.inst.numLanes
      rw [hl, List.length_replicate]
    engine_sound := hl
    work_correct := trivial
    before_sound := trivial }

/-- A busy command whose job is replaced by one that is as sound. -/
theorem inv_setJob {s : State} {c : Ctx} {job job' : Job} (hi : Inv s)
    (he : s.engine = .busy c job) (hj : jobSound s.inst c s.lanes job') (hnd : job ≠ .dispatch)
    (hw : workCorrect (setJob c job' s)) : Inv (setJob c job' s) := by
  have hes := hi.engine_sound
  have hbs := hi.before_sound
  simp only [engineSound, he] at hes
  simp only [beforeSound, he] at hbs
  exact {
    instance_legal := hi.instance_legal
    memory_canonical := hi.memory_canonical
    memory_bounded := hi.memory_bounded
    config_reserved := hi.config_reserved
    errcode_zero := hi.errcode_zero
    errcode_code := hi.errcode_code
    lane_count := hi.lane_count
    engine_sound := ⟨hes.1, hes.2.1, hj, fun _ => hes.2.2.2.1 hnd, hes.2.2.2.2⟩
    work_correct := hw
    before_sound := hbs }

/-! ## Moves -/

theorem compressMove_inv {s : State} {c : Ctx} {k : Nat} {v : HashState} {core : Option CoreEval}
    (hi : Inv s) (he : s.engine = .busy c (.compress k v core)) :
    Inv (compressMove c k v core s) := by
  have hes := hi.engine_sound
  have hw := hi.work_correct
  simp only [engineSound, he] at hes
  simp only [workCorrect, he] at hw
  obtain ⟨hp, hcap, hj, hl, hst⟩ := hes
  cases core with
  | none =>
    obtain ⟨hcmd, hk⟩ := hj
    simp only [compressMove]
    split_ifs with hlen
    · exact inv_completeSuccess hi he hi.memory_canonical hi.memory_bounded rfl rfl rfl
        (hl (by simp))
    · unfold engineRead
      split_ifs with hb
      · refine inv_setJob hi he ⟨hcmd, by omega, by simp [coreStart]⟩ (by simp) ?_
        show coreResult _ = _
        rw [coreResult_coreStart, Nat.mul_succ, Memory.readBytes_append,
          cfStar_snoc _ _ _ (by simp) (by simp), hw]
        rfl
      · exact inv_takeBusError hi he
  | some e =>
    obtain ⟨hcmd, hk, hr⟩ := hj
    simp only [compressMove]
    cases hs : coreStep e with
    | inl e' =>
      obtain ⟨h2, h3, h4⟩ := coreStep_inl hs
      refine inv_setJob hi he ⟨hcmd, hk, by omega⟩ (by simp) ?_
      show coreResult _ = _
      rw [h2]
      exact hw
    | inr v' =>
      refine inv_setJob hi he ⟨hcmd, by omega⟩ (by simp) ?_
      show v' = _
      rw [coreStep_inr hs hr]
      exact hw

theorem funnelMove_inv {s : State} {c : Ctx} {buffer : Option (List Byte)} (hi : Inv s)
    (he : s.engine = .busy c (.funnel buffer)) : Inv (funnelMove c buffer s) := by
  have hes := hi.engine_sound
  have hw := hi.work_correct
  simp only [engineSound, he] at hes
  simp only [workCorrect, he] at hw
  obtain ⟨hp, hcap, hj, hl, hst⟩ := hes
  cases buffer with
  | none =>
    simp only [funnelMove, engineRead]
    split_ifs with hb
    · refine inv_setJob hi he ⟨hj, ?_⟩ (by simp) rfl
      exact funnel_length _ _ _ _ (Memory.readBytes_length _ _ _)
    · exact inv_takeBusError hi he
  | some b =>
    obtain ⟨hcmd, hlen⟩ := hj
    simp only [funnelMove, engineWrite]
    split_ifs with hb
    · have hd := (passesChecks_ranges hp).2.1
      refine inv_completeSuccess hi he (Memory.writeBytes_wf _ _ hi.memory_canonical)
        (Memory.writeBytes_inBusSpace _ ?_ hi.memory_bounded) rfl rfl rfl (hl (by simp))
      rw [hlen]
      simpa [destRange, destLength, hcmd] using hd
    · exact inv_takeBusError hi he

theorem digestMove_inv {s : State} {c : Ctx} {o : Orch} (hi : Inv s)
    (he : s.engine = .busy c (.digest o)) : Inv (digestMove c o s) := by
  have hes := hi.engine_sound
  have hw := hi.work_correct
  simp only [engineSound, he] at hes
  simp only [workCorrect, he] at hw
  obtain ⟨hp, hcap, hj, hl, hst⟩ := hes
  have hcmd : c.cmd = .digest := hj
  have hrat : ratioLegal s.inst c = true := by
    have := hp.2.2
    rw [hcmd] at this
    exact this.1
  simp only [digestMove]
  cases ho : orchStep s c c.src.toNat o with
  | running o' =>
    exact inv_setJob hi he hj (by simp) (orchStep_running_correct (funnelLength_mod hrat) ho hw)
  | finished d =>
    simp only [engineWrite]
    split_ifs with hb
    · have hd := (passesChecks_ranges hp).2.1
      refine inv_completeSuccess hi he (Memory.writeBytes_wf _ _ hi.memory_canonical)
        (Memory.writeBytes_inBusSpace _ ?_ hi.memory_bounded) rfl rfl rfl (hl (by simp))
      simp only [destRange, destLength, hcmd] at hd
      rw [List.length_take]
      omega
    · exact inv_takeBusError hi he
  | busError => exact inv_takeBusError hi he

/-! ## DISPATCH -/

/-- Evaluations and digests read nothing of memory but their message. -/
theorem orchCorrect_congr {p : Instance} {c : Ctx} {m m' : Memory} {a : Nat} {o : Orch}
    (h : Memory.readBytes m' a 4096 = Memory.readBytes m a 4096) (ho : orchCorrect p c m a o) :
    orchCorrect p c m' a o := by
  have hf : funnelAt p c m' a = funnelAt p c m a := by rw [funnelAt, h, funnelAt]
  cases o with
  | fetch => trivial
  | absorb buffer v => simpa only [orchCorrect, hf] using ho
  | compress rest e => simpa only [orchCorrect, hf] using ho
  | digest d => simpa only [orchCorrect, hf] using ho

theorem digestAt_congr {p : Instance} {c : Ctx} {m m' : Memory} {a : Nat}
    (h : Memory.readBytes m' a 4096 = Memory.readBytes m a 4096) :
    digestAt p c m' a = digestAt p c m a := by rw [digestAt, h, digestAt]

/-- The final value of a destination byte depends on the source bytes alone (R77 item 2). -/
theorem finalByte_congr {p : Instance} {c : Ctx} {m m' : Memory} {a : Nat}
    (h : ∀ b, (sourceRange c).has b = true → Memory.read m' b = Memory.read m b)
    (ha : (destRange c).has a = true) : finalByte p c m' a = finalByte p c m a := by
  have ha := (Span.has_iff _ _).1 ha
  have hs : ∀ x n, (sourceRange c).lo ≤ x → x + n ≤ (sourceRange c).hi →
      Memory.readBytes m' x n = Memory.readBytes m x n := fun x n h1 h2 =>
    Memory.readBytes_congr fun i hi => h _ ((Span.has_iff _ _).2 ⟨by omega, by omega⟩)
  simp only [sourceRange, destRange, sourceLength, destLength] at hs ha
  unfold finalByte
  cases hc : c.cmd <;> simp only [hc] at hs ha ⊢ <;> try omega
  · rw [funnelAt, hs _ 4096 (Nat.le_refl _) (Nat.le_refl _), funnelAt]
  · rw [digestAt_congr (hs _ 4096 (Nat.le_refl _) (Nat.le_refl _))]
  · have hw := digestBytes_pos c
    have hlt : (a - c.dst.toNat) / digestBytes c < c.count.toNat := by
      rw [Nat.div_lt_iff_lt_mul hw]
      omega
    rw [digestAt_congr (hs (messageAddr c ((a - c.dst.toNat) / digestBytes c)) 4096
      (Nat.le_add_right _ _) (by simp only [messageAddr]; omega))]

/-- The ranges of a DISPATCH (R65). -/
theorem dispatch_ranges {c : Ctx} {aff : Bool} {workers : Nat} (h : c.cmd = .dispatch aff workers) :
    sourceRange c = ⟨c.src.toNat, c.src.toNat + c.count.toNat * 4096⟩ ∧
      destRange c = ⟨c.dst.toNat, c.dst.toNat + c.count.toNat * digestBytes c⟩ := by
  simp [sourceRange, destRange, sourceLength, destLength, h]

/-- Message i of a DISPATCH lies in its source range, slot i in its destination range (R214, R215). -/
theorem dispatch_item {c : Ctx} {aff : Bool} {workers i : Nat} (h : c.cmd = .dispatch aff workers)
    (hi : i < c.count.toNat) :
    (sourceRange c).lo ≤ messageAddr c i ∧ messageAddr c i + 4096 ≤ (sourceRange c).hi ∧
      (destRange c).lo ≤ slotAddr c i ∧ slotAddr c i + digestBytes c ≤ (destRange c).hi := by
  obtain ⟨h1, h2⟩ := dispatch_ranges h
  have := Nat.mul_le_mul_right (digestBytes c) hi
  rw [Nat.succ_mul] at this
  rw [h1, h2]
  simp only [messageAddr, slotAddr, Nat.mul_comm (digestBytes c) i]
  omega

/-- Two different slots share no byte (R215). -/
theorem slots_disjoint {c : Ctx} {i j : Nat} (h : i ≠ j) :
    slotAddr c j + digestBytes c ≤ slotAddr c i ∨ slotAddr c i + digestBytes c ≤ slotAddr c j := by
  simp only [slotAddr]
  rcases Nat.lt_or_gt_of_ne h with h | h
  · have := Nat.mul_le_mul_left (digestBytes c) h
    rw [Nat.mul_succ] at this
    omega
  · have := Nat.mul_le_mul_left (digestBytes c) h
    rw [Nat.mul_succ] at this
    omega

/-- The final value of byte j of slot i is byte j of the digest of message i (R215). -/
theorem finalByte_slot {p : Instance} {c : Ctx} {m : Memory} {aff : Bool} {workers i j : Nat}
    (h : c.cmd = .dispatch aff workers) (hj : j < digestBytes c) :
    finalByte p c m (slotAddr c i + j) = (digestAt p c m (messageAddr c i)).getD j 0 := by
  have ha : slotAddr c i + j - c.dst.toNat = j + digestBytes c * i := by
    simp only [slotAddr]
    omega
  simp only [finalByte, h, ha, Nat.add_mul_div_left _ _ (digestBytes_pos c),
    Nat.add_mul_mod_self_left, Nat.div_eq_of_lt hj, Nat.mod_eq_of_lt hj, Nat.zero_add]

/-- What a lane has done and is doing, in the words of the invariant. -/
def laneWork (p : Instance) (c : Ctx) (m : Memory) (l : Lane) : Prop :=
  (l.next < l.hi → orchCorrect p c m (messageAddr c l.next) l.orch) ∧
    ∀ i, l.lo ≤ i → i < l.next →
      Memory.readBytes m (slotAddr c i) (digestBytes c) = digestAt p c m (messageAddr c i)

/-- A lane that is not past the end of its partition has `hi ≤ N`. -/
theorem laneSound_hi {p : Instance} {c : Ctx} {workers k : Nat} {l : Lane}
    (h : laneSound p c workers k l) : l.next ≤ l.hi ∧ l.hi ≤ c.count.toNat := by
  unfold laneSound at h
  split_ifs at h with hk
  · obtain ⟨h1, -, h3, -⟩ := h
    refine ⟨h3, ?_⟩
    have := (partitionAt_le (n := c.count.toNat) hk).2
    rw [← h1] at this
    exact this
  · subst h
    exact ⟨Nat.le_refl 0, Nat.zero_le _⟩

/-- A busy DISPATCH, one lane and the memory replaced, where the new memory has every message as
before and every slot as before or with its digest. -/
theorem inv_setLane {s : State} {c : Ctx} {k : Nat} {l' : Lane} {m : Memory} {aff : Bool}
    {workers : Nat} (hi : Inv s) (he : s.engine = .busy c .dispatch)
    (hc : c.cmd = .dispatch aff workers) (hm : Memory.wf m) (hb : Memory.inBusSpace m)
    (hmsg : ∀ i, i < c.count.toNat →
      Memory.readBytes m (messageAddr c i) 4096 = Memory.readBytes s.memory (messageAddr c i) 4096)
    (hslot : ∀ i, i < c.count.toNat →
      Memory.readBytes m (slotAddr c i) (digestBytes c) =
        Memory.readBytes s.memory (slotAddr c i) (digestBytes c) ∨
      Memory.readBytes m (slotAddr c i) (digestBytes c) =
        digestAt s.inst c s.memory (messageAddr c i))
    (hdst : ∀ a, (destRange c).has a = true →
      finalByte s.inst c m a = finalByte s.inst c s.memory a ∧
        (Memory.read m a = Memory.read s.memory a ∨
          Memory.read m a = finalByte s.inst c s.memory a))
    (hl : laneSound s.inst c workers k l') (hw : laneWork s.inst c m l') :
    Inv ((s.setMemory m).setLanes (s.lanes.set k l')) := by
  have hes := hi.engine_sound
  have hwork := hi.work_correct
  have hbs := hi.before_sound
  simp only [engineSound, he] at hes
  simp only [workCorrect, he] at hwork
  simp only [beforeSound, he] at hbs
  obtain ⟨hp, hcap, hj, -, hst⟩ := hes
  simp only [jobSound, hc] at hj
  exact {
    instance_legal := hi.instance_legal
    memory_canonical := hm
    memory_bounded := hb
    config_reserved := hi.config_reserved
    errcode_zero := hi.errcode_zero
    errcode_code := hi.errcode_code
    lane_count := by simpa using hi.lane_count
    engine_sound := by
      simp only [engineSound, State.setLanes_engine, State.setMemory_engine, he]
      refine ⟨hp, hcap, ?_, fun h => absurd rfl h, hst⟩
      simp only [jobSound, hc]
      intro j x hx
      simp only [State.setLanes_lanes] at hx
      rw [List.getElem?_set] at hx
      split_ifs at hx with h1 h2
      · cases hx
        rw [← h1]
        exact hl
      · exact hj j x hx
    work_correct := by
      simp only [workCorrect, State.setLanes_engine, State.setMemory_engine, he]
      intro x hx
      have hx' : x ∈ s.lanes ∨ x = l' := List.mem_or_eq_of_mem_set hx
      rcases hx' with hx' | rfl
      · obtain ⟨h1, h2⟩ := hwork x hx'
        obtain ⟨j, hjx⟩ := List.getElem?_of_mem hx'
        obtain ⟨h3, h4⟩ := laneSound_hi (hj j x hjx)
        refine ⟨fun h => orchCorrect_congr (hmsg _ (by omega)) (h1 h), fun i hlo hin => ?_⟩
        show Memory.readBytes m _ _ = digestAt s.inst c m _
        rw [digestAt_congr (hmsg i (by omega))]
        rcases hslot i (by omega) with h | h
        · rw [h]
          exact h2 i hlo hin
        · exact h
      · exact hw
    before_sound := by
      simp only [beforeSound, State.setLanes_engine, State.setMemory_engine, he]
      refine ⟨hbs.1, hbs.2.1, fun a ha => ?_⟩
      obtain ⟨h1, h2⟩ := hdst a ha
      show Memory.read m a = _ ∨ Memory.read m a = finalByte s.inst c m a
      rw [h1]
      rcases h2 with h2 | h2
      · rw [h2]
        exact hbs.2.2 a ha
      · exact .inr h2 }

theorem laneMove_inv {s : State} {c : Ctx} {k : Nat} {l : Lane} (hi : Inv s)
    (he : s.engine = .busy c .dispatch) (hl : s.lanes[k]? = some l) (ha : l.active = true) :
    Inv (laneMove c k l s) := by
  have hes := hi.engine_sound
  have hwork := hi.work_correct
  simp only [engineSound, he] at hes
  simp only [workCorrect, he] at hwork
  obtain ⟨hp, hcap, hj, -, hst⟩ := hes
  obtain ⟨aff, workers, hc⟩ : ∃ aff workers, c.cmd = .dispatch aff workers := by
    cases hcmd : c.cmd <;> simp only [jobSound, hcmd] at hj
    exact ⟨_, _, rfl⟩
  simp only [jobSound, hc] at hj
  have hs := hj k l hl
  have hk : k < effectiveWorkers s.inst workers := by
    by_contra hk
    simp only [laneSound, if_neg hk] at hs
    subst hs
    exact absurd ha (by decide)
  have hs' := hs
  simp only [laneSound, if_pos hk] at hs'
  obtain ⟨hpart, hlo, hhi, hina⟩ := hs'
  have hn := (laneSound_hi hs).2
  obtain ⟨w1, w2⟩ := hwork l (List.mem_of_getElem? hl)
  have hrat : ratioLegal s.inst c = true := by
    have := hp.2.2
    rw [hc] at this
    exact this.1
  unfold laneMove
  split_ifs with hend
  · refine inv_setLane hi he hc hi.memory_canonical hi.memory_bounded (fun _ _ => rfl)
      (fun _ _ => .inl rfl) (fun _ _ => ⟨rfl, .inl rfl⟩) ?_ ⟨w1, w2⟩
    simp only [laneSound, if_pos hk]
    exact ⟨hpart, hlo, hhi, fun _ => by omega⟩
  · cases ho : orchStep s c (messageAddr c l.next) l.orch with
    | running o' =>
      refine inv_setLane hi he hc hi.memory_canonical hi.memory_bounded (fun _ _ => rfl)
        (fun _ _ => .inl rfl) (fun _ _ => ⟨rfl, .inl rfl⟩) ?_
        ⟨fun h => orchStep_running_correct (funnelLength_mod hrat) ho (w1 h), w2⟩
      simp only [laneSound, if_pos hk]
      exact ⟨hpart, hlo, hhi, hina⟩
    | finished d =>
      have hd := orchStep_finished_correct ho (w1 (by omega))
      have hdig : d.take (digestBytes c) = digestAt s.inst c s.memory (messageAddr c l.next) := by
        rw [hd]; rfl
      have hlen : (d.take (digestBytes c)).length = digestBytes c := by
        rw [hdig, digestAt_length]
      obtain ⟨i1, i2, i3, i4⟩ := dispatch_item hc (i := l.next) (by omega)
      simp only [engineWrite]
      split_ifs with hb
      · have hmsg : ∀ i, i < c.count.toNat →
            Memory.readBytes (Memory.writeBytes s.memory (slotAddr c l.next) (d.take (digestBytes c)))
              (messageAddr c i) 4096 = Memory.readBytes s.memory (messageAddr c i) 4096 := fun i hin => by
          obtain ⟨j1, j2, -, -⟩ := dispatch_item hc hin
          exact read_source_of_write _ hp hi.memory_canonical i3 (by rw [hlen]; exact i4) j1 j2
        have hsame : Memory.readBytes
            (Memory.writeBytes s.memory (slotAddr c l.next) (d.take (digestBytes c)))
            (slotAddr c l.next) (digestBytes c) =
              digestAt s.inst c s.memory (messageAddr c l.next) := by
          rw [← hdig]
          have := Memory.readBytes_writeBytes_same (m := s.memory) (a := slotAddr c l.next)
            (d.take (digestBytes c)) hi.memory_canonical
          rwa [hlen] at this
        have hother : ∀ i, i ≠ l.next → Memory.readBytes
            (Memory.writeBytes s.memory (slotAddr c l.next) (d.take (digestBytes c)))
            (slotAddr c i) (digestBytes c) =
              Memory.readBytes s.memory (slotAddr c i) (digestBytes c) := fun i hne =>
          Memory.readBytes_congr fun b hb => Memory.read_writeBytes_outside _ hi.memory_canonical (by
            have := slots_disjoint (c := c) hne
            rw [hlen]
            omega)
        refine inv_setLane hi he hc (Memory.writeBytes_wf _ _ hi.memory_canonical)
          (Memory.writeBytes_inBusSpace _ ?_ hi.memory_bounded) hmsg (fun i hin => ?_)
          (fun a hda => ⟨finalByte_congr (fun b hsb => ?_) hda, ?_⟩) ?_
          ⟨fun _ => trivial, fun i h1 h2 => ?_⟩
        · rw [hlen]
          exact i4.trans (passesChecks_ranges hp).2.1
        · by_cases hne : i = l.next
          · subst hne
            exact .inr hsame
          · exact .inl (hother i hne)
        · refine Memory.read_writeBytes_outside _ hi.memory_canonical ?_
          rw [hlen]
          by_contra hin
          have := (passesChecks_ranges hp).2.2 b hsb
          rw [(Span.has_iff _ _).2 ⟨by omega, by omega⟩] at this
          exact absurd this (by decide)
        · by_cases hin : a < slotAddr c l.next ∨ slotAddr c l.next + digestBytes c ≤ a
          · exact .inl (Memory.read_writeBytes_outside _ hi.memory_canonical (by rw [hlen]; exact hin))
          · refine .inr ?_
            obtain ⟨j, hj, rfl⟩ : ∃ j, j < digestBytes c ∧ a = slotAddr c l.next + j :=
              ⟨a - slotAddr c l.next, by omega, by omega⟩
            rw [Memory.read_writeBytes_inside _ 0 hi.memory_canonical (by rw [hlen]; exact hj), hdig]
            exact (finalByte_slot hc hj).symm
        · simp only [laneSound, if_pos hk, laneAdvance]
          exact ⟨hpart, by omega, by omega, fun h => absurd (ha.symm.trans h) (by decide)⟩
        · simp only [laneAdvance] at h1 h2
          rw [digestAt_congr (hmsg i (by omega))]
          by_cases hne : i = l.next
          · subst hne
            exact hsame
          · rw [hother i hne]
            exact w2 i h1 (by omega)
      · exact inv_takeBusError hi he
    | busError => exact inv_takeBusError hi he

/-- Every move of the engine, of whatever lane, keeps the invariant. -/
theorem engineMove_inv {s : State} (turn : Nat) (hi : Inv s) : Inv (engineMove turn s) := by
  cases he : s.engine with
  | idle =>
    rw [engineMove_idle turn he]
    exact hi
  | busy c job =>
    unfold engineMove
    rw [he]
    cases job with
    | compress k v core => exact compressMove_inv hi he
    | funnel buffer => exact funnelMove_inv hi he
    | digest o => exact digestMove_inv hi he
    | dispatch =>
      have hdone : Inv (completeSuccess (stopLanes s)) :=
        inv_completeSuccess hi he hi.memory_canonical hi.memory_bounded rfl rfl rfl rfl
      simp only [dispatchMove]
      cases hk : pickLane turn s.lanes with
      | none => exact hdone
      | some k =>
        obtain ⟨l, hl, ha⟩ := pickLane_active hk
        simp only [hl]
        exact laneMove_inv hi he hl ha

/-- So does the run to completion. -/
theorem finishCommand_inv {s : State} (hi : Inv s) : Inv (finishCommand s) :=
  finishCommand_induction hi fun _ _ ht => engineMove_inv 0 ht

end Sys2Proof.Machine
end

