-- ==== Sys2Proof/Laws/Batch.lean ====
section
/-! SUPPORT. How a running DISPATCH ends, whatever the order of its lanes (spec 43_dispatch.md R214 to R221;
44_command_control.md R245): in BusError when some access still to come has a byte with ¬bus_ok, in
the memory of the whole batch otherwise. -/

namespace Sys2Proof.Machine

/-! ## The memory of the whole batch -/

theorem batchMemory_wf (p : Instance) (c : Ctx) {m : Memory} (h : Memory.wf m) (n : Nat) :
    Memory.wf (batchMemory p c m n) := by
  induction n with
  | zero => exact h
  | succ n ih => exact Memory.writeBytes_wf _ _ ih

/-- Outside the first n slots the batch leaves memory as it was. -/
theorem batchMemory_outside (p : Instance) (c : Ctx) {m : Memory} (h : Memory.wf m) (n : Nat)
    {a : Nat} (ha : a < c.dst.toNat ∨ slotAddr c n ≤ a) :
    Memory.read (batchMemory p c m n) a = Memory.read m a := by
  induction n with
  | zero => rfl
  | succ n ih =>
    have hs : slotAddr c (n + 1) = slotAddr c n + digestBytes c := by
      simp only [slotAddr, Nat.mul_succ, Nat.add_assoc]
    have h0 : c.dst.toNat ≤ slotAddr c n := Nat.le_add_right _ _
    rw [batchMemory, Memory.read_writeBytes_outside _ (batchMemory_wf p c h n)
      (by rw [digestAt_length]; omega)]
    exact ih (by omega)

/-- Slot i of the first n holds the digest of message i. -/
theorem batchMemory_slot (p : Instance) (c : Ctx) {m : Memory} (h : Memory.wf m) {n i : Nat}
    (hi : i < n) :
    Memory.readBytes (batchMemory p c m n) (slotAddr c i) (digestBytes c) =
      digestAt p c m (messageAddr c i) := by
  induction n with
  | zero => omega
  | succ n ih =>
    by_cases hin : i = n
    · subst hin
      have := Memory.readBytes_writeBytes_same (a := slotAddr c i)
        (digestAt p c m (messageAddr c i)) (batchMemory_wf p c h i)
      rwa [digestAt_length] at this
    · rw [← ih (by omega)]
      refine Memory.readBytes_congr fun b hb => ?_
      refine Memory.read_writeBytes_outside _ (batchMemory_wf p c h n) ?_
      have := slots_disjoint (c := c) (i := i) (j := n) (by omega)
      rw [digestAt_length]
      omega

/-- A canonical memory that agrees with m outside the batch's slots and holds every digest is the
batch's. -/
theorem eq_batchMemory {p : Instance} {c : Ctx} {m m' : Memory} {n : Nat} (h : Memory.wf m)
    (h' : Memory.wf m')
    (ho : ∀ a, a < c.dst.toNat ∨ slotAddr c n ≤ a → Memory.read m' a = Memory.read m a)
    (hs : ∀ i, i < n → Memory.readBytes m' (slotAddr c i) (digestBytes c) =
      digestAt p c m (messageAddr c i)) : m' = batchMemory p c m n := by
  refine Memory.ext_of_read h' (batchMemory_wf p c h n) fun a => ?_
  by_cases ha : a < c.dst.toNat ∨ slotAddr c n ≤ a
  · rw [ho a ha, batchMemory_outside p c h n ha]
  · have hw := digestBytes_pos c
    have hda : digestBytes c * ((a - c.dst.toNat) / digestBytes c) + (a - c.dst.toNat) % digestBytes c =
        a - c.dst.toNat := Nat.div_add_mod _ _
    have hlt := Nat.mod_lt (a - c.dst.toNat) hw
    have hin : (a - c.dst.toNat) / digestBytes c < n := by
      rw [Nat.div_lt_iff_lt_mul hw, Nat.mul_comm]
      simp only [slotAddr] at ha
      omega
    have key : ∀ x : Memory, Memory.read x a =
        (Memory.readBytes x (slotAddr c ((a - c.dst.toNat) / digestBytes c)) (digestBytes c)).getD
          ((a - c.dst.toNat) % digestBytes c) 0 := fun x => by
      rw [Memory.readBytes_getD _ _ _ _ _ hlt]
      congr 1
      simp only [slotAddr]
      omega
    rw [key m', key, hs _ hin, batchMemory_slot p c h hin]

/-! ## Accesses still to come -/

/-- Some access the lane still has to make has a byte with ¬bus_ok (R62): reading message `next`
unless that is done, writing slot `next`, and both for every later message of the partition. -/
def laneFails (p : Instance) (c : Ctx) (l : Lane) : Prop :=
  l.active = true ∧ ∃ i, l.next ≤ i ∧ i < l.hi ∧
    (((i = l.next → l.orch = .fetch) ∧ busOkRange p (messageAddr c i) 4096 = false) ∨
      busOkRange p (slotAddr c i) (digestBytes c) = false)

/-- Some lane fails. -/
def batchFails (s : State) (c : Ctx) : Prop := ∃ l ∈ s.lanes, laneFails s.inst c l

/-- BusError overwrites the whole destination range, so what a lane has written there leaves no
trace. -/
theorem takeBusError_write {s : State} {c : Ctx} {a : Nat} {bs : List Byte} {ls : List Lane}
    (hm : Memory.wf s.memory) (hlo : (destRange c).lo ≤ a) (hhi : a + bs.length ≤ (destRange c).hi) :
    takeBusError c ((s.setMemory (Memory.writeBytes s.memory a bs)).setLanes ls) =
      takeBusError c s := by
  have h : Memory.writeBytes (Memory.writeBytes s.memory a bs) (destRange c).lo
      (freeBytes s.fresh (destLength c)) =
        Memory.writeBytes s.memory (destRange c).lo (freeBytes s.fresh (destLength c)) := by
    have hm' := Memory.writeBytes_wf a bs hm
    refine Memory.ext_of_read (Memory.writeBytes_wf _ _ hm') (Memory.writeBytes_wf _ _ hm) fun b => ?_
    have hd : (destRange c).hi = (destRange c).lo + destLength c := rfl
    by_cases hb : b < (destRange c).lo ∨ (destRange c).lo + destLength c ≤ b
    · have hf := freeBytes_length s.fresh (destLength c)
      rw [Memory.read_writeBytes_outside (m := Memory.writeBytes s.memory a bs) _ hm' (by omega),
        Memory.read_writeBytes_outside (a := a) _ hm (by omega),
        Memory.read_writeBytes_outside (a := (destRange c).lo) _ hm (by omega)]
    · have hlt : b - (destRange c).lo < (freeBytes s.fresh (destLength c)).length := by
        rw [freeBytes_length]
        omega
      have e : b = (destRange c).lo + (b - (destRange c).lo) := by omega
      rw [e, Memory.read_writeBytes_inside _ 0 hm' hlt, Memory.read_writeBytes_inside _ 0 hm hlt]
  simp only [takeBusError, takeError, stopLanes, scrambleDest, State.setMemory, State.setLanes,
    State.setFresh, State.setEngine, State.setStatus, h]

theorem takeBusError_setLanes (s : State) (c : Ctx) (ls : List Lane) :
    takeBusError c (s.setLanes ls) = takeBusError c s := rfl

/-! ## One move of a lane -/

/-- What a move of an active lane does to the batch's end: it ends in BusError, and then the lane was
failing; or it leaves the engine busy with the same context, the lanes failing as before, BusError to
the same state, and memory changed only in the slot of the lane's message, to its digest. -/
theorem laneMove_batch {s : State} {c : Ctx} {k : Nat} {l : Lane} (hi : Inv s)
    (he : s.engine = .busy c .dispatch) (hl : s.lanes[k]? = some l) (ha : l.active = true) :
    (laneMove c k l s = takeBusError c s ∧ batchFails s c) ∨
    ((laneMove c k l s).engine = .busy c .dispatch ∧
      (batchFails (laneMove c k l s) c ↔ batchFails s c) ∧
      takeBusError c (laneMove c k l s) = takeBusError c s ∧
      ∃ m ls, laneMove c k l s = (s.setMemory m).setLanes ls ∧
        batchMemory s.inst c m c.count.toNat = batchMemory s.inst c s.memory c.count.toNat) := by
  have hinv := laneMove_inv hi he hl ha
  have hes := hi.engine_sound
  have hwork := hi.work_correct
  simp only [engineSound, he] at hes
  simp only [workCorrect, he] at hwork
  obtain ⟨hp, hcap, hj, -, hst⟩ := hes
  obtain ⟨aff, workers, hc⟩ : ∃ aff workers, c.cmd = .dispatch aff workers := by
    cases hcmd : c.cmd <;> simp only [jobSound, hcmd] at hj
    exact ⟨_, _, rfl⟩
  simp only [jobSound, hc] at hj
  obtain ⟨hn1, hn2⟩ := laneSound_hi (hj k l hl)
  have hmem := List.mem_of_getElem? hl
  obtain ⟨w1, w2⟩ := hwork l hmem
  -- replacing a lane by one that fails exactly when it does
  have hrep : ∀ l', (laneFails s.inst c l' ↔ laneFails s.inst c l) → ∀ t : State, t.inst = s.inst →
      t.lanes = s.lanes.set k l' → (batchFails t c ↔ batchFails s c) := by
    intro l' hll t hti htl
    simp only [batchFails, hti, htl]
    have hk : k < s.lanes.length := by
      by_contra hk
      rw [List.getElem?_eq_none (by omega)] at hl
      cases hl
    constructor
    · rintro ⟨x, hx, hf⟩
      rcases List.mem_or_eq_of_mem_set hx with hx | rfl
      · exact ⟨x, hx, hf⟩
      · exact ⟨l, hmem, hll.1 hf⟩
    · rintro ⟨x, hx, hf⟩
      obtain ⟨j, hjx⟩ := List.getElem?_of_mem hx
      by_cases hjk : k = j
      · subst hjk
        rw [hl] at hjx
        cases hjx
        exact ⟨l', List.mem_of_getElem? (List.getElem?_set_self hk), hll.2 hf⟩
      · exact ⟨x, List.mem_of_getElem? ((List.getElem?_set_ne hjk).trans hjx), hf⟩
  unfold laneMove
  split_ifs with hend
  · refine .inr ⟨he, hrep _ ?_ _ rfl rfl, rfl, s.memory, _, rfl, rfl⟩
    constructor
    · rintro ⟨h, -⟩
      exact absurd h (by simp)
    · rintro ⟨-, i, h1, h2, -⟩
      omega
  · have hitem := dispatch_item hc (i := l.next) (by omega)
    obtain ⟨i1, i2, i3, i4⟩ := hitem
    cases ho : orchStep s c (messageAddr c l.next) l.orch with
    | running o' =>
      refine .inr ⟨he, hrep _ ?_ _ rfl rfl, rfl, s.memory, _, rfl, rfl⟩
      have hne : o' ≠ .fetch := by
        rintro rfl
        revert ho
        cases l.orch with
        | fetch => simp only [orchStep, engineRead]; split_ifs <;> simp
        | absorb b v => cases b <;> simp [orchStep]
        | compress rest e => simp only [orchStep]; cases coreStep e <;> simp
        | digest d => simp [orchStep]
      have hfetch : l.orch = .fetch → busOkRange s.inst (messageAddr c l.next) 4096 = true := by
        intro hf
        rw [hf] at ho
        simp only [orchStep, engineRead] at ho
        split_ifs at ho with hb
        exact hb
      simp only [laneFails]
      refine and_congr_right fun _ => exists_congr fun i => and_congr_right fun h1 =>
        and_congr_right fun h2 => or_congr ?_ Iff.rfl
      by_cases hin : i = l.next
      · subst hin
        simp only [true_implies]
        constructor
        · rintro ⟨h, -⟩
          exact absurd h hne
        · rintro ⟨h, h3⟩
          rw [hfetch h] at h3
          exact absurd h3 (by decide)
      · simp only [hin, false_implies]
    | finished d =>
      have hd := orchStep_finished_correct ho (w1 (by omega))
      have hdig : d.take (digestBytes c) = digestAt s.inst c s.memory (messageAddr c l.next) := by
        rw [hd]; rfl
      have hlen : (d.take (digestBytes c)).length = digestBytes c := by
        rw [hdig, digestAt_length]
      have hnf : l.orch ≠ .fetch := by
        intro hf
        rw [hf] at ho
        simp only [orchStep, engineRead] at ho
        split_ifs at ho
      simp only [engineWrite]
      split_ifs with hb
      · rw [hlen] at hb
        have hm' := Memory.writeBytes_wf (slotAddr c l.next) (d.take (digestBytes c)) hi.memory_canonical
        refine .inr ⟨he, hrep (laneAdvance l) ?_ _ rfl rfl,
          takeBusError_write hi.memory_canonical i3 (by rw [hlen]; exact i4), _, _, rfl, ?_⟩
        · simp only [laneFails, laneAdvance]
          refine and_congr_right fun _ => ⟨?_, ?_⟩
          · rintro ⟨i, h1, h2, h3⟩
            refine ⟨i, by omega, h2, h3.imp (fun h => ⟨fun h4 => by omega, h.2⟩) id⟩
          · rintro ⟨i, h1, h2, h3⟩
            by_cases hin : i = l.next
            · subst hin
              rcases h3 with ⟨h3, -⟩ | h3
              · exact absurd (h3 rfl) hnf
              · rw [hb] at h3
                exact absurd h3 (by decide)
            · exact ⟨i, by omega, h2, h3.imp (fun h => ⟨fun _ => trivial, h.2⟩) id⟩
        · refine (eq_batchMemory hi.memory_canonical (batchMemory_wf _ _ hm' _) (fun a ha => ?_)
            fun i hin => ?_)
          · rw [batchMemory_outside _ _ hm' _ ha, Memory.read_writeBytes_outside _ hi.memory_canonical]
            rw [hlen]
            have e1 : (destRange c).lo = c.dst.toNat := rfl
            have e2 : (destRange c).hi = slotAddr c c.count.toNat := by
              rw [(dispatch_ranges hc).2]
              simp only [slotAddr, Nat.mul_comm]
            omega
          · rw [batchMemory_slot _ _ hm' hin]
            obtain ⟨j1, j2, -, -⟩ := dispatch_item hc hin
            exact digestAt_congr (read_source_of_write _ hp hi.memory_canonical i3
              (by rw [hlen]; exact i4) j1 j2)
      · rw [hlen, Bool.not_eq_true] at hb
        exact .inl ⟨rfl, l, hmem, ha, l.next, Nat.le_refl _, by omega, .inr hb⟩
    | busError =>
      obtain ⟨h1, h2⟩ := orchStep_busError ho
      exact .inl ⟨rfl, l, hmem, ha, l.next, Nat.le_refl _, by omega, .inl ⟨fun _ => h1, h2⟩⟩

/-! ## How the batch ends -/

/-- When no lane is active the memory is the whole batch's and no lane fails (R216). -/
theorem batch_of_no_active {s : State} {c : Ctx} (hi : Inv s) (he : s.engine = .busy c .dispatch)
    (hn : ∀ l ∈ s.lanes, l.active = false) :
    ¬batchFails s c ∧ s.memory = batchMemory s.inst c s.memory c.count.toNat := by
  refine ⟨fun ⟨l, hl, ha, _⟩ => absurd ((hn l hl).symm.trans ha) (by decide), ?_⟩
  have hes := hi.engine_sound
  have hwork := hi.work_correct
  simp only [engineSound, he] at hes
  simp only [workCorrect, he] at hwork
  obtain ⟨hp, hcap, hj, -, hst⟩ := hes
  obtain ⟨aff, workers, hc⟩ : ∃ aff workers, c.cmd = .dispatch aff workers := by
    cases hcmd : c.cmd <;> simp only [jobSound, hcmd] at hj
    exact ⟨_, _, rfl⟩
  simp only [jobSound, hc] at hj
  have hlegal := hi.instance_legal
  have hW : 1 ≤ effectiveWorkers s.inst workers ∧
      effectiveWorkers s.inst workers ≤ s.inst.numLanes := by
    have := hlegal.2.1
    simp only [effectiveWorkers]
    omega
  refine eq_batchMemory hi.memory_canonical hi.memory_canonical (fun _ _ => rfl) fun i hin => ?_
  obtain ⟨k, hk, h1, h2⟩ := partitionAt_covers (n := c.count.toNat) hW.1 hin
  have hkl : k < s.lanes.length := by
    rw [hi.lane_count]
    omega
  have hs := hj k s.lanes[k] (List.getElem?_eq_getElem hkl)
  simp only [laneSound, if_pos hk] at hs
  obtain ⟨hpart, -, -, hfin⟩ := hs
  have hmem := List.getElem_mem hkl
  have hnext := hfin (hn _ hmem)
  rw [← hpart] at h1 h2
  exact (hwork _ hmem).2 i h1 (by rw [hnext]; exact h2)

/-- No lane is active exactly when there is none to pick. -/
theorem pickLane_none {turn : Nat} {ls : List Lane} (h : pickLane turn ls = none) :
    ∀ l ∈ ls, l.active = false := by
  have hf : ls.findIdx? (fun l => l.active) = none := by
    unfold pickLane at h
    cases ht : ls[turn]? with
    | none => rw [ht] at h; exact h
    | some l =>
      rw [ht] at h
      simp only at h
      split_ifs at h
      exact h
  intro l hl
  simpa using List.findIdx?_eq_none_iff.1 hf l hl

/-- The end of a running DISPATCH (R221, R245): BusError when an access still to come fails, and
otherwise the whole batch in memory. -/
theorem finishCommand_dispatch {s : State} {c : Ctx} (hi : Inv s)
    (he : s.engine = .busy c .dispatch) :
    (batchFails s c → finishCommand s = takeBusError c s) ∧
    (¬batchFails s c → finishCommand s =
      completeSuccess (stopLanes (s.setMemory (batchMemory s.inst c s.memory c.count.toNat)))) := by
  induction hn : movesLeft s using Nat.strongRecOn generalizing s with
  | _ n ih =>
    subst hn
    have hbusy : s.engine ≠ .idle := by rw [he]; simp
    rw [finishCommand_move hbusy]
    have hlt := engineMove_lt 0 hbusy
    have hmove : engineMove 0 s = dispatchMove c 0 s := by
      unfold engineMove
      rw [he]
    rw [hmove] at hlt ⊢
    simp only [dispatchMove] at hlt ⊢
    cases hk : pickLane 0 s.lanes with
    | none =>
      obtain ⟨h1, h2⟩ := batch_of_no_active hi he (pickLane_none hk)
      refine ⟨fun h => absurd h h1, fun _ => ?_⟩
      rw [← h2]
      exact finishCommand_idle rfl
    | some k =>
      obtain ⟨l, hl, ha⟩ := pickLane_active hk
      rw [hk] at hlt
      simp only [hl] at hlt ⊢
      rcases laneMove_batch hi he hl ha with ⟨h1, h2⟩ | ⟨h1, h2, h3, m, ls, h4, h5⟩
      · refine ⟨fun _ => ?_, fun h => absurd h2 h⟩
        rw [h1]
        exact finishCommand_idle rfl
      · obtain ⟨a1, a2⟩ := ih _ hlt (laneMove_inv hi he hl ha) h1 rfl
        refine ⟨fun h => (a1 (h2.2 h)).trans h3, fun h => (a2 (fun hf => h (h2.1 hf))).trans ?_⟩
        rw [h4, ← h5]
        rfl

/-- A move of any lane leads to the same end. -/
theorem finishCommand_engineMove {s : State} (turn : Nat) (hi : Inv s) :
    finishCommand (engineMove turn s) = finishCommand s := by
  cases he : s.engine with
  | idle => rw [engineMove_idle turn he]
  | busy c job =>
    have hbusy : s.engine ≠ .idle := by rw [he]; simp
    have hturn : job ≠ .dispatch → engineMove turn s = engineMove 0 s := by
      intro hj
      unfold engineMove
      rw [he]
      cases job with
      | dispatch => exact absurd rfl hj
      | _ => rfl
    by_cases hj : job = .dispatch
    · subst hj
      have hmove : engineMove turn s = dispatchMove c turn s := by
        unfold engineMove
        rw [he]
      obtain ⟨a1, a2⟩ := finishCommand_dispatch hi he
      rw [hmove]
      simp only [dispatchMove]
      cases hk : pickLane turn s.lanes with
      | none =>
        obtain ⟨h1, h2⟩ := batch_of_no_active hi he (pickLane_none hk)
        rw [a2 h1, ← h2]
        exact finishCommand_idle rfl
      | some k =>
        obtain ⟨l, hl, ha⟩ := pickLane_active hk
        simp only [hl]
        rcases laneMove_batch hi he hl ha with ⟨h1, h2⟩ | ⟨h1, h2, h3, m, ls, h4, h5⟩
        · rw [h1, a1 h2]
          exact finishCommand_idle rfl
        · obtain ⟨b1, b2⟩ := finishCommand_dispatch (laneMove_inv hi he hl ha) h1
          by_cases hf : batchFails s c
          · rw [a1 hf, b1 (h2.2 hf), h3]
          · rw [a2 hf, b2 (fun h => hf (h2.1 h)), h4, ← h5]
            rfl
    · rw [hturn hj, ← finishCommand_move hbusy]

end Sys2Proof.Machine
end

