-- ==== Sys2Proof/Laws/PerInstr.lean ====
section
/-! SUPPORT. Statements about every instruction as syntax, one lemma for each constructor: the encoder against
the `mask` and `match` numbers of the row of spec/opcode_table.json. -/

namespace Sys2Proof.Laws.TableMatch

/-- The row's `mask` and `match`, as spec/opcode_table.json prints them. -/
def row (i : Instr) : Word × Word :=
  match i with
  | .nop => (0xFFFFFFFF#32, 0x00000000#32)
  | .init => (0xFFFFFFFF#32, 0x00000001#32)
  | .compress => (0xFFFFFFFF#32, 0x00000002#32)
  | .funnel => (0xFFFFFFFF#32, 0x00000003#32)
  | .digest => (0xFFFFFFFF#32, 0x00000004#32)
  | .dispatch _ _ => (0xFFFF00EF#32, 0x00000005#32)

/-- The encoding of the instruction is a word of its row of the opcode table. -/
def Statement (i : Instr) : Prop := encode i &&& (row i).1 = (row i).2

theorem nop : Statement .nop := by unfold Statement; decide

theorem init : Statement .init := by unfold Statement; decide

theorem compress : Statement .compress := by unfold Statement; decide

theorem funnel : Statement .funnel := by unfold Statement; decide

theorem digest : Statement .digest := by unfold Statement; decide

theorem dispatch (aff : Bool) (workers : Nat) : Statement (.dispatch aff workers) := by
  simp only [Statement, encode, row]
  generalize BitVec.ofNat 8 workers = n
  revert n aff
  decide +kernel

end Sys2Proof.Laws.TableMatch
end

