-- ==== Sys2Proof/Laws/Results.lean ====
section
/-! SUPPORT. How a running COMPRESS, FUNNEL, DIGEST and DISPATCH end when no byte of their ranges has ¬bus_ok
(spec 40_compression.md R137; 41_funnel.md R170; 42_digest.md R194; 43_dispatch.md R220), and that one
that has such a byte ends, from its launch, in BusError (60_exceptions.md R275). -/

namespace Sys2Proof.Machine

theorem setJob_engine (c : Ctx) (j : Job) (s : State) : (setJob c j s).engine = .busy c j := rfl

/-- A job of another kind than DISPATCH, its next move known. -/
theorem finishCommand_of_move {s t : State} (h : s.engine ≠ .idle) (hm : engineMove 0 s = t) :
    finishCommand s = finishCommand t := hm ▸ finishCommand_move h

/-! ## Success -/

theorem finishCommand_compress {s : State} {c : Ctx} {k : Nat} {v : HashState}
    {core : Option CoreEval} (hi : Inv s) (he : s.engine = .busy c (.compress k v core))
    (hb : busFails s.inst c = false) :
    finishCommand s = completeSuccess
      (s.setHash (cfStar c.state (Memory.readBytes s.memory c.src.toNat c.len.toNat))) := by
  induction hn : movesLeft s using Nat.strongRecOn generalizing s k v core with
  | _ n ih =>
    subst hn
    have hbusy : s.engine ≠ .idle := by rw [he]; simp
    have hes := hi.engine_sound
    have hw := hi.work_correct
    simp only [engineSound, he] at hes
    simp only [workCorrect, he] at hw
    obtain ⟨hp, hcap, hj, hl, hst⟩ := hes
    have hstep : ∀ k' v' core', engineMove 0 s = setJob c (.compress k' v' core') s →
        finishCommand s = completeSuccess
          (s.setHash (cfStar c.state (Memory.readBytes s.memory c.src.toNat c.len.toNat))) := by
      intro k' v' core' hm
      have hlt := engineMove_lt 0 hbusy
      have hinv := engineMove_inv 0 hi
      rw [hm] at hlt hinv
      rw [finishCommand_of_move hbusy hm, ih _ hlt hinv rfl hb rfl]
      rfl
    have hmove : engineMove 0 s = compressMove c k v core s := by
      unfold engineMove
      rw [he]
    rw [hmove] at hstep
    cases core with
    | some e =>
      simp only [compressMove] at hstep
      cases hs : coreStep e <;> simp only [hs] at hstep <;> exact hstep _ _ _ rfl
    | none =>
      obtain ⟨hcmd, hk⟩ := hj
      have hlen : c.len.toNat % 64 = 0 := by
        have := hp.2.2
        rw [hcmd] at this
        exact this.1
      by_cases hend : c.len.toNat / 64 ≤ k
      · have h64 : 64 * k = c.len.toNat := by omega
        have hw' : v = cfStar c.state (Memory.readBytes s.memory c.src.toNat (64 * k)) := hw
        rw [h64] at hw'
        rw [finishCommand_of_move hbusy hmove]
        simp only [compressMove, if_pos hend]
        rw [← hw']
        exact finishCommand_idle rfl
      · have hsrc : sourceRange c = ⟨c.src.toNat, c.src.toNat + c.len.toNat⟩ := by
          simp [sourceRange, sourceLength, hcmd]
        have hok := busOkRange_source (a := c.src.toNat + 64 * k) (n := 64) hb
          (by rw [hsrc]; exact Nat.le_add_right _ _) (by rw [hsrc]; show _ ≤ c.src.toNat + c.len.toNat; omega)
        simp only [compressMove, if_neg hend, engineRead_some hok] at hstep
        exact hstep _ _ _ rfl

theorem finishCommand_funnel {s : State} {c : Ctx} {buffer : Option (List Byte)} (hi : Inv s)
    (he : s.engine = .busy c (.funnel buffer)) (hb : busFails s.inst c = false) :
    finishCommand s = completeSuccess
      (s.setMemory (Memory.writeBytes s.memory c.dst.toNat (funnelAt s.inst c s.memory c.src.toNat))) := by
  have hbusy : s.engine ≠ .idle := by rw [he]; simp
  have hes := hi.engine_sound
  have hw := hi.work_correct
  simp only [engineSound, he] at hes
  simp only [workCorrect, he] at hw
  obtain ⟨hp, hcap, hj, hl, hst⟩ := hes
  have hmove : engineMove 0 s = funnelMove c buffer s := by
    unfold engineMove
    rw [he]
  have hcmd : c.cmd = .funnel := by
    cases buffer with
    | none => exact hj
    | some b => exact hj.1
  have hdst : destRange c = ⟨c.dst.toNat, c.dst.toNat + funnelLength c⟩ := by
    simp [destRange, destLength, hcmd]
  have hsrc : sourceRange c = ⟨c.src.toNat, c.src.toNat + 4096⟩ := by
    simp [sourceRange, sourceLength, hcmd]
  have hwr : ∀ t : State, t.inst = s.inst → t.memory = s.memory →
      engineWrite c t c.dst.toNat (funnelAt s.inst c s.memory c.src.toNat) completeSuccess =
        completeSuccess (t.setMemory
          (Memory.writeBytes s.memory c.dst.toNat (funnelAt s.inst c s.memory c.src.toNat))) := by
    intro t hti htm
    rw [engineWrite_ok, htm]
    rw [hti, funnelAt_length]
    exact busOkRange_dest hb (by rw [hdst]) (by rw [hdst])
  rw [finishCommand_of_move hbusy hmove]
  cases buffer with
  | some b =>
    have hw' : b = funnelAt s.inst c s.memory c.src.toNat := hw
    subst hw'
    simp only [funnelMove]
    rw [hwr s rfl rfl]
    exact finishCommand_idle rfl
  | none =>
    have hok := busOkRange_source (a := c.src.toNat) (n := 4096) hb (by rw [hsrc]) (by rw [hsrc])
    simp only [funnelMove, engineRead_some hok]
    rw [finishCommand_of_move (by simp [setJob]) rfl]
    show finishCommand (engineWrite c (setJob c _ s) c.dst.toNat
      (funnelAt s.inst c s.memory c.src.toNat) completeSuccess) = _
    rw [hwr (setJob c _ s) rfl rfl]
    exact finishCommand_idle rfl

theorem finishCommand_digest {s : State} {c : Ctx} {o : Orch} (hi : Inv s)
    (he : s.engine = .busy c (.digest o)) (hb : busFails s.inst c = false) :
    finishCommand s = completeSuccess
      (s.setMemory (Memory.writeBytes s.memory c.dst.toNat (digestAt s.inst c s.memory c.src.toNat))) := by
  induction hn : movesLeft s using Nat.strongRecOn generalizing s o with
  | _ n ih =>
    subst hn
    have hbusy : s.engine ≠ .idle := by rw [he]; simp
    have hes := hi.engine_sound
    have hw := hi.work_correct
    simp only [engineSound, he] at hes
    simp only [workCorrect, he] at hw
    obtain ⟨hp, hcap, hj, hl, hst⟩ := hes
    have hcmd : c.cmd = .digest := hj
    have hdst : destRange c = ⟨c.dst.toNat, c.dst.toNat + digestBytes c⟩ := by
      simp [destRange, destLength, hcmd]
    have hsrc : sourceRange c = ⟨c.src.toNat, c.src.toNat + 4096⟩ := by
      simp [sourceRange, sourceLength, hcmd]
    have hmove : engineMove 0 s = digestMove c o s := by
      unfold engineMove
      rw [he]
    cases ho : orchStep s c c.src.toNat o with
    | running o' =>
      have hm : engineMove 0 s = setJob c (.digest o') s := by
        rw [hmove]
        simp only [digestMove, ho]
      have hlt := engineMove_lt 0 hbusy
      have hinv := engineMove_inv 0 hi
      rw [hm] at hlt hinv
      rw [finishCommand_of_move hbusy hm, ih _ hlt hinv rfl hb rfl]
      rfl
    | finished d =>
      have hdig : d.take (digestBytes c) = digestAt s.inst c s.memory c.src.toNat := by
        rw [orchStep_finished_correct ho hw]
        rfl
      rw [finishCommand_of_move hbusy hmove]
      simp only [digestMove, ho, hdig]
      rw [engineWrite_ok]
      · exact finishCommand_idle rfl
      · rw [digestAt_length]
        exact busOkRange_dest hb (by rw [hdst]) (by rw [hdst])
    | busError =>
      have := (orchStep_busError ho).2
      rw [busOkRange_source hb (by rw [hsrc]) (by rw [hsrc])] at this
      exact absurd this (by decide)

/-- A DISPATCH no byte of whose ranges has ¬bus_ok has no failing lane. -/
theorem not_batchFails {s : State} {c : Ctx} (hi : Inv s) (he : s.engine = .busy c .dispatch)
    (hb : busFails s.inst c = false) : ¬batchFails s c := by
  have hes := hi.engine_sound
  simp only [engineSound, he] at hes
  obtain ⟨hp, hcap, hj, -, hst⟩ := hes
  obtain ⟨aff, workers, hc⟩ : ∃ aff workers, c.cmd = .dispatch aff workers := by
    cases hcmd : c.cmd <;> simp only [jobSound, hcmd] at hj
    exact ⟨_, _, rfl⟩
  simp only [jobSound, hc] at hj
  rintro ⟨l, hl, -, i, -, h2, h3⟩
  obtain ⟨k, hk⟩ := List.getElem?_of_mem hl
  have hn := (laneSound_hi (hj k l hk)).2
  obtain ⟨i1, i2, i3, i4⟩ := dispatch_item hc (i := i) (by omega)
  rcases h3 with ⟨-, h3⟩ | h3
  · rw [busOkRange_source hb i1 i2] at h3
    exact absurd h3 (by decide)
  · rw [busOkRange_dest hb i3 i4] at h3
    exact absurd h3 (by decide)

/-! ## Launches keep the invariant -/

/-- A command launched from a sound state is a sound busy state. -/
theorem inv_launch {s : State} {i : Instr} {job : Job} {ls : List Lane} (hi : Inv s)
    (hp : passesChecks s.inst (capture i s))
    (hj : jobSound s.inst (capture i s) ls job)
    (hl : ls.length = s.inst.numLanes)
    (hd : job ≠ .dispatch → ls = List.replicate s.inst.numLanes laneIdle)
    (hw : workCorrect (setJob (capture i s) job ((acceptCommand s).setLanes ls))) :
    Inv (setJob (capture i s) job ((acceptCommand s).setLanes ls)) where
  instance_legal := hi.instance_legal
  memory_canonical := hi.memory_canonical
  memory_bounded := hi.memory_bounded
  config_reserved := hi.config_reserved
  errcode_zero := fun _ => rfl
  errcode_code := fun h => absurd h (by simp [setJob, acceptCommand, statusAccepted])
  lane_count := hl
  engine_sound := ⟨hp, rfl, hj, hd, rfl, rfl⟩
  work_correct := hw
  before_sound := ⟨hi.memory_canonical, hi.memory_bounded, fun _ _ => .inl rfl⟩

/-- The lanes at the start of a DISPATCH are on their partitions (R213, R220). -/
theorem startLanes_sound (p : Instance) (c : Ctx) (workers : Nat) :
    ∀ k l, (startLanes p.numLanes c.count.toNat (effectiveWorkers p workers))[k]? = some l →
      laneSound p c workers k l := by
  intro k l h
  simp only [startLanes, List.getElem?_map, Option.map_eq_some_iff] at h
  obtain ⟨j, hj, h⟩ := h
  have hkj : k = j := by
    rw [List.getElem?_range (by
      by_contra hc
      rw [List.getElem?_eq_none (by simpa using hc)] at hj
      cases hj)] at hj
    exact Option.some.inj hj
  subst hkj
  subst h
  unfold laneSound
  split_ifs with hk
  · exact ⟨rfl, Nat.le_refl _, (partitionAt_le hk).1, fun h => absurd h (by simp)⟩
  · rfl

/-- Nothing has been done in them yet. -/
theorem startLanes_work (p : Instance) (c : Ctx) (m : Memory) (n w : Nat) :
    ∀ l ∈ startLanes p.numLanes n w, laneWork p c m l := by
  intro l hl
  simp only [startLanes, List.mem_map] at hl
  obtain ⟨k, -, h⟩ := hl
  subst h
  split_ifs
  · exact ⟨fun _ => trivial, fun i h1 h2 => absurd h1 (by simp only at h2 ⊢; omega)⟩
  · exact ⟨fun _ => trivial, fun i h1 h2 => absurd h2 (Nat.not_lt_zero i)⟩

end Sys2Proof.Machine
end

