-- ==== Sys2Proof/Tests/Slice0.lean ====
section
/-! SUPPORT. The model's own tests. Expected values come from the spec: encodings from 30_encoding.md R90 and
R91, every other value from 95_test_vectors.md at the section the docstring names. After them, for each
obligation with hypotheses, a witness that meets them all. -/

namespace Sys2Proof.Tests

open Sys2Proof Sys2Proof.Machine

/-! ## WellFormed -/

/-- WORKERS is 0..255 (R93): 256 is refused, 255 is not. -/
theorem test_workers_256_is_ill_formed : Instr.wellFormed (.dispatch false 256) = false := by decide

theorem test_workers_255_is_well_formed : Instr.wellFormed (.dispatch true 255) = true := by decide

/-! ## Decode -/

/-- One word for each command, bit by bit from R90 and R91. -/
theorem test_decode_nop : decode 0b00000000000000000000000000000000#32 = .ok .nop := by decide

theorem test_decode_init : decode 0b00000000000000000000000000000001#32 = .ok .init := by decide

theorem test_decode_compress : decode 0b00000000000000000000000000000010#32 = .ok .compress := by decide

theorem test_decode_funnel : decode 0b00000000000000000000000000000011#32 = .ok .funnel := by decide

theorem test_decode_digest : decode 0b00000000000000000000000000000100#32 = .ok .digest := by decide

theorem test_decode_dispatch :
    decode 0b00000000000000000000001100010101#32 = .ok (.dispatch true 3) := by decide

/-- Reserved encodings are rejected by name (R92, R99; section 6.3). -/
theorem test_decode_reserved_opcode : decode 0x00000006#32 = .error .reservedOpcode := by decide

theorem test_decode_compress_bit4 : decode 0x00000012#32 = .error .reservedBits := by decide

theorem test_decode_dispatch_bit5 : decode 0x00000325#32 = .error .reservedBits := by decide

theorem test_decode_dispatch_bit16 : decode 0x00010305#32 = .error .reservedBits := by decide

theorem test_decodeTableWord : decodeTableWord 32 0x0000FF05 = some (.dispatch false 255) := by decide

/-! ## Helpers -/

/-- The answer is a next state of which the test holds. -/
def nextIs (r : Result) (test : State → Bool) : Bool :=
  match r with
  | .next t => test t
  | .fault _ => false
  | .refused _ => false

/-- STATUS as a host reads it. -/
def statusOf (s : State) : Word := regRead s .status

/-- Reset, then CONFIG, SRC, DST, LEN and COUNT written. -/
def configured (config src dst len count : Word) : State :=
  ((((State.reset.setConfig config).setSrc src).setDst dst).setLen len).setCount count

/-- The padded "abc" block of section 2.1. -/
def abcBlock : List Byte := [0x61#8, 0x62#8, 0x63#8, 0x80#8] ++ List.replicate 59 0x00#8 ++ [0x18#8]

/-! ## Datapath -/

/-- Section 2.1: SM3("abc"). -/
theorem test_cf_abc : cf iv abcBlock =
    ⟨0x66c7f0f4#32, 0x62eeedd9#32, 0xd1f2d46b#32, 0xdc10e4e2#32,
     0x4167c487#32, 0x5cf2f7a2#32, 0x297da02b#32, 0x8f4ba8e0#32⟩ := by decide +kernel

/-- Section 3.2: the rotated round constants of rounds 31 and 32. -/
theorem test_round_constants :
    roundConstant 31 = 0x3d43cec5#32 ∧ roundConstant 32 = 0x7a879d8a#32 := by decide

/-- Section 4.1: MixRound(0^16). -/
theorem test_mixRound_zero : mixRound Instance.default.mixKey (List.replicate 16 0x00#8) =
    [0x6a#8, 0x6a#8, 0x5c#8, 0x45#8, 0x2c#8, 0x6d#8, 0x33#8, 0x51#8,
     0xb0#8, 0xd9#8, 0x5d#8, 0x61#8, 0x27#8, 0x9c#8, 0x21#8, 0x5c#8] := by decide

/-- Section 2.2: MixColumns of db 13 53 45. -/
theorem test_mixColumn : mixColumn 0xdb#8 0x13#8 0x53#8 0x45#8 = [0x8e#8, 0x4d#8, 0xa1#8, 0xbc#8] := by
  decide

/-- Section 2.2: ShiftRows of 00 01 .. 0f. -/
theorem test_shiftRows :
    shiftRows ((List.range 16).map (BitVec.ofNat 8)) =
      [0x00#8, 0x05#8, 0x0a#8, 0x0f#8, 0x04#8, 0x09#8, 0x0e#8, 0x03#8,
       0x08#8, 0x0d#8, 0x02#8, 0x07#8, 0x0c#8, 0x01#8, 0x06#8, 0x0b#8] := by decide

/-- Section 4.3: M[4095] = 01, the rest 00, ratio 8: output byte 511 is 01. -/
theorem test_xorFold_last_byte :
    (xorFold (List.replicate 4095 0x00#8 ++ [0x01#8]) 8).getD 511 0 = 0x01#8 := by decide +kernel

/-- Section 6.1: N = 10 and N = 2. -/
theorem test_partition : partition 10 (effectiveWorkers Instance.default 3) = [(0, 3), (3, 6), (6, 10)] ∧
    partition 2 (effectiveWorkers Instance.default 4) = [(0, 0), (0, 0), (0, 0), (0, 2)] := by decide

/-! ## Commands -/

/-- Section 7: NOP from reset; NOP after an error clears ERR. -/
theorem test_nop : nextIs (exec .nop State.reset) (fun t => statusOf t == 0x00000002#32) = true := by
  decide

theorem test_nop_clears_err : nextIs (exec .nop (State.reset.setStatus ⟨true, true, false, 4#4⟩))
    (fun t => statusOf t == 0x00000002#32) = true := by decide

/-- Section 7: an Invalid word gives STATUS 0x46. -/
theorem test_invalid_word : nextIs (commandWrite 0x00000006#32 State.reset)
    (fun t => statusOf t == 0x00000046#32) = true := by decide

/-- Section 3.5: STATE0 written 0, then INIT. -/
theorem test_init : nextIs (exec .init (State.reset.setHash (hashSet iv 0 0#32)))
    (fun t => statusOf t == 0x00000002#32 && regRead t (.state 0) == 0x7380166F#32) = true := by decide

/-- Section 8.1: the "abc" block in memory at 0x10000, COMPRESS of 64 bytes. -/
theorem test_compress : nextIs
    (exec .compress (((State.reset.setMemory (Memory.writeBytes [] 0x10000 abcBlock)).setSrc
      0x10000#32).setLen 64#32))
    (fun t => statusOf t == 0x00000002#32 && regRead t (.state 0) == 0x66c7f0f4#32 &&
      regRead t (.state 7) == 0x8f4ba8e0#32) = true := by decide +kernel

/-- Section 3.5: SRC 0xFFFFFFC1, LEN 0x40. -/
theorem test_compress_wraps : nextIs (exec .compress (configured 8#32 0xFFFFFFC1#32 0#32 0x40#32 0#32))
    (fun t => statusOf t == 0x00000066#32) = true := by decide

/-- Section 4.3: M[5] = 80, the rest 00, ratio 64, xor_fold: output byte 5 is 80, byte 4 is 00. -/
theorem test_funnel : nextIs
    (exec .funnel ((configured 0x40#32 0x10000#32 0x20000#32 4096#32 0#32).setMemory [(0x10005, 0x80#8)]))
    (fun t => statusOf t == 0x00000002#32 && Memory.read t.memory 0x20005 == 0x80#8 &&
      Memory.read t.memory 0x20004 == 0x00#8) = true := by decide +kernel

/-- Section 4.4: CONFIG 0x8, DST 0x10E00 overlaps the source. -/
theorem test_funnel_overlap :
    nextIs (exec .funnel (configured 8#32 0x10000#32 0x10E00#32 4096#32 0#32))
      (fun t => statusOf t == 0x00000066#32) = true := by decide

/-- Sections 1.4 and 5.2: the golden digest of the zero message at ratio 64, WIDTH 1: 16 bytes, and
byte 16 unwritten. -/
theorem test_digest : nextIs
    (exec .digest (configured 0x1040#32 0x10000#32 0x20000#32 4096#32 0#32))
    (fun t => statusOf t == 0x00000002#32 && Memory.readBytes t.memory 0x20000 4 ==
      [0xa1#8, 0x20#8, 0x3a#8, 0x40#8] && Memory.read t.memory 0x2000F == 0x13#8 &&
      Memory.read t.memory 0x20010 == 0x00#8) = true := by decide +kernel

/-- Section 5.2: CONFIG 0x7 and LEN 4095: the configuration is checked first. -/
theorem test_digest_order_of_checks :
    nextIs (exec .digest (configured 7#32 0#32 0x20000#32 4095#32 0#32))
      (fun t => statusOf t == 0x00000026#32) = true := by decide

/-- Sections 1.4 and 6.3: two zero messages at ratio 64, WIDTH 0, two lanes: both slots hold the golden
digest. -/
theorem test_dispatch : nextIs
    (exec (.dispatch false 2) (configured 0x40#32 0x10000#32 0x20000#32 4096#32 2#32))
    (fun t => statusOf t == 0x00000002#32 && Memory.readBytes t.memory 0x20000 2 == [0xa1#8, 0x20#8] &&
      Memory.readBytes t.memory 0x20020 2 == [0xa1#8, 0x20#8] &&
      Memory.readBytes t.memory 0x2003E 2 == [0x9b#8, 0x6c#8]) = true := by decide +kernel

/-- Section 6.3: LANE_AVAIL_MASK 0xB and WORKERS 3, COUNT 0: code 3. -/
theorem test_dispatch_lane_off :
    nextIs (exec (.dispatch false 3)
      { configured 8#32 0#32 0x20000#32 4096#32 0#32 with
        inst := { Instance.default with laneAvail := 0xB#32 } })
      (fun t => statusOf t == 0x00000036#32) = true := by decide

/-! ## Registers and the step -/

/-- Section 7: reads from reset. -/
theorem test_reset_reads : regRead State.reset .id = 0x48434531#32 ∧
    regRead State.reset .params = 0x00780004#32 ∧ regRead State.reset .laneAvail = 0x0000000F#32 ∧
    regRead State.reset .config = 0x00000008#32 ∧ regRead State.reset (.state 7) = 0xB0FB0E4E#32 := by
  decide

/-- Section 7: wr CONFIG, 0xFFFFFFFF; rd CONFIG. -/
theorem test_config_reserved_bits : nextIs (regWrite .config 0xFFFFFFFF#32 State.reset)
    (fun t => regRead t .config == 0x0000337F#32) = true := by decide

/-- Section 7: STATUS 0x46, wr STATUS, 0x6. -/
theorem test_status_clear : nextIs
    (regWrite .status 0x00000006#32 (State.reset.setStatus ⟨true, true, false, 4#4⟩))
    (fun t => statusOf t == 0x00000000#32) = true := by decide

/-- Section 7: a misaligned and an 8-bit access in the window are bus errors. -/
theorem test_window_bus_error :
    windowRead 0x40000006#32 4 State.reset = .fault .windowBusError ∧
    windowWrite 0x40000004#32 1 0x00000002#32 State.reset = .fault .windowBusError := ⟨rfl, rfl⟩

/-- The step issues the word it is given: a DIGEST from reset, where LEN is 0, ends with 0x16. -/
theorem test_step_runs_the_word : nextIs (step (State.reset.withFetchWord 32 4))
    (fun t => statusOf t == 0x00000016#32) = true := by decide

/-! ## Witnesses -/

/-- A small state: message at 0x10000, destination at 0x20000, ratio 64, COUNT 2. -/
def ready : State := configured 0x40#32 0x10000#32 0x20000#32 4096#32 2#32

/-- The same with the engine at work on a command. -/
def working (i : Instr) (job : Job) (lanes : List Lane) : State :=
  (ready.setEngine (.busy (capture i ready) job)).setLanes lanes

/-- The lanes of an idle default instance. -/
def lanesOff : List Lane := List.replicate 4 laneIdle

/-- A busy DIGEST. -/
def digesting : State := working .digest (.digest .fetch) lanesOff

/-- A busy DISPATCH on two lanes. -/
def dispatching : State := working (.dispatch true 2) .dispatch (startLanes 4 2 2)

/-- The same small state of an instance one of whose source bytes has ¬bus_ok. -/
def badBus : State := { ready with inst := { Instance.default with busBad := [⟨0x1003F, 0x10040⟩] } }

theorem witness_wellFormed : Instr.WellFormed (.dispatch true 255) ∧ Instr.WellFormed .nop := by decide

theorem witness_decodes : decode 0x0000FF15#32 = .ok (.dispatch true 255) := by decide

theorem witness_ready_inv : Inv ready :=
  ⟨by decide, by decide, by decide, by decide, by decide, by decide, by decide, rfl, trivial, trivial⟩

theorem witness_badBus_inv : Inv badBus :=
  ⟨by decide, by decide, by decide, by decide, by decide, by decide, by decide, rfl, trivial, trivial⟩

/-- InvalidWordsCompleteWithInvalidCommand: an idle engine, and a word at each boundary of each
clause. -/
theorem witness_invalid_words : State.reset.engine = .idle ∧
    6 ≤ (0x00000006#32).toNat % 16 ∧ 6 ≤ (0xFFFFFFFF#32).toNat % 16 ∧
    ((0x00000010#32).toNat % 16 ≤ 4 ∧ (0x00000010#32).toNat / 16 ≠ 0) ∧
    ((0x00000025#32).toNat % 16 = 5 ∧ (0x00000025#32).toNat / 32 % 8 ≠ 0) ∧
    ((0x00010005#32).toNat % 16 = 5 ∧ (0x00010005#32).toNat / 65536 ≠ 0) ∧
    ((0x0000FF15#32).toNat % 16 = 5 ∧ (0x0000FF15#32).toNat / 32 % 8 = 0 ∧
      (0x0000FF15#32).toNat / 65536 = 0) := by decide

/-- NopCompletes and InitLoadsTheIv: the lowest and the highest Invalid words of OP 0 and 1. -/
theorem witness_nop_init_words : (0x00000010#32).toNat % 16 = 0 ∧ 0x00000010#32 ≠ 0x00000000#32 ∧
    (0xFFFFFFF0#32).toNat % 16 = 0 ∧ (0x00000011#32).toNat % 16 = 1 ∧ 0x00000011#32 ≠ 0x00000001#32 ∧
    (0xFFFFFFF1#32).toNat % 16 = 1 := by decide

/-- StepRunsTheDecodedCommand, both clauses. -/
theorem witness_step_runs : ∃ s t : State, s.inst.legal ∧ decode 4#32 = .ok .digest ∧
    s.inputs = .wr (regAddr s.inst .cmd) 4 4#32 :: [] ∧ s.engine = .idle ∧
    t.inst.legal ∧ t.inputs = .wr (regAddr t.inst .cmd) 4 4#32 :: [] ∧ t.engine ≠ .idle ∧
    t.sched = .host :: [] :=
  ⟨ready.setInputs [.wr (regAddr ready.inst .cmd) 4 4#32],
    (digesting.setInputs [.wr (regAddr ready.inst .cmd) 4 4#32]).setSched [.host],
    by decide, by decide, rfl, rfl, by decide, rfl, by decide, rfl⟩

/-- Statements about a BUSY engine, and about an idle one. -/
theorem witness_busy_and_idle : digesting.engine ≠ .idle ∧ digesting.sched = [] ∧
    ready.engine = .idle ∧ ready.sched = [] := by decide

/-- CompressCompletes. -/
theorem witness_compress : passesChecks ready.inst (capture .compress ready) ∧
    busFails ready.inst (capture .compress ready) = false ∧ ready.engine = .idle ∧ ready.sched = [] :=
  ⟨⟨by decide, by decide, by decide, by decide⟩, by decide, rfl, rfl⟩

/-- CompressOfNothingCompletes, at the highest SRC. -/
theorem witness_compress_nothing : ∃ s : State, s.engine = .idle ∧ s.len = 0#32 ∧ s.src = 0xFFFFFFFF#32 :=
  ⟨configured 8#32 0xFFFFFFFF#32 0#32 0#32 0#32, rfl, rfl, rfl⟩

/-- CompressErrorsAtAcceptance, both clauses. -/
theorem witness_compress_errors : ∃ s t : State, s.engine = .idle ∧ s.len.toNat % 64 ≠ 0 ∧
    t.engine = .idle ∧ t.len.toNat % 64 = 0 ∧ 2 ^ 32 < t.src.toNat + t.len.toNat :=
  ⟨configured 8#32 0#32 0#32 63#32 0#32, configured 8#32 0xFFFFFFC1#32 0#32 64#32 0#32,
    rfl, by decide, rfl, by decide, by decide⟩

/-- RotlIsTheLeftRotation and ScheduleFollowsTheExpansion at the ends of their ranges. -/
theorem witness_rotl_schedule : 31 < 32 ∧ 15 < 16 ∧ (16 ≤ 16 ∧ 16 < 68) ∧ (16 ≤ 67 ∧ 67 < 68) ∧ 63 < 64 := by
  decide

/-- CfStarThreadsTheState. -/
theorem witness_cfStar : (List.replicate 128 0x01#8).length % 64 = 0 ∧ (List.replicate 64 0x02#8).length = 64 :=
  ⟨by rw [List.length_replicate], List.length_replicate⟩

/-- XorFoldIsTheXorOfTheGroups, at ratio 64 and the last byte. -/
theorem witness_xorFold : (List.replicate 4096 0x01#8).length = 4096 ∧ 4096 % 64 = 0 ∧ 63 < 4096 / 64 ∧
    ratioSupported Instance.default 64 = true :=
  ⟨List.length_replicate, by decide, by decide, by decide⟩

/-- FunnelIsLinearAndPeriodicInputsCollapse: a constant message at ratio 8, under the block mix. -/
theorem witness_periodic : ∃ m n : List Byte, m.length = 4096 ∧ n.length = 4096 ∧
    ratioSupported Instance.default 8 = true ∧ (1#2).toNat ≤ 1 ∧ 8 % 2 = 0 ∧
    ∀ i, i + 4096 / 8 < 4096 → m.getD (i + 4096 / 8) 0 = m.getD i 0 := by
  refine ⟨List.replicate 4096 0xFF#8, List.replicate 4096 0x01#8, List.length_replicate,
    List.length_replicate, by decide, by decide, rfl, fun i hi => ?_⟩
  simp only [List.getD_eq_getElem?_getD, List.getElem?_replicate]
  rw [if_pos (by omega), if_pos (by omega)]

/-- MixRoundIsOneAesRound, the first and the last column. -/
theorem witness_mixRound : (List.replicate 16 0x01#8).length = 16 ∧ 0 < 4 ∧ 3 < 4 := by decide

/-- SboxIsTheAffineOfTheInverse, both cases and a byte string. -/
theorem witness_sbox : ((0x00#8 : Byte) = 0#8 ∧ sbox 0x00#8 = 0x63#8) ∧
    ((0x01#8 : Byte) ≠ 0#8 ∧ gfMul 0x01#8 0x01#8 = 1#8 ∧ sbox 0x01#8 = 0x7c#8) ∧
    0 < [0x53#8, 0xc9#8].length := by decide

/-- BlockMixMixesEachSubBlock, the last sub-block. -/
theorem witness_blockMix : (List.replicate 4096 0x01#8).length = 4096 ∧ 255 < 256 :=
  ⟨List.length_replicate, by decide⟩

/-- FunnelCompletes. -/
theorem witness_funnel : passesChecks ready.inst (capture .funnel ready) ∧
    busFails ready.inst (capture .funnel ready) = false :=
  ⟨⟨by decide, by decide, by decide, by decide, by decide⟩, by decide⟩

/-- FunnelErrorsAtAcceptance: a state for each clause. -/
theorem witness_funnel_errors : ∃ s t u : State, s.engine = .idle ∧ t.engine = .idle ∧ u.engine = .idle ∧
    ratioSupported s.inst (configRatio s.config).toNat = false ∧
    ratioSupported t.inst (configRatio t.config).toNat = true ∧ (configMix t.config).toNat ≤ 1 ∧
    t.len.toNat ≠ 4096 ∧
    ratioSupported u.inst (configRatio u.config).toNat = true ∧ (configMix u.config).toNat ≤ 1 ∧
    u.len.toNat = 4096 ∧ u.src.toNat < u.dst.toNat + 4096 / (configRatio u.config).toNat ∧
    u.dst.toNat < u.src.toNat + 4096 :=
  ⟨configured 7#32 0#32 0#32 4096#32 0#32, configured 8#32 0#32 0x20000#32 4095#32 0#32,
    configured 8#32 0x10000#32 0x10E00#32 4096#32 0#32, by decide⟩

/-- DigestCompletes. -/
theorem witness_digest : passesChecks ready.inst (capture .digest ready) ∧
    busFails ready.inst (capture .digest ready) = false :=
  ⟨⟨by decide, by decide, by decide, by decide, by decide, by decide⟩, by decide⟩

/-- DigestErrorsAtAcceptance: a state for each clause; a 32-byte destination at 0xFFFFFFF0. -/
theorem witness_digest_errors : ∃ s t u : State, s.engine = .idle ∧ t.engine = .idle ∧ u.engine = .idle ∧
    ¬(configWidth s.config).toNat ≤ 1 ∧
    ratioSupported t.inst (configRatio t.config).toNat = true ∧ (configMix t.config).toNat ≤ 1 ∧
    (configWidth t.config).toNat ≤ 1 ∧ t.len.toNat ≠ 4096 ∧
    ratioSupported u.inst (configRatio u.config).toNat = true ∧ (configMix u.config).toNat ≤ 1 ∧
    (configWidth u.config).toNat ≤ 1 ∧ u.len.toNat = 4096 ∧ configWidth u.config = 0#2 ∧
    2 ^ 32 < u.dst.toNat + 32 :=
  ⟨configured 0x2008#32 0#32 0#32 4096#32 0#32, configured 8#32 0#32 0x20000#32 4095#32 0#32,
    configured 8#32 0#32 0xFFFFFFF0#32 4096#32 0#32, by decide⟩

/-- DigestAndDispatchIgnoreState: a command that answers a next state. -/
theorem witness_ignore_state : ∃ s t : State, s.sched = [] ∧ exec .digest s = .next t :=
  ⟨State.reset, _, rfl, rfl⟩

/-- EffectiveWorkerCount and PartitionCoversTheBatchOnce, the clauses at their boundaries. -/
theorem witness_partition : Instance.default.legal ∧ 1 ≤ 1 ∧ 1 ≤ 4 ∧ 3 < 4 ∧ ¬3 < 4 - 1 ∧ 2 < 4 - 1 ∧ 9 < 10 := by
  decide

/-- DispatchCompletes and AcceptanceMakesTheEngineBusy. -/
theorem witness_dispatch : passesChecks ready.inst (capture (.dispatch true 2) ready) ∧
    busFails ready.inst (capture (.dispatch true 2) ready) = false ∧
    1 < ready.count.toNat ∧ (ready.setSched [.engine 0]).sched ≠ [] :=
  ⟨⟨by decide, by decide, by decide, by decide, by decide, by decide, by decide, by decide⟩, by decide,
    by decide, by decide⟩

/-- DispatchOfNothingCompletes. -/
theorem witness_dispatch_nothing : ∃ s : State, s.engine = .idle ∧
    ratioSupported s.inst (configRatio s.config).toNat = true ∧ (configMix s.config).toNat ≤ 1 ∧
    (configWidth s.config).toNat ≤ 1 ∧ s.len.toNat = 4096 ∧ s.count = 0#32 ∧
    ∀ k, k < effectiveWorkers s.inst 255 → s.inst.laneAvail.getLsbD k = true := by
  refine ⟨configured 8#32 0#32 0#32 4096#32 0#32, rfl, by decide, by decide, by decide, by decide, rfl,
    fun k hk => ?_⟩
  have hk : k < 4 := hk
  revert k
  decide

/-- DispatchErrorsAtAcceptance: a state for each clause after the first, which DIGEST's witness
meets. -/
theorem witness_dispatch_errors : ∃ t u v : State, t.engine = .idle ∧ u.engine = .idle ∧ v.engine = .idle ∧
    ratioSupported t.inst (configRatio t.config).toNat = true ∧ (configMix t.config).toNat ≤ 1 ∧
    (configWidth t.config).toNat ≤ 1 ∧ t.len.toNat ≠ 4096 ∧
    ratioSupported u.inst (configRatio u.config).toNat = true ∧ u.len.toNat = 4096 ∧
    2 ^ 32 < u.src.toNat + 4096 * u.count.toNat ∧
    ratioSupported v.inst (configRatio v.config).toNat = true ∧ v.len.toNat = 4096 ∧
    v.count.toNat = 0 ∧ 2 < min (max 3 1) v.inst.numLanes ∧ v.inst.laneAvail.getLsbD 2 = false :=
  ⟨configured 8#32 0#32 0#32 4095#32 0#32, configured 8#32 0x1000#32 0#32 4096#32 0x00100000#32,
    { configured 8#32 0#32 0#32 4096#32 0#32 with
      inst := { Instance.default with laneAvail := 0xB#32 } }, by decide⟩

/-- DispatchResultIndependentOfWorkersAndAff, the smallest and the largest count. -/
theorem witness_workers : lanesAvailable ready.inst 0 = true ∧ lanesAvailable ready.inst 255 = true := by
  decide

/-- DeviceRangesAreRefused. -/
theorem witness_device : ∃ s : State, s.engine = .idle ∧
    passesChecks { s.inst with devices := [] } (capture .digest s) ∧
    rangesNormal s.inst (capture .digest s) = false :=
  ⟨{ ready with inst := { Instance.default with devices := [⟨0x2001F, 0x20020⟩] } }, rfl,
    ⟨by decide, by decide, by decide, by decide, by decide, by decide⟩, by decide⟩

/-- BusErrorCompletion. -/
theorem witness_bus_error : passesChecks badBus.inst (capture .digest badBus) ∧
    busFails badBus.inst (capture .digest badBus) = true ∧ badBus.engine = .idle ∧ badBus.sched = [] ∧
    31 < destLength (capture .digest badBus) :=
  ⟨⟨by decide, by decide, by decide, by decide, by decide, by decide⟩, by decide, rfl, rfl, by decide⟩

/-- The invariant holds of busy states: a DIGEST, a FUNNEL, a COMPRESS and a DISPATCH at work. -/
theorem witness_digesting_inv : Inv digesting :=
  ⟨by decide, by decide, by decide, by decide, by decide, by decide, by decide,
    ⟨witness_digest.1, rfl, rfl, fun _ => rfl, rfl, rfl⟩, trivial, by decide, by decide, fun _ _ => .inl rfl⟩

theorem witness_funnelling_inv : Inv (working .funnel (.funnel none) lanesOff) :=
  ⟨by decide, by decide, by decide, by decide, by decide, by decide, by decide,
    ⟨witness_funnel.1, rfl, rfl, fun _ => rfl, rfl, rfl⟩, trivial, by decide, by decide, fun _ _ => .inl rfl⟩

theorem witness_compressing_inv : Inv (working .compress (.compress 0 iv none) lanesOff) :=
  ⟨by decide, by decide, by decide, by decide, by decide, by decide, by decide,
    ⟨witness_compress.1, rfl, ⟨rfl, Nat.zero_le _⟩, fun _ => rfl, rfl, rfl⟩, rfl,
    by decide, by decide, fun _ _ => .inl rfl⟩

theorem witness_dispatching_inv : Inv dispatching :=
  ⟨by decide, by decide, by decide, by decide, by decide, by decide, by decide,
    ⟨witness_dispatch.1, rfl, startLanes_sound Instance.default (capture (.dispatch true 2) ready) 2,
      fun h => absurd rfl h, rfl, rfl⟩,
    startLanes_work Instance.default (capture (.dispatch true 2) ready) [] 2 2,
    by decide, by decide, fun _ _ => .inl rfl⟩

/-- BusyCommandEndsInItsResult, its four commands: no byte with ¬bus_ok. -/
theorem witness_no_bus_error : busFails digesting.inst (capture .digest ready) = false ∧
    busFails digesting.inst (capture .funnel ready) = false ∧
    busFails digesting.inst (capture .compress ready) = false ∧
    busFails dispatching.inst (capture (.dispatch true 2) ready) = false ∧
    63 < 4096 / (capture .funnel ready).ratio.toNat ∧ 31 < digestBytes (capture .digest ready) ∧
    1 < (capture (.dispatch true 2) ready).count.toNat := by decide

/-- RegisterWritesCannotChangeARunningCommand: a lost write of SRC. -/
theorem witness_lost_write : ∃ t : State, regWrite .src 0x1234#32 digesting = .next t := ⟨_, rfl⟩

/-- FrameOfCommandsThatStoreNothing: each of its commands completes. -/
theorem witness_frame_registers : ∃ t u v : State, exec .nop ready = .next t ∧ exec .init ready = .next u ∧
    exec .compress State.reset = .next v := ⟨_, _, _, rfl, rfl, rfl⟩

/-- FrameOfCommandsThatStore: a FUNNEL, a DIGEST and a DISPATCH that answer a next state, and an address
on each side of the destination range. -/
theorem witness_frame_stores : (∃ t, exec .funnel ready = .next t) ∧ (∃ t, exec .digest ready = .next t) ∧
    (∃ t, exec (.dispatch true 2) ready = .next t) ∧
    (destRange (capture .digest ready)).has 0x1FFFF = false ∧
    (destRange (capture .digest ready)).has 0x20020 = false := by
  refine ⟨?_, ?_, ?_, by decide, by decide⟩
  · exact ⟨finishCommand (setJob (capture .funnel ready) (.funnel none) (acceptCommand ready)), rfl⟩
  · exact ⟨finishCommand (setJob (capture .digest ready) (.digest .fetch) (acceptCommand ready)), rfl⟩
  · exact ⟨finishCommand (setJob (capture (.dispatch true 2) ready) .dispatch
      ((acceptCommand ready).setLanes (startLanes 4 2 2))), rfl⟩

/-- EngineWritesOnlyTheDestination: an address outside the destination, two of the source, and a move after
which the command still runs. -/
theorem witness_engine_writes : (destRange (capture .digest ready)).has 0x20020 = false ∧
    (sourceRange (capture .digest ready)).has 0x10FFF = true ∧
    (sourceRange (capture .digest ready)).has 0x10000 = true ∧
    ∃ c' job', (engineMove 0 digesting).engine = .busy c' job' :=
  ⟨by decide, by decide, by decide, _, _, rfl⟩

/-- OnlyCompletionOfCompressWritesState: a COMPRESS about to complete with another state. -/
theorem witness_compress_completing :
    let s := working .compress (.compress 64 ⟨0#32, 0#32, 0#32, 0#32, 0#32, 0#32, 0#32, 0#32⟩ none) lanesOff
    (engineMove 0 s).hash ≠ s.hash ∧ ∀ k v core, Job.digest .fetch ≠ .compress k v core :=
  ⟨by decide, by simp⟩

/-- The register statements: a legal instance; the reserved offsets at the ends of their ranges; accesses
of the wrong size or alignment at the ends of the window, and an accepted one at its last word. -/
theorem witness_registers : State.reset.inst.legal ∧
    (0x2C % 4 = 0 ∧ 0x2C ≤ 0x2C ∧ 0x2C < 0x40) ∧ (0x3C % 4 = 0 ∧ 0x2C ≤ 0x3C ∧ 0x3C < 0x40) ∧
    (0x60 % 4 = 0 ∧ 0x60 ≤ 0x60 ∧ 0x60 < 256) ∧ (0xFC % 4 = 0 ∧ 0x60 ≤ 0xFC ∧ 0xFC < 256) ∧
    (windowSpan State.reset.inst).has (0x40000001#32).toNat = true ∧ (0x40000001#32).toNat % 4 ≠ 0 ∧
    (windowSpan State.reset.inst).has (0x400000FF#32).toNat = true ∧ (1 : Nat) ≠ 4 ∧
    (windowSpan State.reset.inst).has (0x400000FC#32).toNat = true ∧ (0x400000FC#32).toNat % 4 = 0 := by decide

/-- CtrlWriteResetsOrSetsIrqEn, StatusWriteClears and InterruptFollowsDone: bits of the written word, and
CTRL writes that answer; for StatusWriteClears' sound BUSY state see witness_digesting_inv. -/
theorem witness_control_words : (0x3#32).getLsbD 1 = true ∧ (0x1#32).getLsbD 1 = false ∧
    (0x2#32).getLsbD 1 = true ∧ ∃ t, regWrite .ctrl 0x1#32 digesting = .next t :=
  ⟨by decide, by decide, by decide, _, rfl⟩

/-- ResetValues: a soft reset and the reset input, from a busy engine. -/
theorem witness_resets : (∃ t, regWrite .ctrl 0x00000002#32 digesting = .next t) ∧
    ∃ t, hostAccess .hardReset digesting = .next t := ⟨⟨_, rfl⟩, _, rfl⟩

/-- ResetAbortsTheRunningCommand: canonical memory, a busy engine, an address inside the destination and
one outside. -/
theorem witness_reset_busy : Memory.wf digesting.memory ∧
    digesting.engine = .busy (capture .digest ready) (.digest .fetch) ∧
    (destRange (capture .digest ready)).has 0x2001F = true ∧
    (destRange (capture .digest ready)).has 0x20020 = false := by decide

/-- HostWritesToBusyRangesAreRefused: a write that meets the running source, and one that does not. -/
theorem witness_host_write : plainMemory digesting (hostSpan 0x10FFF#32 2) = true ∧
    meetsRunning digesting (hostSpan 0x10FFF#32 2) = true ∧
    plainMemory digesting (hostSpan 0x11000#32 2) = true ∧
    meetsRunning digesting (hostSpan 0x11000#32 2) = false := by decide

/-- A busy DIGEST that will end in BusError. -/
def failing : State := badBus.setEngine (.busy (capture .digest badBus) (.digest .fetch))

/-- EarlyReadIsOldOrFinal: reads of the last destination byte and of the byte after it, no bus error to
come, and a read in a sound state where one is. -/
theorem witness_early_read : (∃ t, memoryRead 0x2001F#32 1 digesting = .next t) ∧
    (∃ t, memoryRead 0x20020#32 1 digesting = .next t) ∧
    (destRange (capture .digest ready)).has 0x2001F = true ∧
    (destRange (capture .digest ready)).has 0x20020 = false ∧
    busFails digesting.inst (capture .digest ready) = false ∧
    Inv failing ∧ (∃ t, memoryRead 0x2001F#32 1 failing = .next t) ∧
    busFails failing.inst (capture .digest badBus) = true :=
  ⟨⟨_, rfl⟩, ⟨_, rfl⟩, by decide, by decide, by decide,
    ⟨by decide, by decide, by decide, by decide, by decide, by decide, by decide,
      ⟨witness_bus_error.1, rfl, rfl, fun _ => rfl, rfl, rfl⟩, trivial,
      by decide, by decide, fun _ _ => .inl rfl⟩, ⟨_, rfl⟩, by decide⟩

/-- AdmittedStepsNeverStop: a host with an admitted access. -/
theorem witness_admitted : ∃ s : State, s.inst.devices = [] ∧ s.inputs ≠ [] ∧
    ∀ op rest, s.inputs = op :: rest → admitted s op = true := by
  refine ⟨ready.setInputs [.wr 0x4000000C#32 4 4#32], rfl, by decide, fun op rest h => ?_⟩
  obtain ⟨h, -⟩ := List.cons.inj h
  subst h
  decide

/-- EveryStepKeepsTheInvariant: a sound state whose step answers a next state. -/
theorem witness_step_next : ∃ t : State, step (ready.setInputs [.wr 0x40000004#32 4 1#32]) = .next t := ⟨_, rfl⟩

end Sys2Proof.Tests
end

section
/-! SUPPORT. The compression function through its written-out round, and CFstar over concatenations
(spec 40_compression.md R123 to R134). -/

namespace Sys2Proof.Machine

/-- FF_j with the split at round 16 (R123). -/
theorem ffj_eq_ite_lt (j : Nat) (x y z : Word) :
    ffj j x y z = if j < 16 then x ^^^ y ^^^ z else (x &&& y) ||| (x &&& z) ||| (y &&& z) :=
  if_congr Nat.lt_succ_iff.symm rfl rfl

/-- GG_j with the split at round 16 (R124). -/
theorem ggj_eq_ite_lt (j : Nat) (x y z : Word) :
    ggj j x y z = if j < 16 then x ^^^ y ^^^ z else (x &&& y) ||| (~~~x &&& z) :=
  if_congr Nat.lt_succ_iff.symm rfl rfl

/-- T[j] with the split at round 16 (R43). -/
theorem tRom_eq_ite_lt (j : Nat) :
    tRom j = if j < 16 then 0x79CC4519#32 else 0x7A879D8A#32 :=
  if_congr Nat.lt_succ_iff.symm rfl rfl

/-- W'[j] = W[j] ⊕ W[j+4] for each of the 64 rounds (R127). -/
theorem derivedSchedule_getD (w : List Word) {j : Nat} (hj : j < 64) :
    (derivedSchedule w).getD j 0 = w.getD j 0 ^^^ w.getD (j + 4) 0 := by
  simp [derivedSchedule, List.getD_eq_getElem?_getD, hj]

/-- CFstar of one block is CF (R134). -/
theorem cfStar_block (v : HashState) (b : List Byte) (hb : b.length = 64) : cfStar v b = cf v b := by
  simpa using cfStar_cons v b [] hb

/-- CFstar after a string of whole blocks goes on from the state those blocks gave (R134). -/
theorem cfStar_append (v : HashState) (x y : List Byte) (hx : x.length % 64 = 0) :
    cfStar v (x ++ y) = cfStar (cfStar v x) y := by
  have hlen : x.length = 64 * (x.length / 64) := by omega
  have hblocks : (x ++ y).length / 64 = x.length / 64 + y.length / 64 := by
    rw [List.length_append]
    omega
  rw [cfStar, hblocks, slices_append 64 _ _ x y hlen, List.foldl_append]
  rfl

/-- Settles O15: CF by rewriting each of the 64 rounds into its written-out form, CFstar by splitting the
slices of x ‖ y at the end of x. -/
theorem cfStarThreadsTheState : Obligations.CfStarThreadsTheState := by
  unfold Obligations.CfStarThreadsTheState
  intro perm0 ff gg constant round v x y b hx hb r
  have hround : ∀ (s : HashState), ∀ j ∈ List.range 64,
      roundStep (schedule b) (derivedSchedule (schedule b)) j s =
        round (fun j => (schedule b).getD j 0) s j := by
    intro s j hj
    simp only [roundStep, derivedSchedule_getD _ (List.mem_range.1 hj), ffj_eq_ite_lt, ggj_eq_ite_lt,
      roundConstant, tRom_eq_ite_lt]
    rfl
  have hcf : cf v b = feedForward v r :=
    congrArg (feedForward v) (List.foldl_ext _ _ v hround)
  exact ⟨hcf, cfStar_nil v, cfStar_block v b hb, cfStar_append v x y hx⟩

end Sys2Proof.Machine
end

section
/-! SUPPORT. The register window: where an offset lies in it, which register stands there, and what an
aligned access answers (spec 10_state.md R20 to R22). -/

namespace Sys2Proof.Machine

/-- Where HCE_BASE is legal the window does not wrap: each of its 256 offsets is at its own bus address
(R20). -/
theorem windowOffset_hceBase_add {p : Instance} (hp : p.legal) {off : Nat} (hoff : off < 256) :
    windowOffset p (p.hceBase + BitVec.ofNat 32 off) = some off := by
  obtain ⟨halign, -⟩ := hp
  have haddr : (p.hceBase + BitVec.ofNat 32 off).toNat = p.hceBase.toNat + off := by
    rw [BitVec.toNat_add, BitVec.toNat_ofNat]
    omega
  have hin : (windowSpan p).has (p.hceBase.toNat + off) = true := by
    simp only [Span.has_iff, windowSpan]
    omega
  rw [windowOffset, haddr, if_pos hin, Nat.add_sub_cancel_left]

/-- An aligned 32-bit read answers the register at the offset (R20, R21). -/
theorem windowRead_aligned {s : State} (hs : s.inst.legal) {off : Nat} (hoff : off < 256)
    (halign : off % 4 = 0) :
    windowRead (s.inst.hceBase + BitVec.ofNat 32 off) 4 s =
      .next (s.setResponse (.data (regRead s (regAt off)))) := by
  simp [windowRead, windowOffset_hceBase_add hs hoff, accessAccepted, halign]

/-- An aligned 32-bit write does what the rule of the register at the offset says (R20, R21). -/
theorem windowWrite_aligned {s : State} (hs : s.inst.legal) {off : Nat} (hoff : off < 256)
    (halign : off % 4 = 0) (v : Word) :
    windowWrite (s.inst.hceBase + BitVec.ofNat 32 off) 4 v s =
      regWrite (regAt off) v (s.setResponse .written) := by
  simp [windowWrite, windowOffset_hceBase_add hs hoff, accessAccepted, halign]

/-- No register stands at 0x2C to 0x3F nor from 0x60 on: the last equation of `regAt` (R22). -/
theorem regAt_reserved {off : Nat} (h : 0x2C ≤ off ∧ off < 0x40 ∨ 0x60 ≤ off) :
    regAt off = .reserved := by
  rw [regAt.eq_20] <;> omega

theorem regOffset_lt (r : Reg) : regOffset r < 256 := by
  cases r with
  | state k => simp only [regOffset]; omega
  | _ => decide

theorem regOffset_aligned (r : Reg) : regOffset r % 4 = 0 := by
  cases r with
  | state k => simp only [regOffset]; omega
  | _ => rfl

/-- Each register stands at its own offset (R20). -/
theorem regAt_regOffset (r : Reg) : regAt (regOffset r) = r := by
  cases r with
  | state k => fin_cases k <;> rfl
  | _ => rfl

/-- Every register can be read at its address, BUSY or not (R35). -/
theorem windowRead_regAddr {s : State} (hs : s.inst.legal) (r : Reg) :
    windowRead (regAddr s.inst r) 4 s = .next (s.setResponse (.data (regRead s r))) := by
  rw [regAddr, windowRead_aligned hs (regOffset_lt r) (regOffset_aligned r), regAt_regOffset]

/-- Settles O46: both accesses reach the register `reserved`, which reads 0 and ignores writes. -/
theorem reservedOffsetsReadZeroIgnoreWrites : Obligations.ReservedOffsetsReadZeroIgnoreWrites := by
  intro s off v hs halign hoff hreserved
  rw [windowRead_aligned hs hoff halign, windowWrite_aligned hs hoff halign, regAt_reserved hreserved]
  exact ⟨rfl, rfl⟩

end Sys2Proof.Machine
end

section
/-! SUPPORT. The write lock while BUSY (spec 10_state.md R35). -/

namespace Sys2Proof.Machine

/-- The lock drops a store while BUSY (R35). -/
theorem lockedStore_busy {s : State} {c : Ctx} {j : Job} (h : s.engine = .busy c j)
    (store : State → State) : lockedStore s store = dropWrite s := by
  simp [lockedStore, h]

/-- A word written to CMD while BUSY is dropped, whether it decodes or not (R241). -/
theorem commandWrite_busy {s : State} {c : Ctx} {j : Job} (h : s.engine = .busy c j) (w : Word) :
    commandWrite w s = .next (dropWrite s) := by
  unfold commandWrite
  split
  · exact exec_busy h _
  · exact onCommand_busy h _

/-- Settles O50: the lock for the locked registers, the registers' own rules for the others. -/
theorem writeLockWhileBusy : Obligations.WriteLockWhileBusy := by
  intro s v k
  refine ⟨fun hbusy => ?_, rfl, rfl, ?_, fun hs r => windowRead_regAddr hs r⟩
  · cases he : s.engine with
    | idle => exact absurd he hbusy
    | busy c j =>
      have hstore (store : State → State) : Host.Outcome.next (lockedStore s store) =
          (.next (dropWrite s) : Result) := congrArg _ (lockedStore_busy he store)
      simp only [List.forall_mem_cons]
      exact ⟨commandWrite_busy he v, hstore _, hstore _, hstore _, hstore _, hstore _, hstore _,
        List.forall_mem_nil _⟩
  · simp only [List.forall_mem_cons]
    exact ⟨rfl, rfl, rfl, rfl, List.forall_mem_nil _⟩

end Sys2Proof.Machine
end

section
/-! SUPPORT. The bits that the interrupt output follows, and the state after a reset (spec 10_state.md R24,
R25, R47, R48). -/

namespace Sys2Proof.Machine

/-- CTRL shows IRQ_EN in bit 0 (R24). -/
@[simp] theorem ctrlWord_getLsbD_zero (irqEn : Bool) : (ctrlWord irqEn).getLsbD 0 = irqEn := by
  cases irqEn <;> rfl

/-- STATUS shows DONE in bit 1 (R25). -/
@[simp] theorem statusWord_getLsbD_one (busy : Bool) (t : Status) :
    (statusWord busy t).getLsbD 1 = t.done := by
  simp only [statusWord, BitVec.getLsbD_append]
  simp

/-- CTRL reads 0 while IRQ_EN is 0, as after a reset (R24, R48). -/
theorem ctrlWord_false : ctrlWord false = 0#32 := rfl

/-- STATUS reads 0 after a reset (R48). -/
theorem statusWord_statusReset : statusWord false statusReset = 0#32 := rfl

/-- A reset, of an idle engine or a busy one, leaves every register at its reset value (R48, R303). -/
theorem resetEngine_eq_resetRegisters (s : State) : ∃ u, resetEngine s = resetRegisters u := by
  cases h : s.engine with
  | idle => exact ⟨s, by simp only [resetEngine, h]⟩
  | busy c j => exact ⟨scrambleDest c s, by simp only [resetEngine, h]⟩

/-- A reset lowers the interrupt output (R47, R48). -/
theorem irq_resetEngine (s : State) : irq (resetEngine s) = false := by
  obtain ⟨u, hu⟩ := resetEngine_eq_resetRegisters s
  rw [hu]
  rfl

/-- Settles O52: irq is a function of the two stored bits, which a CTRL write with bit 1 clear and a
reset fix. -/
theorem interruptFollowsDone : Obligations.InterruptFollowsDone := by
  intro s
  refine ⟨?_, irq_resetEngine s, rfl, fun v t hv hwrite => ?_⟩
  · simp only [irq, regRead, ctrlWord_getLsbD_zero, statusWord_getLsbD_one]
  · have ht : t = s.setIrqEn (v.getLsbD 0) := by
      rw [regWrite, ctrlWrite, hv] at hwrite
      exact (Host.Outcome.next.inj hwrite).symm
    simp only [ht, irq, State.setIrqEn_irqEn, State.setIrqEn_status]

/-- A soft reset, the reset input and the state the machine starts in all give the reset values, up to
the bus's answer to the host (R300 to R302). -/
theorem reset_cases {s t : State}
    (h : regWrite .ctrl 0x00000002#32 s = .next t ∨ hostAccess .hardReset s = .next t ∨
      t = State.reset) :
    ∃ u answer, t = (resetRegisters u).setResponse answer := by
  obtain ⟨u, hu⟩ := resetEngine_eq_resetRegisters s
  rcases h with hsoft | hhard | rfl
  · have ht : resetEngine s = t := Host.Outcome.next.inj hsoft
    exact ⟨u, u.response, by rw [← ht, hu]; rfl⟩
  · have ht : (resetEngine s).setResponse .none = t := Host.Outcome.next.inj hhard
    exact ⟨u, .none, by rw [← ht, hu]⟩
  · exact ⟨State.reset, .none, rfl⟩

/-- Settles O53: each way to reset gives `resetRegisters` of some state, whose fields are R48's values. -/
theorem resetValues : Obligations.ResetValues := by
  intro s t h
  obtain ⟨u, answer, rfl⟩ := reset_cases h
  have hlanes : ∀ l ∈ List.replicate u.inst.numLanes laneIdle, l.active = false := by
    intro l hl
    rw [List.eq_of_mem_replicate hl]
    rfl
  exact ⟨rfl, ctrlWord_false, statusWord_statusReset, rfl, rfl, rfl, rfl, rfl, rfl, rfl, rfl, rfl, hlanes,
    List.length_replicate, rfl⟩

end Sys2Proof.Machine
end

section
/-! SUPPORT. The message schedule as a list that grows at its end: the entries so far stay, and each new
entry is computed from them (spec 40_compression.md R125 to R127). -/

namespace Sys2Proof.Machine

@[simp] theorem blockWords_length (b : List Byte) : (blockWords b).length = 16 := by
  simp [blockWords]

/-- W[i] is the i-th group of four bytes of the block, big-endian (R125). -/
theorem blockWords_getD (b : List Byte) {i : Nat} (hi : i < 16) :
    (blockWords b).getD i 0 =
      be32 (b.getD (4 * i) 0) (b.getD (4 * i + 1) 0) (b.getD (4 * i + 2) 0) (b.getD (4 * i + 3) 0) := by
  simp [blockWords, List.getD_eq_getElem?_getD, hi]

@[simp] theorem expandSchedule_length (n : Nat) (w : List Word) :
    (expandSchedule n w).length = w.length + n := by
  induction n generalizing w with
  | zero => rfl
  | succ n ih =>
    rw [expandSchedule, ih, List.length_append, List.length_singleton]
    omega

/-- A schedule and any longer one that begins with it agree on its entries. -/
theorem getD_of_prefix {w s : List Word} (h : w <+: s) {i : Nat} (hi : i < w.length) :
    s.getD i 0 = w.getD i 0 := by
  obtain ⟨added, rfl⟩ := h
  exact List.getD_append _ _ _ _ hi

/-- The expansion only adds entries at the end (R126). -/
theorem prefix_expandSchedule (n : Nat) (w : List Word) : w <+: expandSchedule n w := by
  induction n generalizing w with
  | zero => exact List.prefix_rfl
  | succ n ih => exact (List.prefix_append w _).trans (ih _)

/-- The expansion keeps the entries it began from (R126). -/
theorem expandSchedule_getD_old (n : Nat) (w : List Word) {i : Nat} (hi : i < w.length) :
    (expandSchedule n w).getD i 0 = w.getD i 0 :=
  getD_of_prefix (prefix_expandSchedule n w) hi

/-- Each entry that the expansion adds is computed from all the entries before it: the order of R126. -/
theorem expandSchedule_getD_new (n : Nat) (w : List Word) {j : Nat} (hlo : w.length ≤ j)
    (hhi : j < w.length + n) :
    (expandSchedule n w).getD j 0 = nextScheduleWord ((expandSchedule n w).take j) := by
  induction n generalizing w with
  | zero => omega
  | succ n ih =>
    rw [expandSchedule]
    have hlen : (w ++ [nextScheduleWord w]).length = w.length + 1 := List.length_append
    rcases Nat.eq_or_lt_of_le hlo with rfl | hlater
    · have htake : (expandSchedule n (w ++ [nextScheduleWord w])).take w.length = w :=
        (List.prefix_iff_eq_take.1 (prefix_expandSchedule (n + 1) w)).symm
      rw [htake, expandSchedule_getD_old n _ (by omega), List.getD_append_right _ _ _ _ le_rfl,
        Nat.sub_self, List.getD_cons_zero]
    · exact ih _ (by omega) (by omega)

/-- R126 on the first j entries of a longer schedule reads the schedule's own entries. -/
theorem nextScheduleWord_take {j : Nat} (s : List Word) (hlo : 16 ≤ j) (hhi : j ≤ s.length) :
    nextScheduleWord (s.take j) =
      p1 (s.getD (j - 16) 0 ^^^ s.getD (j - 9) 0 ^^^ rotl (s.getD (j - 3) 0) 15) ^^^
        rotl (s.getD (j - 13) 0) 7 ^^^ s.getD (j - 6) 0 := by
  have hback {k : Nat} (hk : 0 < k) : (s.take j).getD (j - k) 0 = s.getD (j - k) 0 :=
    (getD_of_prefix (List.take_prefix j s) (by rw [List.length_take_of_le hhi]; omega)).symm
  simp only [nextScheduleWord, List.length_take_of_le hhi, hback, Nat.ofNat_pos]

@[simp] theorem schedule_length (b : List Byte) : (schedule b).length = 68 := by
  simp [schedule]

@[simp] theorem derivedSchedule_length (w : List Word) : (derivedSchedule w).length = 64 := by
  simp [derivedSchedule]

/-- W[0..15] are the words of the block (R125). -/
theorem schedule_getD_block (b : List Byte) {i : Nat} (hi : i < 16) :
    (schedule b).getD i 0 = (blockWords b).getD i 0 :=
  expandSchedule_getD_old 52 _ (by rwa [blockWords_length])

/-- W[16..67] are the expansion (R126). -/
theorem schedule_getD_expanded (b : List Byte) {j : Nat} (hlo : 16 ≤ j) (hhi : j < 68) :
    (schedule b).getD j 0 =
      p1 ((schedule b).getD (j - 16) 0 ^^^ (schedule b).getD (j - 9) 0 ^^^
          rotl ((schedule b).getD (j - 3) 0) 15) ^^^
        rotl ((schedule b).getD (j - 13) 0) 7 ^^^ (schedule b).getD (j - 6) 0 := by
  have hnew : (schedule b).getD j 0 = nextScheduleWord ((schedule b).take j) :=
    expandSchedule_getD_new 52 _ (by rwa [blockWords_length]) (by rwa [blockWords_length])
  rw [hnew, nextScheduleWord_take _ hlo (by rw [schedule_length]; omega)]

/-- Settles O14: the block's words stay at the front of the expansion, and each added entry is
`nextScheduleWord` of the entries before it. -/
theorem scheduleFollowsTheExpansion : Obligations.ScheduleFollowsTheExpansion := by
  intro b w perm1
  exact ⟨schedule_length b, derivedSchedule_length _,
    fun i hi => (schedule_getD_block b hi).trans (blockWords_getD b hi),
    fun j hlo hhi => schedule_getD_expanded b hlo hhi,
    fun j hj => derivedSchedule_getD _ hj⟩

end Sys2Proof.Machine
end

section
/-! SUPPORT. Rotation and serialization (spec 40_compression.md R120, R135). -/

namespace Sys2Proof.Machine

/-- rotl is the library's left rotation (R120). -/
theorem rotl_eq_rotateLeft (x : Word) (n : Nat) : rotl x n = x.rotateLeft n := rfl

/-- Rotating by n and by n mod 32 is the same (R120). -/
theorem rotl_mod (x : Word) (n : Nat) : rotl x (n % 32) = rotl x n :=
  BitVec.rotateLeft_mod_eq_rotateLeft

@[simp] theorem rotl_zero (x : Word) : rotl x 0 = x := by
  have hlow : x >>> 32 = 0#32 := BitVec.ushiftRight_eq_zero le_rfl
  simp [rotl, hlow]

/-- Bit i of x is bit (i + n) mod 32 of rotl(x, n) (R120). -/
theorem rotl_getLsbD (x : Word) (n : Nat) {i : Nat} (hi : i < 32) :
    (rotl x n).getLsbD ((i + n) % 32) = x.getLsbD i := by
  rw [rotl_eq_rotateLeft, BitVec.getLsbD_rotateLeft, Bool.cond_decide]
  split
  case isTrue hwrapped =>
    congr 1
    omega
  case isFalse hkept =>
    have hback : (i + n) % 32 - n % 32 = i := by omega
    rw [hback, decide_eq_true (Nat.mod_lt _ (by decide)), Bool.true_and]

/-- Settles O13: bit by bit from the library's rotation; 32 and 33 are 0 and 1 mod 32. -/
theorem rotlIsTheLeftRotation : Obligations.RotlIsTheLeftRotation := by
  intro x n i hi
  exact ⟨rotl_getLsbD x n hi, rotl_zero x, (rotl_mod x 32).symm.trans (rotl_zero x),
    (rotl_mod x 33).symm, by decide⟩

/-- Byte 4k + i of SER(V) is byte i of V_k, most significant first (R135). -/
theorem ser_getD (v : HashState) (k : Fin 8) (i : Fin 4) :
    (ser v).getD (4 * k.val + i.val) 0 = (beBytes (hashGet v k)).getD i.val 0 := by
  fin_cases k <;> fin_cases i <;> rfl

/-- Settles O16: the bytes of `beBytes` for each word. -/
theorem serializationIsBigEndian : Obligations.SerializationIsBigEndian := by
  intro v k
  exact ⟨ser_length v, ser_getD v k 0, ser_getD v k 1, ser_getD v k 2, ser_getD v k 3⟩

end Sys2Proof.Machine
end

section
/-! SUPPORT. The words with a given opcode, and INIT (spec 30_encoding.md R90, R92, R98;
40_compression.md R136). -/

namespace Sys2Proof

/-- OP is the word modulo 16 (R90). -/
theorem fieldOp_eq_iff (w : Word) (op : BitVec 4) : fieldOp w = op ↔ w.toNat % 16 = op.toNat := by
  rw [fieldOp, ← BitVec.toNat_inj, BitVec.extractLsb'_toNat, Nat.shiftRight_zero]

/-- A word is its bits 31:4 and its OP (R90). -/
theorem fieldAboveOp_append_fieldOp (w : Word) : fieldAboveOp w ++ fieldOp w = w :=
  BitVec.extractLsb'_append_extractLsb'

/-- Where bits 31:4 are reserved, the word of an opcode is unique (R92). -/
theorem fieldAboveOp_eq_zero_iff {w : Word} {op : BitVec 4} (hop : fieldOp w = op) :
    fieldAboveOp w = 0#28 ↔ w = 0#28 ++ op := by
  subst hop
  constructor
  · intro hzero
    rw [← hzero, fieldAboveOp_append_fieldOp]
  · intro hw
    rw [hw, fieldAboveOp, BitVec.extractLsb'_append_eq_left]

/-- An opcode whose bits 31:4 are reserved decodes from one word only (R92, R98). -/
theorem decodeFixed_eq_ok_iff {w : Word} {op : BitVec 4} (hop : fieldOp w = op) (i j : Instr) :
    decodeFixed w i = .ok j ↔ w = 0#28 ++ op ∧ i = j := by
  rw [← fieldAboveOp_eq_zero_iff hop, decodeFixed]
  split
  case isTrue hzero => simp [hzero]
  case isFalse hset => simp [hset]

/-- Every other word with that opcode has a reserved bit set (R92, R98). -/
theorem decodeFixed_reservedBits {w : Word} {op : BitVec 4} (hop : fieldOp w = op)
    (hw : w ≠ 0#28 ++ op) (i : Instr) : decodeFixed w i = .error .reservedBits := by
  rw [decodeFixed, if_neg (mt (fieldAboveOp_eq_zero_iff hop).1 hw)]

/-- OP 1 is INIT's (R91). -/
theorem decode_of_fieldOp_one {w : Word} (hop : fieldOp w = 0x1#4) : decode w = decodeFixed w .init := by
  simp [decode, hop]

/-- No other opcode decodes to INIT (R91). -/
theorem fieldOp_of_decode_init {w : Word} (h : decode w = .ok .init) : fieldOp w = 0x1#4 := by
  by_contra hop
  simp only [decode, if_neg hop] at h
  split_ifs at h <;> simp [decodeFixed_eq_ok_iff rfl] at h

/-- INIT is the word 0x00000001 exactly (R91, R92). -/
theorem decode_eq_init_iff (w : Word) : decode w = .ok .init ↔ w = 0x00000001#32 := by
  constructor
  · intro h
    have hop := fieldOp_of_decode_init h
    obtain ⟨hw, -⟩ := (decodeFixed_eq_ok_iff hop _ _).1 ((decode_of_fieldOp_one hop).symm.trans h)
    exact hw
  · rintro rfl
    decide

end Sys2Proof

namespace Sys2Proof.Machine

/-- A word that does not decode completes with InvalidCommand and changes STATUS alone (R274). -/
theorem commandWrite_invalid {s : State} {w : Word} {e : Invalid} (hw : decode w = .error e)
    (hs : s.engine = .idle) :
    commandWrite w s = .next (s.setStatus (statusOfError .invalidCommand s.status)) := by
  simp only [commandWrite, hw, execInvalid, onCommand_idle hs, takeError_acceptCommand hs]

/-- INIT from an idle engine (R136). -/
theorem execInit_idle {s : State} (h : s.engine = .idle) :
    exec .init s = .next ((s.setHash iv).setStatus (statusOfSuccess s.status)) := by
  have hidle : (s.setHash iv).engine = .idle := h
  simp only [exec, execInit, onCommand_idle h]
  exact congrArg _ (completeSuccess_acceptCommand hidle)

/-- A reset leaves the engine idle (R48). -/
@[simp] theorem resetEngine_engine (s : State) : (resetEngine s).engine = .idle := by
  obtain ⟨u, hu⟩ := resetEngine_eq_resetRegisters s
  rw [hu, resetRegisters_engine]

/-- INIT after a reset changes STATUS alone: reset already loaded IV (R136, R48). -/
theorem execInit_resetEngine (s : State) :
    exec .init (resetEngine s) = .next ((resetEngine s).setStatus ⟨true, false, false, 0#4⟩) := by
  rw [execInit_idle (resetEngine_engine s)]
  obtain ⟨u, hu⟩ := resetEngine_eq_resetRegisters s
  rw [hu]
  rfl

/-- Settles O9: the one word of OP 1 that decodes, then INIT from each state of the engine. -/
theorem initLoadsTheIv : Obligations.InitLoadsTheIv := by
  intro s
  refine ⟨decode_eq_init_iff, fun w hmod hw hidle => ?_, execInit_resetEngine s, execInit_idle,
    fun hbusy => ?_⟩
  · have hop : fieldOp w = 0x1#4 := (fieldOp_eq_iff w _).2 hmod
    exact commandWrite_invalid ((decode_of_fieldOp_one hop).trans (decodeFixed_reservedBits hop hw _))
      hidle
  · cases he : s.engine with
    | idle => exact absurd he hbusy
    | busy c j => exact exec_busy he _

end Sys2Proof.Machine
end

section
/-! SUPPORT. The S-box and one mix round, byte by byte (spec 41_funnel.md R163 to R167). -/

namespace Sys2Proof.Machine

/-- Byte i of the XOR of two strings is the XOR of their bytes i. -/
theorem xorBytes_getD {x y : List Byte} {i : Nat} (hx : i < x.length) (hy : i < y.length) :
    (xorBytes x y).getD i 0 = x.getD i 0 ^^^ y.getD i 0 := by
  simp [xorBytes, List.getD_eq_getElem?_getD, hx, hy]

@[simp] theorem subBytes_length (x : List Byte) : (subBytes x).length = x.length :=
  List.length_map _

/-- SubBytes works on each byte alone (R165). -/
theorem subBytes_getD {x : List Byte} {i : Nat} (hi : i < x.length) :
    (subBytes x).getD i 0 = sbox (x.getD i 0) := by
  simp [subBytes, List.getD_eq_getElem?_getD, hi]

/-- Undoes the affine transform of R165 step 2: the usual inverse of the AES affine map. -/
def sboxAffineInverse (x : Byte) : Byte :=
  rotl8 x 1 ^^^ rotl8 x 3 ^^^ rotl8 x 6 ^^^ 0x05#8

theorem sboxAffine_sboxAffineInverse : ∀ x : Byte, sboxAffine (sboxAffineInverse x) = x := by
  decide +kernel

/-- Every entry of the table, the affine transform undone, is the inverse of its index (R165 step 1). -/
theorem gfMul_sboxAffineInverse_sbox :
    ∀ b : Byte, b ≠ 0#8 → gfMul b (sboxAffineInverse (sbox b)) = 1#8 := by
  decide +kernel

/-- Settles O20: the inverse of b is read off the table by undoing the affine transform. -/
theorem sboxIsTheAffineOfTheInverse : Obligations.SboxIsTheAffineOfTheInverse := by
  intro b x
  refine ⟨⟨sboxAffineInverse (sbox b), ?_, gfMul_sboxAffineInverse_sbox b,
    (sboxAffine_sboxAffineInverse (sbox b)).symm⟩, subBytes_length x, fun i hi => subBytes_getD hi⟩
  rintro rfl
  decide

/-- Row `row` of the state is rotated left by `row` positions (R164, R166). -/
theorem shiftRows_getD (x : List Byte) {row col : Nat} (hrow : row < 4) (hcol : col < 4) :
    (shiftRows x).getD (4 * col + row) 0 = x.getD (4 * ((col + row) % 4) + row) 0 := by
  interval_cases col <;> interval_cases row <;> rfl

/-- Column `col` of MixColumns is `mixColumn` of column `col` of the state (R164, R167). -/
theorem mixColumns_getD (x : List Byte) {row col : Nat} (hrow : row < 4) (hcol : col < 4) :
    (mixColumns x).getD (4 * col + row) 0 =
      (mixColumn (x.getD (4 * col + 0) 0) (x.getD (4 * col + 1) 0) (x.getD (4 * col + 2) 0)
        (x.getD (4 * col + 3) 0)).getD row 0 := by
  interval_cases col <;> interval_cases row <;> rfl

/-- The substituted byte that ShiftRows brings to row `row` and column `col` (R163 to R166). -/
def roundByte (key : Vector Byte 16) (x : List Byte) (row col : Nat) : Byte :=
  sbox (x.getD (4 * ((col + row) % 4) + row) 0 ^^^ key.toList.getD (4 * ((col + row) % 4) + row) 0)

/-- Key addition, SubBytes and ShiftRows together (R163). -/
theorem shiftRows_subBytes_xorBytes_getD (key : Vector Byte 16) {x : List Byte} (hx : x.length = 16)
    {row col : Nat} (hrow : row < 4) (hcol : col < 4) :
    (shiftRows (subBytes (xorBytes x key.toList))).getD (4 * col + row) 0 = roundByte key x row col := by
  have hsrc : 4 * ((col + row) % 4) + row < 16 := by omega
  rw [shiftRows_getD _ hrow hcol, subBytes_getD (by simpa [hx] using hsrc),
    xorBytes_getD (by rwa [hx]) (by simpa using hsrc), roundByte]

/-- A column of the mix round is `mixColumn` of the round bytes of that column (R163). -/
theorem mixRound_getD (key : Vector Byte 16) {x : List Byte} (hx : x.length = 16)
    {row col : Nat} (hrow : row < 4) (hcol : col < 4) :
    (mixRound key x).getD (4 * col + row) 0 =
      (mixColumn (roundByte key x 0 col) (roundByte key x 1 col) (roundByte key x 2 col)
        (roundByte key x 3 col)).getD row 0 := by
  have hbyte {row : Nat} (hrow : row < 4) := shiftRows_subBytes_xorBytes_getD key hx hrow hcol
  rw [mixRound, mixColumns_getD _ hrow hcol, hbyte (by decide), hbyte (by decide), hbyte (by decide),
    hbyte (by decide)]

/-- Settles O19: the four rows of `mixRound_getD`; two and three are `gfDouble` and `gfTriple`. -/
theorem mixRoundIsOneAesRound : Obligations.MixRoundIsOneAesRound := by
  intro key x c hx hc s a two three out
  exact ⟨mixRound_length key x, mixRound_getD key hx (row := 0) (by decide) hc,
    mixRound_getD key hx (row := 1) (by decide) hc, mixRound_getD key hx (row := 2) (by decide) hc,
    mixRound_getD key hx (row := 3) (by decide) hc⟩

end Sys2Proof.Machine
end

section
/-! SUPPORT. The block mix and the XOR-fold by their slices (spec 41_funnel.md R160, R162, R168). -/

namespace Sys2Proof.Machine

/-- The slices of a concatenation of k-byte pieces are the pieces. -/
theorem slices_flatMap {k : Nat} {f : List Byte → List Byte} (hf : ∀ s, (f s).length = k)
    (l : List (List Byte)) : slices k l.length (l.flatMap f) = l.map f := by
  induction l with
  | nil => rfl
  | cons s l ih =>
    rw [List.length_cons, List.flatMap_cons, slices, List.take_left' (hf s), List.drop_left' (hf s), ih,
      List.map_cons]

/-- The sub-blocks of BlockMix(M) are the mixed sub-blocks of M (R168). -/
theorem slices_blockMix (key : Vector Byte 16) (m : List Byte) :
    slices 16 256 (blockMix key m) = (slices 16 256 m).map (mixRound key) := by
  simpa [blockMix] using slices_flatMap (mixRound_length key) (slices 16 256 m)

/-- Settles O21: sub-block q is slice q of either string. -/
theorem blockMixMixesEachSubBlock : Obligations.BlockMixMixesEachSubBlock := by
  intro key m q _ hq
  refine ⟨blockMix_length key m, ?_⟩
  rw [Nat.mul_comm, ← slices_getElem 16 256 q _ hq, ← slices_getElem 16 256 q m hq]
  simp only [slices_blockMix, List.getElem_map]

/-- The slices of a string, in order of their group (R162). -/
theorem slices_eq_map_range (k n : Nat) (x : List Byte) :
    slices k n x = (List.range n).map fun g => (x.drop (g * k)).take k := by
  refine List.ext_getElem (by simp) fun g hg _ => ?_
  rw [slices_getElem k n g x (by simpa using hg), List.getElem_map, List.getElem_range]

/-- Byte i of group g is byte gL + i of the string (R162). -/
theorem getD_group (x : List Byte) (g : Nat) {k i : Nat} (hi : i < k) :
    ((x.drop (g * k)).take k).getD i 0 = x.getD (g * k + i) 0 := by
  simp [List.getD_eq_getElem?_getD, hi]

/-- XORing strings of one length works on byte i alone. -/
theorem foldl_xorBytes_getD {n i : Nat} (hi : i < n) (l : List (List Byte)) (a : List Byte)
    (ha : a.length = n) (hl : ∀ s ∈ l, s.length = n) :
    (l.foldl xorBytes a).getD i 0 = l.foldl (fun b s => b ^^^ s.getD i 0) (a.getD i 0) := by
  induction l generalizing a with
  | nil => rfl
  | cons s l ih =>
    obtain ⟨hs, hl⟩ := List.forall_mem_cons.1 hl
    rw [List.foldl_cons, List.foldl_cons, ih (xorBytes a s) (by simp [ha, hs]) hl,
      xorBytes_getD (by rwa [ha]) (by rwa [hs])]

/-- Output byte i of the fold is the XOR of byte i of every group (R162). -/
theorem xorFold_getD {x : List Byte} {r i : Nat} (hx : x.length = 4096) (hi : i < 4096 / r) :
    (xorFold x r).getD i 0 =
      (List.range r).foldl (fun b g => b ^^^ x.getD (g * (4096 / r) + i) 0) 0#8 := by
  have hgroups : ∀ s ∈ slices (4096 / r) r x, s.length = 4096 / r := fun s hs =>
    slices_mem_length (by rw [hx]; exact Nat.div_mul_le_self 4096 r) hs
  rw [xorFold, foldl_xorBytes_getD hi _ _ List.length_replicate hgroups, slices_eq_map_range,
    List.foldl_map, List.getD_replicate _ hi]
  simp only [getD_group x _ hi]

/-- A supported ratio gives groups of whole 64-byte blocks (R160). -/
theorem groupLength_mod {p : Instance} {r : Nat} (h : ratioSupported p r = true) :
    4096 / r % 64 = 0 := by
  rcases ratio_cases h with rfl | rfl | rfl | rfl | rfl | rfl | rfl <;> rfl

/-- Settles O17: the fold byte by byte, and the lengths for either strategy. -/
theorem xorFoldIsTheXorOfTheGroups : Obligations.XorFoldIsTheXorOfTheGroups := by
  intro x r i hx _ hi
  exact ⟨xorFold_length x r hx, xorFold_getD hx hi,
    fun key => ⟨rfl, rfl, funnel_length key x r 0#2 hx, funnel_length key x r 1#2 hx⟩,
    fun _ hr => groupLength_mod hr⟩

end Sys2Proof.Machine
end

section
/-! SUPPORT. The prefix of a serialized state that D128 keeps (spec 42_digest.md R191). -/

namespace Sys2Proof.Machine

/-- V0 to V3 make up the first 16 bytes of SER(V) (R135, R191). -/
theorem ser_take_sixteen (v : HashState) :
    (ser v).take 16 = beBytes v.a ++ beBytes v.b ++ beBytes v.c ++ beBytes v.d := by
  have hsplit : ser v = (beBytes v.a ++ beBytes v.b ++ beBytes v.c ++ beBytes v.d) ++
      (beBytes v.e ++ beBytes v.f ++ beBytes v.g ++ beBytes v.h) := by
    simp only [ser, List.append_assoc]
  rw [hsplit, List.take_left' (by simp)]

/-- Settles O26: the serialized chain value cut after its fourth word. -/
theorem d128IsTheFirstFourWords : Obligations.D128IsTheFirstFourWords := by
  intro key m r mix v
  exact ⟨rfl, ser_take_sixteen v⟩

end Sys2Proof.Machine
end

section
/-! SUPPORT. The worker count of a DISPATCH and the ranges of its partition: each range ends where the next
begins, so no message falls in two (spec 43_dispatch.md R211, R212). -/

namespace Sys2Proof.Machine

/-- A legal instance has a lane, so the clamp leaves at least one worker (R211). -/
theorem effectiveWorkers_bounds {p : Instance} (workers : Nat) (hp : p.legal) :
    1 ≤ effectiveWorkers p workers ∧ effectiveWorkers p workers ≤ p.numLanes := by
  obtain ⟨_, hlanes, _⟩ := hp
  exact ⟨le_min (le_max_right workers 1) hlanes, min_le_right _ _⟩

/-- Settles O28: no workers act as one, and a count above NUM_LANES is clamped. -/
theorem effectiveWorkerCount : Obligations.EffectiveWorkerCount := by
  intro p workers hp
  obtain ⟨hlow, hhigh⟩ := effectiveWorkers_bounds workers hp
  refine ⟨hlow, hhigh, ?_⟩
  rw [effectiveWorkers]
  split_ifs with hzero hmany
  · rw [hzero, Nat.zero_max, Nat.min_eq_left (hlow.trans hhigh)]
  · exact Nat.min_eq_right (hmany.le.trans (le_max_left workers 1))
  · rw [Nat.max_eq_left (Nat.pos_of_ne_zero hzero), Nat.min_eq_left (Nat.le_of_not_lt hmany)]

/-- The list of ranges has partition k at place k (R212). -/
theorem partition_getElem? {n w k : Nat} (hk : k < w) :
    (partition n w)[k]? = some (partitionAt n w k) := by
  rw [partition, List.getElem?_map, List.getElem?_range hk, Option.map_some]

/-- A range ends where the next one begins, and the last range ends at N (R212). -/
theorem partitionAt_snd (n w k : Nat) :
    (partitionAt n w k).2 = if k < w - 1 then (partitionAt n w (k + 1)).1 else n := rfl

/-- The last range takes the remainder of the division too (R212). -/
theorem partitionAt_size {n w k : Nat} (hk : k < w) :
    (partitionAt n w k).2 - (partitionAt n w k).1 =
      if k < w - 1 then n / w else n / w + n % w := by
  simp only [partitionAt]
  split_ifs with hlast
  · rw [← Nat.sub_mul, Nat.add_sub_cancel_left, Nat.one_mul]
  · have hw : w = k + 1 := by omega
    refine Nat.sub_eq_of_eq_add ?_
    calc n = (k + 1) * (n / w) + n % w := by rw [← hw, Nat.div_add_mod]
      _ = n / w + n % w + k * (n / w) := by ring

/-- The ranges stand in increasing order without overlap (R212). -/
theorem partitionAt_snd_le_fst {n w j k : Nat} (hjk : j < k) (hk : k < w) :
    (partitionAt n w j).2 ≤ (partitionAt n w k).1 := by
  rw [partitionAt_snd, if_pos (by omega)]
  exact Nat.mul_le_mul_right _ hjk

/-- No message falls in two partitions (R212). -/
theorem partitionAt_unique {n w i j k : Nat} (hj : j < w) (hk : k < w)
    (hji : (partitionAt n w j).1 ≤ i ∧ i < (partitionAt n w j).2)
    (hki : (partitionAt n w k).1 ≤ i ∧ i < (partitionAt n w k).2) : j = k := by
  rcases Nat.lt_trichotomy j k with hlt | heq | hgt
  · have := partitionAt_snd_le_fst (n := n) hlt hk
    omega
  · exact heq
  · have := partitionAt_snd_le_fst (n := n) hgt hj
    omega

/-- Settles O29: the ranges one by one, and the one range that holds each message. -/
theorem partitionCoversTheBatchOnce : Obligations.PartitionCoversTheBatchOnce := by
  intro n w hw
  refine ⟨by rw [partition, List.length_map, List.length_range], fun k hk =>
    ⟨partition_getElem? hk, rfl, partitionAt_size hk, partitionAt_snd n w k⟩, fun i hi => ?_⟩
  obtain ⟨k, hk, hlow, hhigh⟩ := partitionAt_covers hw hi
  exact ⟨k, ⟨hk, hlow, hhigh⟩, fun j hj hjlow hjhigh =>
    partitionAt_unique hj hk ⟨hjlow, hjhigh⟩ ⟨hlow, hhigh⟩⟩

end Sys2Proof.Machine
end

section
/-! SUPPORT. The command lifecycle's register side: commands dropped while BUSY, NOP, and the writes of CTRL
and STATUS (spec 44_command_control.md R241, R246 to R248). -/

namespace Sys2Proof

/-- OP 0 is NOP's (R91). -/
theorem decode_of_fieldOp_zero {w : Word} (hop : fieldOp w = 0x0#4) :
    decode w = decodeFixed w .nop := if_pos hop

/-- No other opcode decodes to NOP (R91). -/
theorem decode_ne_nop {w : Word} (hop : fieldOp w ≠ 0x0#4) : decode w ≠ .ok .nop := by
  intro h
  simp only [decode, if_neg hop] at h
  split_ifs at h <;> simp [decodeFixed_eq_ok_iff rfl] at h

/-- NOP is the word 0x00000000 exactly (R246). -/
theorem decode_eq_nop_iff (w : Word) : decode w = .ok .nop ↔ w = 0x00000000#32 := by
  by_cases hop : fieldOp w = 0x0#4
  · rw [decode_of_fieldOp_zero hop, decodeFixed_eq_ok_iff hop]
    exact and_iff_left rfl
  · refine iff_of_false (decode_ne_nop hop) ?_
    rintro rfl
    exact hop rfl

end Sys2Proof

namespace Sys2Proof.Machine

/-- An engine that is not idle runs a command, with its context and its work (R37, R38). -/
theorem exists_busy_of_ne_idle {s : State} (h : s.engine ≠ .idle) :
    ∃ c j, s.engine = .busy c j := by
  cases he : s.engine with
  | idle => exact absurd he h
  | busy c j => exact ⟨c, j, rfl⟩

/-- Settles O7: in a BUSY state a written word and a command both meet the drop of R241. -/
theorem commandWhileBusyIsDropped : Obligations.CommandWhileBusyIsDropped := by
  intro s w i hbusy
  obtain ⟨c, j, he⟩ := exists_busy_of_ne_idle hbusy
  exact ⟨commandWrite_busy he w, exec_busy he i⟩

/-- NOP from an idle engine (R246). -/
theorem execNop_idle {s : State} (h : s.engine = .idle) :
    exec .nop s = .next (s.setStatus (statusOfSuccess s.status)) := by
  simp only [exec, execNop, onCommand_idle h, completeSuccess_acceptCommand h]

/-- Success sets DONE, so irq is then IRQ_EN (R47, R244). -/
theorem irq_setStatus_statusOfSuccess (s : State) :
    irq (s.setStatus (statusOfSuccess s.status)) = s.irqEn := Bool.and_true s.irqEn

/-- Settles O8: the one word of OP 0 that decodes, then NOP from each state of the engine. -/
theorem nopCompletes : Obligations.NopCompletes := by
  intro s
  refine ⟨decode_eq_nop_iff, fun w hmod hw hidle => ?_,
    fun hidle => ⟨execNop_idle hidle, irq_setStatus_statusOfSuccess s⟩, fun hbusy => ?_⟩
  · have hop : fieldOp w = 0x0#4 := (fieldOp_eq_iff w _).2 hmod
    exact commandWrite_invalid
      ((decode_of_fieldOp_zero hop).trans (decodeFixed_reservedBits hop hw _)) hidle
  · obtain ⟨c, j, he⟩ := exists_busy_of_ne_idle hbusy
    exact exec_busy he _

/-- While BUSY DONE, ERR and ERRCODE are 0 (R25, R248). -/
theorem status_busy {s : State} (hi : Inv s) (hbusy : s.engine ≠ .idle) :
    s.status = ⟨false, false, s.status.dropped, 0#4⟩ := by
  obtain ⟨c, j, he⟩ := exists_busy_of_ne_idle hbusy
  have hsound := hi.engine_sound
  simp only [engineSound, he] at hsound
  obtain ⟨-, -, -, -, hdone, herr⟩ := hsound
  calc s.status = ⟨s.status.done, s.status.err, s.status.dropped, s.status.errcode⟩ := rfl
    _ = ⟨false, false, s.status.dropped, 0#4⟩ := by rw [hdone, herr, hi.errcode_zero herr]

/-- On the flags of a running command only the clearing of DROPPED shows (R248). -/
theorem statusCleared_busy (v : Word) (dropped : Bool) :
    statusCleared v ⟨false, false, dropped, 0#4⟩ =
      ⟨false, false, dropped && !v.getLsbD 3, 0#4⟩ := by
  simp only [statusCleared, Bool.false_and, ite_self]

/-- A flag written 1 is cleared, and otherwise kept (R248). -/
theorem and_not_eq_ite (flag bit : Bool) : (flag && !bit) = if bit then false else flag := by
  cases bit <;> simp

/-- Settles O49: the write is `acknowledge`; its BUSY clause is the status of a running command. -/
theorem statusWriteClears : Obligations.StatusWriteClears := by
  intro s v
  refine ⟨rfl, statusCleared v s.status, rfl, fun hv => ?_, fun hi hbusy => ?_,
    and_not_eq_ite _ _, and_not_eq_ite _ _, rfl, and_not_eq_ite _ _⟩
  · simp only [irq, statusCleared, State.setStatus_status, hv, Bool.not_true, Bool.and_false]
  · rw [status_busy hi hbusy, statusCleared_busy]
    exact ⟨rfl, rfl, rfl⟩

/-- STATUS is 0 after a reset (R48). -/
@[simp] theorem resetEngine_status (s : State) : (resetEngine s).status = statusReset := by
  obtain ⟨u, hu⟩ := resetEngine_eq_resetRegisters s
  rw [hu, resetRegisters_status]

/-- IRQ_EN is 0 after a reset (R48). -/
@[simp] theorem resetEngine_irqEn (s : State) : (resetEngine s).irqEn = false := by
  obtain ⟨u, hu⟩ := resetEngine_eq_resetRegisters s
  rw [hu, resetRegisters_irqEn]

/-- CTRL with bit 1 set is a soft reset, whatever bit 0 is (R247). -/
theorem regWrite_ctrl_reset {v : Word} (hv : v.getLsbD 1 = true) (s : State) :
    regWrite .ctrl v s = .next (resetEngine s) := congrArg _ (if_pos hv)

/-- CTRL with bit 1 clear sets IRQ_EN to bit 0 (R247). -/
theorem regWrite_ctrl_irqEn {v : Word} (hv : v.getLsbD 1 = false) (s : State) :
    regWrite .ctrl v s = .next (s.setIrqEn (v.getLsbD 0)) :=
  congrArg _ (if_neg (Bool.eq_false_iff.1 hv))

/-- Settles O54: the two branches of a CTRL write, the first with the reset's values. -/
theorem ctrlWriteResetsOrSetsIrqEn : Obligations.CtrlWriteResetsOrSetsIrqEn := by
  intro s v
  exact ⟨rfl, fun hv => ⟨regWrite_ctrl_reset hv s, resetEngine_irqEn s, resetEngine_status s,
    resetEngine_engine s⟩, fun hv => regWrite_ctrl_irqEn hv s⟩

end Sys2Proof.Machine
end

section
/-! SUPPORT. Which words are Invalid, by ranges of the word's value, and what writing one does
(spec 30_encoding.md R90 to R92, R98; 60_exceptions.md R274). -/

namespace Sys2Proof

/-- Bits 31:4 are the word divided by 16 (R90). -/
theorem fieldAboveOp_toNat (w : Word) : (fieldAboveOp w).toNat = w.toNat / 16 := by
  rw [fieldAboveOp, BitVec.extractLsb'_toNat, Nat.shiftRight_eq_div_pow]
  omega

/-- Bits 7:5 of the word (R92). -/
theorem fieldLowReserved_toNat (w : Word) : (fieldLowReserved w).toNat = w.toNat / 32 % 8 := by
  rw [fieldLowReserved, BitVec.extractLsb'_toNat, Nat.shiftRight_eq_div_pow]

/-- Bits 31:16 are the word divided by 65536 (R92). -/
theorem fieldHighReserved_toNat (w : Word) : (fieldHighReserved w).toNat = w.toNat / 65536 := by
  rw [fieldHighReserved, BitVec.extractLsb'_toNat, Nat.shiftRight_eq_div_pow]
  omega

/-- A fixed opcode is Invalid when one of bits 31:4 is set (R92). -/
theorem decodeFixed_eq_error_iff (w : Word) (i : Instr) :
    (∃ e, decodeFixed w i = .error e) ↔ w.toNat / 16 ≠ 0 := by
  have hzero : fieldAboveOp w = 0#28 ↔ w.toNat / 16 = 0 := by
    rw [← BitVec.toNat_inj, fieldAboveOp_toNat, BitVec.toNat_ofNat, Nat.zero_mod]
  rw [Ne, ← hzero, decodeFixed]
  split
  case isTrue h => simp [h]
  case isFalse h => simp [h]

/-- Opcodes 0x0 to 0x4 stand for a command without operands (R91). -/
theorem exists_decode_eq_decodeFixed {w : Word} (hop : w.toNat % 16 ≤ 4) :
    ∃ i, decode w = decodeFixed w i := by
  simp only [decode, fieldOp_eq_iff, BitVec.toNat_ofNat]
  split_ifs
  iterate 5 exact ⟨_, rfl⟩
  all_goals omega

/-- Opcode 0x5 is Invalid when one of bits 7:5 or 31:16 is set (R92). -/
theorem decode_eq_error_iff_of_op_five {w : Word} (hop : w.toNat % 16 = 5) :
    (∃ e, decode w = .error e) ↔ w.toNat / 32 % 8 ≠ 0 ∨ w.toNat / 65536 ≠ 0 := by
  have hreserved : (fieldLowReserved w = 0#3 ∧ fieldHighReserved w = 0#16) ↔
      (w.toNat / 32 % 8 = 0 ∧ w.toNat / 65536 = 0) := by
    rw [← BitVec.toNat_inj, ← BitVec.toNat_inj, fieldLowReserved_toNat, fieldHighReserved_toNat]
    rfl
  rw [← not_and_or, ← not_congr hreserved]
  have hfive : fieldOp w = 0x5#4 := (fieldOp_eq_iff w _).2 hop
  by_cases h : fieldLowReserved w = 0#3 ∧ fieldHighReserved w = 0#16
  · simp [decode, hfive, h]
  · simp [decode, hfive, h]

/-- Opcodes 0x6 to 0xF are reserved (R99). -/
theorem decode_reservedOpcode {w : Word} (hop : 6 ≤ w.toNat % 16) :
    decode w = .error .reservedOpcode := by
  have hne (op : BitVec 4) (hop5 : op.toNat ≤ 5) : fieldOp w ≠ op := by
    rw [Ne, fieldOp_eq_iff]
    omega
  simp [decode, hne]

/-- The Invalid words, one clause for each range of OP (R92, R98, R99). -/
theorem decode_eq_error_iff (w : Word) : (∃ e, decode w = .error e) ↔
    6 ≤ w.toNat % 16 ∨ (w.toNat % 16 ≤ 4 ∧ w.toNat / 16 ≠ 0) ∨
      (w.toNat % 16 = 5 ∧ (w.toNat / 32 % 8 ≠ 0 ∨ w.toNat / 65536 ≠ 0)) := by
  obtain hop | hop | hop : w.toNat % 16 ≤ 4 ∨ w.toNat % 16 = 5 ∨ 6 ≤ w.toNat % 16 := by omega
  · obtain ⟨i, hi⟩ := exists_decode_eq_decodeFixed hop
    rw [hi, decodeFixed_eq_error_iff]
    omega
  · rw [decode_eq_error_iff_of_op_five hop]
    omega
  · exact iff_of_true ⟨_, decode_reservedOpcode hop⟩ (.inl hop)

end Sys2Proof

namespace Sys2Proof.Machine

/-- A word that decodes runs its command (R26). -/
theorem commandWrite_of_decode {w : Word} {i : Instr} (hw : decode w = .ok i) (s : State) :
    commandWrite w s = exec i s := by
  rw [commandWrite, hw]

/-- Settles O5: the Invalid words by `decode_eq_error_iff`; each of them completes at acceptance, each
other word runs its command. -/
theorem invalidWordsCompleteWithInvalidCommand :
    Obligations.InvalidWordsCompleteWithInvalidCommand := by
  intro w s hidle
  split
  case isTrue hranges =>
    obtain ⟨e, he⟩ := (decode_eq_error_iff w).2 hranges
    exact commandWrite_invalid he hidle
  case isFalse hranges =>
    cases hw : decode w with
    | ok i => exact ⟨i, rfl, commandWrite_of_decode hw s⟩
    | error e => exact absurd ((decode_eq_error_iff w).1 ⟨e, hw⟩) hranges

end Sys2Proof.Machine
end

section
/-! SUPPORT. The encoder and the decoder as inverses of each other, and the number of words that decode
(spec 30_encoding.md R90 to R93, R98). -/

namespace Sys2Proof

/-- The word of a DISPATCH as R90 lays it out, WORKERS an 8-bit field. -/
def dispatchWord (aff : Bool) (workers : BitVec 8) : Word :=
  0#16 ++ workers ++ 0#3 ++ BitVec.ofBool aff ++ 0x5#4

theorem encode_dispatch (aff : Bool) (workers : Nat) :
    encode (.dispatch aff workers) = dispatchWord aff (BitVec.ofNat 8 workers) := rfl

/-- Each word of that layout decodes to the DISPATCH of its fields (R93, R98). -/
theorem decode_dispatchWord : ∀ (aff : Bool) (workers : BitVec 8),
    decode (dispatchWord aff workers) = .ok (.dispatch aff workers.toNat) := by
  decide +kernel

/-- The encoder loses nothing of a well-formed command (R90, R98). -/
theorem decode_encode {i : Instr} (hi : i.WellFormed) : decode (encode i) = .ok i := by
  cases i with
  | dispatch aff workers =>
    have hfit : workers ≤ 255 := of_decide_eq_true hi
    rw [encode_dispatch, decode_dispatchWord, BitVec.toNat_ofNat, Nat.mod_eq_of_lt (by omega)]
  | _ => decide

/-- Settles O1: the five fixed words by evaluation, DISPATCH by its layout. -/
theorem decodeOfEncodeIsTheCommand : Obligations.DecodeOfEncodeIsTheCommand :=
  fun _ hi => decode_encode hi

/-- A word is its fields, from bit 31 down (R90). -/
theorem append_fields (w : Word) :
    fieldHighReserved w ++ w.extractLsb' 8 8 ++ fieldLowReserved w ++ BitVec.ofBool (fieldAff w) ++
      fieldOp w = w := by
  have haff : BitVec.ofBool (fieldAff w) = w.extractLsb' 4 1 := by
    ext k hk
    obtain rfl : k = 0 := by omega
    simp [fieldAff]
  simp only [haff, fieldHighReserved, fieldLowReserved, fieldOp,
    BitVec.extractLsb'_append_extractLsb'_eq_extractLsb', BitVec.extractLsb'_eq_self]

/-- A DISPATCH word with its reserved bits 0 has the layout of its fields (R92). -/
theorem eq_dispatchWord {w : Word} (hop : fieldOp w = 0x5#4) (hlow : fieldLowReserved w = 0#3)
    (hhigh : fieldHighReserved w = 0#16) : w = dispatchWord (fieldAff w) (w.extractLsb' 8 8) := by
  rw [dispatchWord, ← hop, ← hlow, ← hhigh, append_fields]

/-- A fixed opcode decodes only from the word the encoder gives it (R92). -/
theorem encode_of_decodeFixed {w : Word} {op : BitVec 4} {i j : Instr} (hop : fieldOp w = op)
    (hj : j.WellFormed) (henc : encode j = 0#28 ++ op) (h : decodeFixed w j = .ok i) :
    i.WellFormed ∧ encode i = w := by
  obtain ⟨rfl, rfl⟩ := (decodeFixed_eq_ok_iff hop j i).1 h
  exact ⟨hj, henc⟩

/-- No bit of a word that decodes is ignored (R92, R98). -/
theorem encode_of_decode {w : Word} {i : Instr} (h : decode w = .ok i) :
    i.WellFormed ∧ encode i = w := by
  unfold decode at h
  split_ifs at h with h0 h1 h2 h3 h4 h5 hreserved
  · exact encode_of_decodeFixed h0 rfl rfl h
  · exact encode_of_decodeFixed h1 rfl rfl h
  · exact encode_of_decodeFixed h2 rfl rfl h
  · exact encode_of_decodeFixed h3 rfl rfl h
  · exact encode_of_decodeFixed h4 rfl rfl h
  · obtain ⟨hlow, hhigh⟩ := hreserved
    obtain rfl := Except.ok.inj h
    refine ⟨decide_eq_true (Nat.le_of_lt_succ (w.extractLsb' 8 8).isLt), ?_⟩
    rw [encode_dispatch, fieldWorkers, BitVec.ofNat_toNat, BitVec.setWidth_eq]
    exact (eq_dispatchWord h5 hlow hhigh).symm

/-- Settles O2: each opcode's words are those the encoder gives. -/
theorem encodeOfDecodeIsTheWord : Obligations.EncodeOfDecodeIsTheWord :=
  fun _ _ h => encode_of_decode h

/-- Every command the encoding can hold: the five without operands and 2 · 256 DISPATCHes (R93). -/
def commands : List Instr :=
  [.nop, .init, .compress, .funnel, .digest] ++
    ([false, true] ×ˢ List.range 256).map fun x => .dispatch x.1 x.2

theorem mem_commands_iff (i : Instr) : i ∈ commands ↔ i.WellFormed := by
  cases i with
  | dispatch aff workers =>
    have hfit : Instr.WellFormed (.dispatch aff workers) ↔ workers < 256 := by
      rw [Nat.lt_succ_iff]
      exact decide_eq_true_iff
    rw [hfit]
    cases aff <;> simp [commands]
  | _ => exact iff_of_true (by simp [commands]) rfl

theorem commands_nodup : commands.Nodup := by
  refine List.nodup_append.2 ⟨by decide, ?_, fun i hi j hj => ?_⟩
  · refine List.Nodup.map (fun x y h => ?_) (List.Nodup.product (by decide) List.nodup_range)
    exact Prod.ext (Instr.dispatch.inj h).1 (Instr.dispatch.inj h).2
  · obtain ⟨x, -, rfl⟩ := List.mem_map.1 hj
    rintro rfl
    simp at hi

/-- The encoder gives different words to different well-formed commands. -/
theorem encode_inj {i j : Instr} (hi : i.WellFormed) (hj : j.WellFormed) (h : encode i = encode j) :
    i = j :=
  Except.ok.inj ((decode_encode hi).symm.trans (h ▸ decode_encode hj))

/-- Settles O3: the words that decode are the encodings of the well-formed commands, one each. -/
theorem exactlyFiveHundredSeventeenWordsDecode :
    Obligations.ExactlyFiveHundredSeventeenWordsDecode := by
  refine ⟨commands.map encode, ?_, by simp [commands], fun w => ?_⟩
  · exact (List.nodup_map_iff_inj_on commands_nodup).2 fun i hi j hj =>
      encode_inj ((mem_commands_iff i).1 hi) ((mem_commands_iff j).1 hj)
  · rw [List.mem_map]
    constructor
    · rintro ⟨i, hi, rfl⟩
      exact ⟨i, decode_encode ((mem_commands_iff i).1 hi)⟩
    · rintro ⟨i, hi⟩
      obtain ⟨hwf, hw⟩ := encode_of_decode hi
      exact ⟨i, (mem_commands_iff i).2 hwf, hw⟩

/-- Settles O4: the decoder evaluated on each word. -/
theorem writtenWordsDecode : Obligations.WrittenWordsDecode := by
  unfold Obligations.WrittenWordsDecode
  decide

end Sys2Proof
end

section
/-! SUPPORT. What writing a command does, said once for all six: dropped, an error or success at acceptance,
or the launch of its work (spec 44_command_control.md R240 to R243). -/

namespace Sys2Proof.Machine

/-! ## The pre-checks -/

/-- The pre-checks of R242 with no device on the bus: all of them but R68's. -/
def preChecks (p : Instance) (c : Ctx) : Prop := passesChecks { p with devices := [] } c

theorem passesChecks_iff (p : Instance) (c : Ctx) :
    passesChecks p c ↔ rangesNormal p c = true ∧ preChecks p c :=
  ⟨fun ⟨hnormal, hrest⟩ => ⟨hnormal, rfl, hrest⟩, fun ⟨hnormal, _, hrest⟩ => ⟨hnormal, hrest⟩⟩

/-- The first work of a command with memory work, and the lanes it starts with (R213, R243). -/
inductive Starts (s : State) : Instr → Job → List Lane → Prop
  | compress : Starts s .compress (.compress 0 s.hash none) s.lanes
  | funnel : Starts s .funnel (.funnel none) s.lanes
  | digest : Starts s .digest (.digest .fetch) s.lanes
  | dispatch (aff : Bool) (workers : Nat) : Starts s (.dispatch aff workers) .dispatch
      (startLanes s.inst.numLanes s.count.toNat (effectiveWorkers s.inst workers))

/-- The busy state right after the acceptance of a command with memory work (R240, R242). -/
def launched (i : Instr) (job : Job) (lanes : List Lane) (s : State) : State :=
  setJob (capture i s) job ((acceptCommand s).setLanes lanes)

/-- The register bits MIX and WIDTH of a context as its checks read them (R95, R96). -/
theorem mixLegal_iff (c : Ctx) : mixLegal c = true ↔ c.mix.toNat ≤ 1 := decide_eq_true_iff

theorem widthLegal_iff (c : Ctx) : widthLegal c = true ↔ c.width.toNat ≤ 1 := decide_eq_true_iff

/-- A command from an idle engine fails at acceptance, or succeeds there, or has passed its pre-checks
and is launched (R242). -/
theorem exec_idle_cases {s : State} (h : s.engine = .idle) (i : Instr) :
    (∃ e, exec i s = .next (s.setStatus (statusOfError e s.status))) ∨
    (∃ v, (i ≠ .init → v = s.hash) ∧
      exec i s = .next ((s.setHash v).setStatus (statusOfSuccess s.status))) ∨
    (preChecks s.inst (capture i s) ∧ ∃ job lanes, Starts s i job lanes ∧
      exec i s = launch (capture i s) job ((acceptCommand s).setLanes lanes)) := by
  have hdone : ∃ v, (i ≠ .init → v = s.hash) ∧
      (.next (s.setStatus (statusOfSuccess s.status)) : Result) =
        .next ((s.setHash v).setStatus (statusOfSuccess s.status)) := ⟨s.hash, fun _ => rfl, rfl⟩
  cases i with
  | nop => exact .inr (.inl (execNop_idle h ▸ hdone))
  | init => exact .inr (.inl ⟨iv, fun hne => absurd rfl hne, execInit_idle h⟩)
  | compress =>
    rw [execCompress_idle h]
    split_ifs with hlen hrange hzero
    · exact .inl ⟨_, rfl⟩
    · exact .inl ⟨_, rfl⟩
    · exact .inr (.inl hdone)
    · refine .inr (.inr ⟨⟨rfl, by simpa using hrange, not_not.1 hlen, Nat.pos_of_ne_zero hzero⟩, _, _,
        .compress, rfl⟩)
  | funnel =>
    rw [execFunnel_idle h]
    split_ifs with hlegal hlen hrange
    · exact .inl ⟨_, rfl⟩
    · exact .inl ⟨_, rfl⟩
    · obtain ⟨hratio, hmix⟩ := hlegal
      exact .inr (.inr ⟨⟨rfl, by simpa using hrange, hratio, (mixLegal_iff _).2 hmix, not_not.1 hlen⟩,
        _, _, .funnel, rfl⟩)
    · exact .inl ⟨_, rfl⟩
  | digest =>
    rw [execDigest_idle h]
    split_ifs with hlegal hlen hrange
    · exact .inl ⟨_, rfl⟩
    · exact .inl ⟨_, rfl⟩
    · obtain ⟨hratio, hmix, hwidth⟩ := hlegal
      exact .inr (.inr ⟨⟨rfl, by simpa using hrange, hratio, (mixLegal_iff _).2 hmix,
        (widthLegal_iff _).2 hwidth, not_not.1 hlen⟩, _, _, .digest, rfl⟩)
    · exact .inl ⟨_, rfl⟩
  | dispatch aff workers =>
    rw [execDispatch_idle h]
    split_ifs with hlegal hlen hrange hlanes hzero
    · exact .inl ⟨_, rfl⟩
    · exact .inl ⟨_, rfl⟩
    · exact .inl ⟨_, rfl⟩
    · exact .inr (.inl hdone)
    · obtain ⟨hratio, hmix, hwidth⟩ := hlegal
      have havail : lanesAvailable s.inst workers = true := by simpa using hlanes
      exact .inr (.inr ⟨⟨rfl, by simpa using hrange, hratio, (mixLegal_iff _).2 hmix,
        (widthLegal_iff _).2 hwidth, not_not.1 hlen, havail, Nat.pos_of_ne_zero hzero⟩,
        _, _, .dispatch aff workers, rfl⟩)
    · exact .inl ⟨_, rfl⟩

/-- A command whose pre-checks pass is launched (R242). -/
theorem exec_of_preChecks {s : State} {i : Instr} (h : s.engine = .idle)
    (hp : preChecks s.inst (capture i s)) : ∃ job lanes, Starts s i job lanes ∧
      exec i s = launch (capture i s) job ((acceptCommand s).setLanes lanes) := by
  obtain ⟨-, hrange, hcmd⟩ := hp
  have hrange' : ¬rangeFails (capture i s) = true := by simp [hrange]
  cases i with
  | nop => exact hcmd.elim
  | init => exact hcmd.elim
  | compress =>
    obtain ⟨hlen, hpos⟩ : s.len.toNat % 64 = 0 ∧ 0 < s.len.toNat := hcmd
    refine ⟨_, _, .compress, ?_⟩
    rw [execCompress_idle h, if_neg (not_not.2 (hlen)), if_neg hrange', if_neg (Nat.ne_of_gt hpos)]
    rfl
  | funnel =>
    obtain ⟨hratio, hmix, hlen⟩ : _ ∧ _ ∧ s.len.toNat = 4096 := hcmd
    refine ⟨_, _, .funnel, ?_⟩
    rw [execFunnel_idle h, if_neg (not_not.2 ⟨hratio, (mixLegal_iff _).1 hmix⟩), if_neg (not_not.2 (hlen)),
      if_neg hrange']
    rfl
  | digest =>
    obtain ⟨hratio, hmix, hwidth, hlen⟩ : _ ∧ _ ∧ _ ∧ s.len.toNat = 4096 := hcmd
    refine ⟨_, _, .digest, ?_⟩
    rw [execDigest_idle h,
      if_neg (not_not.2 ⟨hratio, (mixLegal_iff _).1 hmix, (widthLegal_iff _).1 hwidth⟩),
      if_neg (not_not.2 (hlen)), if_neg hrange']
    rfl
  | dispatch aff workers =>
    obtain ⟨hratio, hmix, hwidth, hlen, hlanes, hpos⟩ :
      _ ∧ _ ∧ _ ∧ s.len.toNat = 4096 ∧ lanesAvailable s.inst workers = true ∧ 0 < s.count.toNat := hcmd
    have hlanes' : ¬(!lanesAvailable s.inst workers) = true := by simp [hlanes]
    refine ⟨_, _, .dispatch aff workers, ?_⟩
    rw [execDispatch_idle h,
      if_neg (not_not.2 ⟨hratio, (mixLegal_iff _).1 hmix, (widthLegal_iff _).1 hwidth⟩),
      if_neg (not_not.2 (hlen)), if_neg hrange', if_neg hlanes', if_neg (Nat.ne_of_gt hpos)]

/-- With no turn waiting, a launched command is run to its completion (R243; assumption log 3). -/
theorem exec_of_passesChecks {s : State} {i : Instr} (h : s.engine = .idle)
    (hp : passesChecks s.inst (capture i s)) : ∃ job lanes, Starts s i job lanes ∧
      (s.sched = [] → exec i s = .next (finishCommand (launched i job lanes s))) ∧
      (s.sched ≠ [] → exec i s = .next (launched i job lanes s)) := by
  obtain ⟨hnormal, hpre⟩ := (passesChecks_iff _ _).1 hp
  obtain ⟨job, lanes, hstart, hexec⟩ := exec_of_preChecks h hpre
  refine ⟨job, lanes, hstart, fun hs => ?_, fun hs => ?_⟩ <;> rw [hexec] <;>
    rcases launch_cases (capture i s) job ((acceptCommand s).setLanes lanes) with
      ⟨hn, -⟩ | ⟨-, hs', hl⟩ | ⟨-, hs', hl⟩
  · exact absurd (hnormal.symm.trans hn) (by decide)
  · exact hl
  · exact absurd hs hs'
  · exact absurd (hnormal.symm.trans hn) (by decide)
  · exact absurd hs' hs
  · exact hl

/-- The states a command can answer (R240 to R245). -/
theorem exec_next_cases {i : Instr} {s t : State} (h : exec i s = .next t) :
    (s.engine ≠ .idle ∧ t = dropWrite s) ∨
    (s.engine = .idle ∧ ∃ e, t = s.setStatus (statusOfError e s.status)) ∨
    (s.engine = .idle ∧ ∃ v, (i ≠ .init → v = s.hash) ∧
      t = (s.setHash v).setStatus (statusOfSuccess s.status)) ∨
    (s.engine = .idle ∧ passesChecks s.inst (capture i s) ∧ ∃ job lanes, Starts s i job lanes ∧
      (t = finishCommand (launched i job lanes s) ∨ t = launched i job lanes s)) := by
  cases he : s.engine with
  | busy c j =>
    rw [exec_busy he] at h
    exact .inl ⟨by simp, (Host.Outcome.next.inj h).symm⟩
  | idle =>
    refine .inr ?_
    rcases exec_idle_cases he i with ⟨e, hx⟩ | ⟨v, hv, hx⟩ | ⟨hpre, job, lanes, hstart, hx⟩ <;>
      rw [hx] at h
    · exact .inl ⟨rfl, e, (Host.Outcome.next.inj h).symm⟩
    · exact .inr (.inl ⟨rfl, v, hv, (Host.Outcome.next.inj h).symm⟩)
    · refine .inr (.inr ⟨rfl, ?_⟩)
      rcases launch_cases (capture i s) job ((acceptCommand s).setLanes lanes) with
        ⟨-, hl⟩ | ⟨hn, -, hl⟩ | ⟨hn, -, hl⟩ <;> rw [hl] at h
      · cases h
      · exact ⟨(passesChecks_iff _ _).2 ⟨hn, hpre⟩, job, lanes, hstart,
          .inl (Host.Outcome.next.inj h).symm⟩
      · exact ⟨(passesChecks_iff _ _).2 ⟨hn, hpre⟩, job, lanes, hstart,
          .inr (Host.Outcome.next.inj h).symm⟩

/-- A launched command is a sound busy state (R243). -/
theorem inv_launched {s : State} {i : Instr} {job : Job} {lanes : List Lane} (hi : Inv s)
    (h : s.engine = .idle) (hp : passesChecks s.inst (capture i s)) (hstart : Starts s i job lanes) :
    Inv (launched i job lanes s) := by
  have hidle := hi.engine_sound
  simp only [engineSound, h] at hidle
  cases hstart with
  | compress =>
    refine inv_launch hi hp ⟨rfl, Nat.zero_le _⟩ hi.lane_count (fun _ => hidle) ?_
    show s.hash = cfStar s.hash (Memory.readBytes s.memory s.src.toNat (64 * 0))
    rw [Nat.mul_zero, Memory.readBytes, cfStar_nil]
  | funnel => exact inv_launch hi hp rfl hi.lane_count (fun _ => hidle) trivial
  | digest => exact inv_launch hi hp rfl hi.lane_count (fun _ => hidle) trivial
  | dispatch aff workers =>
    refine inv_launch hi hp (startLanes_sound s.inst (capture (.dispatch aff workers) s) workers) ?_
      (fun hne => absurd rfl hne) (startLanes_work _ _ _ _ _)
    rw [startLanes, List.length_map, List.length_range]

end Sys2Proof.Machine
end

section
/-! SUPPORT. The invariant under everything but the engine's moves: the fields it does not speak of, STATUS, an
idle engine's registers, and the host's writes to memory around a running command. -/

namespace Sys2Proof.Machine

/-! ## Fields and registers -/

/-- The invariant says nothing of IRQ_EN, of what the host will do and was answered, or of the free
values. -/
theorem inv_outside {s : State} (hi : Inv s) (irqEn : Bool) (inputs : List HostOp) (sched : List Turn)
    (response : Response) (fresh : Nat) :
    Inv { s with irqEn := irqEn, inputs := inputs, sched := sched, response := response,
                 fresh := fresh } :=
  ⟨hi.instance_legal, hi.memory_canonical, hi.memory_bounded, hi.config_reserved, hi.errcode_zero,
    hi.errcode_code, hi.lane_count, hi.engine_sound, hi.work_correct, hi.before_sound⟩

theorem inv_setIrqEn {s : State} (hi : Inv s) (b : Bool) : Inv (s.setIrqEn b) :=
  inv_outside hi b s.inputs s.sched s.response s.fresh

theorem inv_setInputs {s : State} (hi : Inv s) (l : List HostOp) : Inv (s.setInputs l) :=
  inv_outside hi s.irqEn l s.sched s.response s.fresh

theorem inv_setSched {s : State} (hi : Inv s) (l : List Turn) : Inv (s.setSched l) :=
  inv_outside hi s.irqEn s.inputs l s.response s.fresh

theorem inv_setResponse {s : State} (hi : Inv s) (r : Response) : Inv (s.setResponse r) :=
  inv_outside hi s.irqEn s.inputs s.sched r s.fresh

theorem inv_setFresh {s : State} (hi : Inv s) (n : Nat) : Inv (s.setFresh n) :=
  inv_outside hi s.irqEn s.inputs s.sched s.response n

/-- ERRCODE agrees with ERR (R25, R270). -/
def statusSound (t : Status) : Prop :=
  (t.err = false → t.errcode = 0#4) ∧ (t.err = true → 1 ≤ t.errcode.toNat ∧ t.errcode.toNat ≤ 6)

theorem Inv.status_sound {s : State} (hi : Inv s) : statusSound s.status :=
  ⟨hi.errcode_zero, hi.errcode_code⟩

/-- The codes of R270 are 1 to 6. -/
theorem errorNumber_bounds (e : ErrorCode) : 1 ≤ (errorNumber e).toNat ∧ (errorNumber e).toNat ≤ 6 := by
  cases e <;> decide

theorem statusSound_statusOfError (e : ErrorCode) (t : Status) : statusSound (statusOfError e t) :=
  ⟨fun h => absurd h (by simp [statusOfError]), fun _ => errorNumber_bounds e⟩

theorem statusSound_statusOfSuccess (t : Status) : statusSound (statusOfSuccess t) :=
  ⟨fun _ => rfl, fun h => absurd h (by simp [statusOfSuccess])⟩

theorem statusSound_statusReset : statusSound statusReset :=
  ⟨fun _ => rfl, fun h => absurd h (by decide)⟩

/-- A W1C write clears ERR and ERRCODE together (R248). -/
theorem statusSound_statusCleared {t : Status} (v : Word) (h : statusSound t) :
    statusSound (statusCleared v t) := by
  cases hv : v.getLsbD 2 with
  | true =>
    simp only [statusSound, statusCleared, hv, Bool.not_true, Bool.and_false]
    exact ⟨fun _ => rfl, fun he => absurd he (by decide)⟩
  | false =>
    simp only [statusSound, statusCleared, hv, Bool.not_false, Bool.and_true]
    exact h

/-- STATUS replaced, DONE and ERR staying 0 while BUSY (R248). -/
theorem inv_setStatus {s : State} {t : Status} (hi : Inv s) (ht : statusSound t)
    (hbusy : s.engine ≠ .idle → t.done = false ∧ t.err = false) : Inv (s.setStatus t) where
  instance_legal := hi.instance_legal
  memory_canonical := hi.memory_canonical
  memory_bounded := hi.memory_bounded
  config_reserved := hi.config_reserved
  errcode_zero := ht.1
  errcode_code := ht.2
  lane_count := hi.lane_count
  engine_sound := by
    have hsound := hi.engine_sound
    cases he : s.engine with
    | idle =>
      simp only [engineSound, he, State.setStatus_engine] at hsound ⊢
      exact hsound
    | busy c job =>
      simp only [engineSound, he, State.setStatus_engine] at hsound ⊢
      obtain ⟨hp, hcap, hjob, hlanes, -⟩ := hsound
      exact ⟨hp, hcap, hjob, hlanes, hbusy (by simp [he])⟩
  work_correct := hi.work_correct
  before_sound := hi.before_sound

/-- What the invariant asks of an idle engine. -/
theorem inv_of_idle {t : State} (hidle : t.engine = .idle) (hlegal : t.inst.legal)
    (hcanon : Memory.wf t.memory) (hbound : Memory.inBusSpace t.memory)
    (hconfig : t.config &&& ~~~configMask = 0#32) (hstatus : statusSound t.status)
    (hlanes : t.lanes = List.replicate t.inst.numLanes laneIdle) : Inv t where
  instance_legal := hlegal
  memory_canonical := hcanon
  memory_bounded := hbound
  config_reserved := hconfig
  errcode_zero := hstatus.1
  errcode_code := hstatus.2
  lane_count := by rw [hlanes, List.length_replicate]
  engine_sound := by simpa only [engineSound, hidle] using hlanes
  work_correct := by simp only [workCorrect, hidle]
  before_sound := by simp only [beforeSound, hidle]

/-- No lane of an idle engine is started (R41). -/
theorem Inv.lanes_idle {s : State} (hi : Inv s) (h : s.engine = .idle) :
    s.lanes = List.replicate s.inst.numLanes laneIdle := by
  simpa only [engineSound, h] using hi.engine_sound

/-- STATE0..7 of an idle engine may hold anything (R34). -/
theorem inv_setHash {s : State} (hi : Inv s) (h : s.engine = .idle) (v : HashState) :
    Inv (s.setHash v) :=
  inv_of_idle h hi.instance_legal hi.memory_canonical hi.memory_bounded hi.config_reserved
    hi.status_sound (hi.lanes_idle h)

/-- A write dropped by the lock (R35). -/
theorem inv_dropWrite {s : State} (hi : Inv s) : Inv (dropWrite s) := by
  refine inv_setStatus hi hi.status_sound fun hbusy => ?_
  rw [status_busy hi hbusy]
  exact ⟨rfl, rfl⟩

/-- The lock drops a store while BUSY, so only an idle engine's registers change (R35). -/
theorem inv_lockedStore {s : State} {store : State → State} (hi : Inv s)
    (hstore : s.engine = .idle → Inv (store s)) : Inv (lockedStore s store) := by
  cases he : s.engine with
  | idle =>
    have hlock : lockedStore s store = store s := by simp only [lockedStore, he]
    exact hlock ▸ hstore he
  | busy c j => exact lockedStore_busy he store ▸ inv_dropWrite hi

/-- A reset leaves the invariant's idle state, the destination of a running command overwritten (R48,
R303). -/
theorem inv_resetEngine {s : State} (hi : Inv s) : Inv (resetEngine s) := by
  have hreset {u : State} (hlegal : u.inst.legal) (hcanon : Memory.wf u.memory)
      (hbound : Memory.inBusSpace u.memory) : Inv (resetRegisters u) :=
    inv_of_idle rfl hlegal hcanon hbound (show 0x8#32 &&& ~~~configMask = 0#32 by decide)
      statusSound_statusReset rfl
  cases he : s.engine with
  | idle =>
    simp only [resetEngine, he]
    exact hreset hi.instance_legal hi.memory_canonical hi.memory_bounded
  | busy c job =>
    simp only [resetEngine, he]
    have hsound := hi.engine_sound
    simp only [engineSound, he] at hsound
    refine hreset hi.instance_legal (scrambleDest_wf c hi.memory_canonical)
      (Memory.writeBytes_inBusSpace _ ?_ hi.memory_bounded)
    rw [freeBytes_length]
    exact (passesChecks_ranges hsound.1).2.1

/-! ## The host's writes to memory -/

/-- MemRead inside a range depends on the bytes of the range alone. -/
theorem Memory.readBytes_congr_span {m m' : Memory} {r : Span}
    (h : ∀ a, r.has a = true → Memory.read m' a = Memory.read m a) {a n : Nat} (hlo : r.lo ≤ a)
    (hhi : a + n ≤ r.hi) : Memory.readBytes m' a n = Memory.readBytes m a n :=
  Memory.readBytes_congr fun i hin => h _ ((Span.has_iff _ _).2 ⟨by omega, by omega⟩)

/-- Memory replaced where the running command neither reads nor writes keeps its work right: it reads
only its source, and what it has written stands in its destination (R65, R77). -/
theorem workCorrect_setMemory {s : State} {m : Memory} {c : Ctx} {job : Job} (hi : Inv s)
    (he : s.engine = .busy c job)
    (hsrc : ∀ a, (sourceRange c).has a = true → Memory.read m a = Memory.read s.memory a)
    (hdst : ∀ a, (destRange c).has a = true → Memory.read m a = Memory.read s.memory a) :
    workCorrect (s.setMemory m) := by
  have hwork := hi.work_correct
  have hsound := hi.engine_sound
  simp only [engineSound, he] at hsound
  simp only [workCorrect, State.setMemory_engine, State.setMemory_memory, State.setMemory_inst,
    State.setMemory_lanes, he] at hwork ⊢
  obtain ⟨-, -, hjob, -⟩ := hsound
  cases job with
  | compress k v core =>
    have hread (n : Nat) (hcmd : c.cmd = .compress) (hn : 64 * n ≤ c.len.toNat) :
        Memory.readBytes m c.src.toNat (64 * n) = Memory.readBytes s.memory c.src.toNat (64 * n) := by
      refine Memory.readBytes_congr_span hsrc (Nat.le_refl _) ?_
      simp only [sourceRange, sourceLength, hcmd]
      omega
    cases core with
    | none =>
      obtain ⟨hcmd, hk⟩ := hjob
      simp only at hwork ⊢
      rwa [hread k hcmd (by omega)]
    | some e =>
      obtain ⟨hcmd, hk, -⟩ := hjob
      simp only at hwork ⊢
      rwa [hread (k + 1) hcmd (by omega)]
  | funnel buffer =>
    cases buffer with
    | none => trivial
    | some b =>
      obtain ⟨hcmd, -⟩ := hjob
      have hread := Memory.readBytes_congr_span hsrc (a := c.src.toNat) (n := 4096) (Nat.le_refl _)
        (by simp [sourceRange, sourceLength, hcmd])
      simp only [funnelAt, hread] at hwork ⊢
      exact hwork
  | digest o =>
    have hcmd : c.cmd = .digest := hjob
    exact orchCorrect_congr (Memory.readBytes_congr_span hsrc (Nat.le_refl _)
      (by simp [sourceRange, sourceLength, hcmd])) hwork
  | dispatch =>
    obtain ⟨aff, workers, hcmd⟩ : ∃ aff workers, c.cmd = .dispatch aff workers := by
      cases hcmd : c.cmd <;> simp only [jobSound, hcmd] at hjob
      exact ⟨_, _, rfl⟩
    simp only [jobSound, hcmd] at hjob
    intro l hl
    obtain ⟨k, hk⟩ := List.getElem?_of_mem hl
    obtain ⟨hnext, hhi⟩ := laneSound_hi (hjob k l hk)
    obtain ⟨horch, hslots⟩ := hwork l hl
    refine ⟨fun h => ?_, fun i hlo hlt => ?_⟩
    · obtain ⟨hlo, hend, -, -⟩ := dispatch_item hcmd (i := l.next) (by omega)
      exact orchCorrect_congr (Memory.readBytes_congr_span hsrc hlo hend) (horch h)
    · obtain ⟨hslo, hsend, hdlo, hdend⟩ := dispatch_item hcmd (i := i) (by omega)
      rw [Memory.readBytes_congr_span hdst hdlo hdend,
        digestAt_congr (Memory.readBytes_congr_span hsrc hslo hsend), hslots i hlo hlt]

/-- Memory replaced outside the ranges of a running command (R305). -/
theorem inv_setMemory_busy {s : State} {m : Memory} {c : Ctx} {job : Job} (hi : Inv s)
    (he : s.engine = .busy c job) (hcanon : Memory.wf m) (hbound : Memory.inBusSpace m)
    (hsrc : ∀ a, (sourceRange c).has a = true → Memory.read m a = Memory.read s.memory a)
    (hdst : ∀ a, (destRange c).has a = true → Memory.read m a = Memory.read s.memory a) :
    Inv (s.setMemory m) where
  instance_legal := hi.instance_legal
  memory_canonical := hcanon
  memory_bounded := hbound
  config_reserved := hi.config_reserved
  errcode_zero := hi.errcode_zero
  errcode_code := hi.errcode_code
  lane_count := hi.lane_count
  engine_sound := by
    have hsound := hi.engine_sound
    simp only [engineSound, he, State.setMemory_engine] at hsound ⊢
    exact hsound
  work_correct := workCorrect_setMemory hi he hsrc hdst
  before_sound := by
    have hbefore := hi.before_sound
    simp only [beforeSound, he, State.setMemory_engine, State.setMemory_memory,
      State.setMemory_inst] at hbefore ⊢
    obtain ⟨hwf, hbus, hbytes⟩ := hbefore
    refine ⟨hwf, hbus, fun a ha => ?_⟩
    rw [hdst a ha, finalByte_congr hsrc ha]
    exact hbytes a ha

/-- The bytes of a range that does not meet another are outside it. -/
theorem outside_of_not_meets {r q : Span} (h : r.meets q = false) {a : Nat} (ha : q.has a = true) :
    a < r.lo ∨ r.hi ≤ a := by
  by_contra hin
  have hmeets : r.meets q = true :=
    (Span.meets_iff r q).2 ⟨a, (Span.has_iff r a).2 ⟨by omega, by omega⟩, ha⟩
  simp [h] at hmeets

/-- An access to bus memory that answers is inside the bus space, and its body answers (R60). -/
theorem onBusMemory_next {s t : State} {r : Span} {body : Result}
    (h : onBusMemory s r body = .next t) : r.hi ≤ busTop ∧ body = .next t := by
  unfold onBusMemory at h
  split_ifs at h with htop
  exact ⟨Nat.le_of_not_lt htop, h⟩

theorem memoryWrite_inv {s t : State} {addr : Word} {bytes : List Byte} (hi : Inv s)
    (h : memoryWrite addr bytes s = .next t) : Inv t := by
  obtain ⟨htop, h⟩ := onBusMemory_next h
  split_ifs at h with hmeets
  obtain rfl := Host.Outcome.next.inj h
  refine inv_setResponse ?_ _
  have hcanon := Memory.writeBytes_wf addr.toNat bytes hi.memory_canonical
  have hbound := Memory.writeBytes_inBusSpace bytes htop hi.memory_bounded
  cases he : s.engine with
  | idle =>
    exact inv_of_idle he hi.instance_legal hcanon hbound hi.config_reserved hi.status_sound
      (hi.lanes_idle he)
  | busy c job =>
    simp only [meetsRunning, he, Bool.not_eq_true, Bool.or_eq_false_iff] at hmeets
    obtain ⟨hsrc, hdst⟩ := hmeets
    exact inv_setMemory_busy hi he hcanon hbound
      (fun a ha => Memory.read_writeBytes_outside bytes hi.memory_canonical
        (outside_of_not_meets hsrc ha))
      (fun a ha => Memory.read_writeBytes_outside bytes hi.memory_canonical
        (outside_of_not_meets hdst ha))

/-! ## Commands, accesses and steps -/

/-- Every command keeps the invariant. -/
theorem exec_inv {i : Instr} {s t : State} (hi : Inv s) (h : exec i s = .next t) : Inv t := by
  rcases exec_next_cases h with ⟨-, rfl⟩ | ⟨hidle, e, rfl⟩ | ⟨hidle, v, -, rfl⟩ |
    ⟨hidle, hp, job, lanes, hstart, rfl | rfl⟩
  · exact inv_dropWrite hi
  · exact inv_setStatus hi (statusSound_statusOfError e _) fun hbusy => absurd hidle hbusy
  · exact inv_setStatus (inv_setHash hi hidle v) (statusSound_statusOfSuccess _)
      fun hbusy => absurd hidle hbusy
  · exact finishCommand_inv (inv_launched hi hidle hp hstart)
  · exact inv_launched hi hidle hp hstart

theorem commandWrite_inv {w : Word} {s t : State} (hi : Inv s) (h : commandWrite w s = .next t) :
    Inv t := by
  cases hw : decode w with
  | ok i =>
    rw [commandWrite_of_decode hw] at h
    exact exec_inv hi h
  | error e =>
    cases he : s.engine with
    | idle =>
      rw [commandWrite_invalid hw he] at h
      obtain rfl := Host.Outcome.next.inj h
      exact inv_setStatus hi (statusSound_statusOfError _ _) fun hbusy => absurd he hbusy
    | busy c j =>
      rw [commandWrite_busy he] at h
      obtain rfl := Host.Outcome.next.inj h
      exact inv_dropWrite hi

/-- The reserved bits of CONFIG are never stored (R27). -/
theorem and_configMask_reserved (v : Word) : v &&& configMask &&& ~~~configMask = 0#32 := by
  rw [BitVec.and_assoc, BitVec.and_not_self]
  exact BitVec.and_zero

theorem regWrite_inv {r : Reg} {v : Word} {s t : State} (hi : Inv s) (h : regWrite r v s = .next t) :
    Inv t := by
  -- a store of a register that the invariant reads only while BUSY
  have hstore {store : State → State} (hnext : .next (lockedStore s store) = (.next t : Result))
      (hsame : s.engine = .idle → Inv (store s)) : Inv t :=
    Host.Outcome.next.inj hnext ▸ inv_lockedStore hi hsame
  have hidle {u : State} (he : s.engine = .idle) (hconfig : u.config &&& ~~~configMask = 0#32)
      (hu : (u.engine, u.inst, u.memory, u.status, u.lanes) =
        (s.engine, s.inst, s.memory, s.status, s.lanes)) : Inv u := by
    simp only [Prod.mk.injEq] at hu
    obtain ⟨h1, h2, h3, h4, h5⟩ := hu
    exact inv_of_idle (h1.trans he) (h2 ▸ hi.instance_legal) (h3 ▸ hi.memory_canonical)
      (h3 ▸ hi.memory_bounded) hconfig (h4 ▸ hi.status_sound) (by rw [h5, h2, hi.lanes_idle he])
  cases r with
  | id | params | laneAvail | reserved => exact Host.Outcome.next.inj h ▸ hi
  | ctrl =>
    obtain rfl := Host.Outcome.next.inj h
    unfold ctrlWrite
    split_ifs
    · exact inv_resetEngine hi
    · exact inv_setIrqEn hi _
  | status =>
    obtain rfl := Host.Outcome.next.inj h
    refine inv_setStatus hi (statusSound_statusCleared v hi.status_sound) fun hbusy => ?_
    rw [status_busy hi hbusy, statusCleared_busy]
    exact ⟨rfl, rfl⟩
  | cmd => exact commandWrite_inv hi h
  | config => exact hstore h fun he => hidle he (and_configMask_reserved v) rfl
  | src | dst | len | count => exact hstore h fun he => hidle he hi.config_reserved rfl
  | state k => exact hstore h fun he => inv_setHash hi he _

theorem windowWrite_inv {addr : Word} {size : Nat} {v : Word} {s t : State} (hi : Inv s)
    (h : windowWrite addr size v s = .next t) : Inv t := by
  unfold windowWrite at h
  split at h
  · cases h
  · split_ifs at h
    exact regWrite_inv (inv_setResponse hi _) h

theorem windowRead_inv {addr : Word} {size : Nat} {s t : State} (hi : Inv s)
    (h : windowRead addr size s = .next t) : Inv t := by
  unfold windowRead at h
  split at h
  · cases h
  · split_ifs at h
    exact Host.Outcome.next.inj h ▸ inv_setResponse hi _

theorem memoryRead_inv {addr : Word} {n : Nat} {s t : State} (hi : Inv s)
    (h : memoryRead addr n s = .next t) : Inv t :=
  Host.Outcome.next.inj (onBusMemory_next h).2 ▸ inv_setFresh (inv_setResponse hi _) _

/-- Every access of the host keeps the invariant. -/
theorem hostAccess_inv {op : HostOp} {s t : State} (hi : Inv s) (h : hostAccess op s = .next t) :
    Inv t := by
  cases op with
  | wr addr size v => exact windowWrite_inv hi h
  | rd addr size => exact windowRead_inv hi h
  | memWrite addr bytes => exact memoryWrite_inv hi h
  | memRead addr n => exact memoryRead_inv hi h
  | hardReset => exact Host.Outcome.next.inj h ▸ inv_setResponse (inv_resetEngine hi) _

theorem hostTurn_inv {s t : State} (hi : Inv s) (h : hostTurn s = .next t) : Inv t := by
  unfold hostTurn at h
  split at h
  · exact Host.Outcome.next.inj h ▸ hi
  · exact hostAccess_inv (inv_setInputs hi _) h

/-- Settles O60: a step is the host's turn, a move of the engine or the run to completion, and each of
them keeps the invariant. -/
theorem everyStepKeepsTheInvariant : Obligations.EveryStepKeepsTheInvariant := by
  intro s t hi h
  unfold step at h
  split at h
  · exact hostTurn_inv hi h
  · split at h
    · exact Host.Outcome.next.inj h ▸ finishCommand_inv hi
    · exact hostTurn_inv (inv_setSched hi _) h
    · exact Host.Outcome.next.inj h ▸ engineMove_inv _ (inv_setSched hi _)

/-- Settles O59: after reset the engine is idle and the memory empty. -/
theorem resetMeetsTheInvariant : Obligations.ResetMeetsTheInvariant :=
  inv_of_idle rfl (by decide) Memory.reset_wf (by decide) (by decide) statusSound_statusReset rfl

end Sys2Proof.Machine
end

section
/-! SUPPORT. The work of COMPRESS, FUNNEL and DIGEST run forward from its start, in any state: the result, or
BusError where an access does not complete (spec 40_compression.md R137; 41_funnel.md R170; 42_digest.md R194;
60_exceptions.md R275). -/

namespace Sys2Proof.Machine

/-- The run to completion of a given job, one move taken. -/
theorem finishCommand_setJob (c : Ctx) (j : Job) (s : State) :
    finishCommand (setJob c j s) = finishCommand (engineMove 0 (setJob c j s)) :=
  finishCommand_move (by simp [setJob])

theorem finishCommand_completeSuccess (s : State) :
    finishCommand (completeSuccess s) = completeSuccess s := finishCommand_idle rfl

theorem finishCommand_takeBusError (c : Ctx) (s : State) :
    finishCommand (takeBusError c s) = takeBusError c s := finishCommand_idle rfl

/-- Reading the bus has nothing to do with the job. -/
@[simp] theorem engineRead_setJob (c : Ctx) (j : Job) (s : State) (a n : Nat) :
    engineRead (setJob c j s) a n = engineRead s a n := rfl

/-- A write that ends its command ends the run, with success or with BusError (R244, R245). -/
theorem finishCommand_engineWrite (c : Ctx) (j : Job) (s : State) (a : Nat) (bytes : List Byte) :
    finishCommand (engineWrite c (setJob c j s) a bytes completeSuccess) =
      engineWrite c s a bytes completeSuccess := by
  cases hok : busOkRange s.inst a bytes.length with
  | true =>
    rw [engineWrite_ok _ hok, engineWrite_ok (s := setJob c j s) _ hok]
    exact finishCommand_completeSuccess _
  | false =>
    rw [engineWrite_busError _ hok, engineWrite_busError (s := setJob c j s) _ hok]
    exact finishCommand_takeBusError c _

/-- Whatever follows the rounds of a compression one by one follows its result (R131, R132). -/
theorem eq_of_coreStep {α : Type} {run : CoreEval → α} {next : HashState → α}
    (hrun : ∀ e, run e = (coreStep e).elim run next) {e : CoreEval} (he : e.round ≤ 63) :
    run e = next (coreResult e) := by
  induction hn : coreMoves e using Nat.strongRecOn generalizing e with
  | _ n ih =>
    subst hn
    rw [hrun]
    cases hs : coreStep e with
    | inl e' =>
      obtain ⟨hresult, hround, hlast⟩ := coreStep_inl hs
      have hmoves := coreStep_inl_moves hs
      rw [Sum.elim_inl, ih (coreMoves e') (by omega) (by omega) rfl, hresult]
    | inr v => rw [Sum.elim_inr, coreStep_inr hs he]

/-! ## COMPRESS -/

/-- A block in the compression core is absorbed (R137). -/
theorem finishCommand_compress_core {c : Ctx} {k : Nat} {v : HashState} {e : CoreEval} (s : State)
    (he : e.round ≤ 63) : finishCommand (setJob c (.compress k v (some e)) s) =
      finishCommand (setJob c (.compress (k + 1) (coreResult e) none) s) := by
  refine eq_of_coreStep (run := fun e => finishCommand (setJob c (.compress k v (some e)) s))
    (next := fun v => finishCommand (setJob c (.compress (k + 1) v none) s)) (fun e => ?_) he
  rw [finishCommand_setJob]
  show finishCommand (compressMove c k v (some e) (setJob c _ s)) = _
  simp only [compressMove]
  cases coreStep e <;> rfl

/-- Block k is loaded and absorbed, or meets a bus error (R137, R275). -/
theorem finishCommand_compress_block {c : Ctx} {k : Nat} (v : HashState) (s : State)
    (hk : k < c.len.toNat / 64) : finishCommand (setJob c (.compress k v none) s) =
      if busOkRange s.inst (c.src.toNat + 64 * k) 64 then
        finishCommand (setJob c (.compress (k + 1)
          (cf v (Memory.readBytes s.memory (c.src.toNat + 64 * k) 64)) none) s)
      else takeBusError c s := by
  rw [finishCommand_setJob]
  show finishCommand (compressMove c k v none (setJob c _ s)) = _
  simp only [compressMove, if_neg (Nat.not_le_of_lt hk), engineRead_setJob]
  split_ifs with hok
  · rw [engineRead_some hok, ← coreResult_coreStart]
    exact finishCommand_compress_core s (Nat.zero_le 63)
  · rw [engineRead_none (Bool.eq_false_iff.2 hok)]
    exact finishCommand_takeBusError c _

/-- When every block has been absorbed the command completes (R137, R244). -/
theorem finishCommand_compress_last {c : Ctx} {k : Nat} (v : HashState) (s : State)
    (hk : c.len.toNat / 64 ≤ k) :
    finishCommand (setJob c (.compress k v none) s) = completeSuccess (s.setHash v) := by
  rw [finishCommand_setJob]
  show finishCommand (compressMove c k v none (setJob c _ s)) = _
  simp only [compressMove, if_pos hk]
  exact finishCommand_completeSuccess _

/-- COMPRESS from block k on, n blocks left and each one readable (R134, R137). -/
theorem finishCommand_compress_blocks {c : Ctx} (s : State) {n k : Nat} (v : HashState)
    (hn : c.len.toNat / 64 = k + n)
    (hok : ∀ i, k ≤ i → i < k + n → busOkRange s.inst (c.src.toNat + 64 * i) 64 = true) :
    finishCommand (setJob c (.compress k v none) s) = completeSuccess (s.setHash
      (cfStar v (Memory.readBytes s.memory (c.src.toNat + 64 * k) (64 * n)))) := by
  induction n generalizing k v with
  | zero =>
    rw [Nat.add_zero] at hn
    rw [finishCommand_compress_last v s hn.le, Nat.mul_zero, Memory.readBytes, cfStar_nil]
  | succ n ih =>
    rw [finishCommand_compress_block v s (by omega), if_pos (hok k (Nat.le_refl k) (by omega)),
      ih _ (by omega) fun i hlo hhi => hok i (by omega) (by omega), Nat.mul_succ, Nat.mul_succ,
      Nat.add_comm (64 * n), Memory.readBytes_append, cfStar_cons _ _ _ (Memory.readBytes_length _ _ _),
      Nat.add_assoc]

/-- COMPRESS from block k on, some block left unreadable (R275). -/
theorem finishCommand_compress_fails {c : Ctx} (s : State) {i k : Nat} (v : HashState) (hki : k ≤ i)
    (hi : i < c.len.toNat / 64) (hbad : busOkRange s.inst (c.src.toNat + 64 * i) 64 = false) :
    finishCommand (setJob c (.compress k v none) s) = takeBusError c s := by
  induction hn : i - k generalizing k v with
  | zero =>
    obtain rfl : k = i := by omega
    rw [finishCommand_compress_block v s hi, if_neg (Bool.eq_false_iff.1 hbad)]
  | succ n ih =>
    rw [finishCommand_compress_block v s (by omega)]
    split_ifs
    · exact ih _ (by omega) (by omega)
    · rfl

/-! ## FUNNEL -/

/-- FUNNEL reads its message and writes its buffer (R170). -/
theorem finishCommand_funnel_start (c : Ctx) (s : State) :
    finishCommand (setJob c (.funnel none) s) =
      if busOkRange s.inst c.src.toNat 4096 then
        engineWrite c s c.dst.toNat (funnelAt s.inst c s.memory c.src.toNat) completeSuccess
      else takeBusError c s := by
  rw [finishCommand_setJob]
  show finishCommand (funnelMove c none (setJob c _ s)) = _
  simp only [funnelMove, engineRead_setJob]
  split_ifs with hok
  · rw [engineRead_some hok]
    show finishCommand (setJob c (.funnel (some (funnelAt s.inst c s.memory c.src.toNat))) s) = _
    rw [finishCommand_setJob]
    exact finishCommand_engineWrite c _ s _ _
  · rw [engineRead_none (Bool.eq_false_iff.2 hok)]
    exact finishCommand_takeBusError c _

/-! ## DIGEST -/

/-- A block of the funnel buffer in the compression core is absorbed (R190). -/
theorem finishCommand_digest_core {c : Ctx} {rest : List Byte} {e : CoreEval} (s : State)
    (he : e.round ≤ 63) : finishCommand (setJob c (.digest (.compress rest e)) s) =
      finishCommand (setJob c (.digest (.absorb rest (coreResult e))) s) := by
  refine eq_of_coreStep (run := fun e => finishCommand (setJob c (.digest (.compress rest e)) s))
    (next := fun v => finishCommand (setJob c (.digest (.absorb rest v)) s)) (fun e => ?_) he
  rw [finishCommand_setJob]
  show finishCommand (digestMove c (.compress rest e) (setJob c _ s)) = _
  simp only [digestMove, orchStep]
  cases coreStep e <;> rfl

/-- A funnel buffer of whole blocks is absorbed and the state serialized (R190). -/
theorem finishCommand_digest_absorb {c : Ctx} {buffer : List Byte} (v : HashState) (s : State)
    (hlen : buffer.length % 64 = 0) : finishCommand (setJob c (.digest (.absorb buffer v)) s) =
      finishCommand (setJob c (.digest (.digest (ser (cfStar v buffer)))) s) := by
  induction hn : buffer.length using Nat.strongRecOn generalizing buffer v with
  | _ n ih =>
    subst hn
    rw [finishCommand_setJob]
    cases buffer with
    | nil => rfl
    | cons b bs =>
      have hpos : 64 ≤ (b :: bs).length := by
        simp only [List.length_cons] at hlen ⊢
        omega
      have hmove : engineMove 0 (setJob c (.digest (.absorb (b :: bs) v)) s) =
          setJob c (.digest (.compress ((b :: bs).drop 64) (coreStart v ((b :: bs).take 64)))) s := rfl
      rw [hmove, finishCommand_digest_core s (Nat.zero_le 63), coreResult_coreStart,
        ih _ (by rw [List.length_drop]; omega) _ (by rw [List.length_drop]; omega) rfl,
        cfStar_take_drop v _ hpos]

/-- The digest is written, or meets a bus error (R194, R275). -/
theorem finishCommand_digest_write (c : Ctx) (d : List Byte) (s : State) :
    finishCommand (setJob c (.digest (.digest d)) s) =
      engineWrite c s c.dst.toNat (d.take (digestBytes c)) completeSuccess := by
  rw [finishCommand_setJob]
  exact finishCommand_engineWrite c _ s _ _

/-- DIGEST reads its message, digests it and writes the digest (R194). -/
theorem finishCommand_digest_start {c : Ctx} (s : State) (hlen : funnelLength c % 64 = 0) :
    finishCommand (setJob c (.digest .fetch) s) =
      if busOkRange s.inst c.src.toNat 4096 then
        engineWrite c s c.dst.toNat (digestAt s.inst c s.memory c.src.toNat) completeSuccess
      else takeBusError c s := by
  rw [finishCommand_setJob]
  show finishCommand (digestMove c .fetch (setJob c _ s)) = _
  simp only [digestMove, orchStep, engineRead_setJob]
  split_ifs with hok
  · rw [engineRead_some hok]
    show finishCommand (setJob c (.digest (.absorb (funnelAt s.inst c s.memory c.src.toNat) iv)) s) = _
    rw [finishCommand_digest_absorb iv s (by rwa [funnelAt_length]), finishCommand_digest_write]
    rfl
  · rw [engineRead_none (Bool.eq_false_iff.2 hok)]
    exact finishCommand_takeBusError c _

end Sys2Proof.Machine
end

section
/-! SUPPORT. How a command launched from an idle engine ends, and that it is launched at all (spec
44_command_control.md R240 to R245; 43_dispatch.md R220, R221; 60_exceptions.md R275). -/

namespace Sys2Proof.Machine

/-! ## The ends of a launched command in terms of the state it was written in -/

theorem launched_eq_setJob (i : Instr) (job : Job) (s : State) :
    launched i job s.lanes s = setJob (capture i s) job (acceptCommand s) := rfl

/-- Success with STATE0..7 replaced (R137, R244). -/
theorem completeSuccess_acceptCommand_setHash {s : State} (h : s.engine = .idle) (v : HashState) :
    completeSuccess ((acceptCommand s).setHash v) =
      (s.setHash v).setStatus ⟨true, false, s.status.dropped, 0#4⟩ :=
  completeSuccess_acceptCommand (s := s.setHash v) h

/-- Success with the memory replaced (R170, R194, R244). -/
theorem completeSuccess_acceptCommand_setMemory {s : State} (h : s.engine = .idle) (m : Memory) :
    completeSuccess ((acceptCommand s).setMemory m) =
      (s.setMemory m).setStatus ⟨true, false, s.status.dropped, 0#4⟩ :=
  completeSuccess_acceptCommand (s := s.setMemory m) h

/-- A sound idle engine has no lane started, so stopping them changes nothing (R41). -/
theorem stopLanes_of_inv {s : State} (hi : Inv s) (h : s.engine = .idle) : stopLanes s = s := by
  rw [stopLanes, ← hi.lanes_idle h]
  rfl

/-- BusError from a sound idle engine changes the destination, STATUS and the counter of free values
(R275). -/
theorem takeBusError_acceptCommand {s : State} (hi : Inv s) (h : s.engine = .idle) (c : Ctx) :
    takeBusError c (acceptCommand s) =
      ((s.setMemory (scrambleDest c s).memory).setFresh (s.fresh + destLength c)).setStatus
        ⟨true, true, s.status.dropped, 5#4⟩ := by
  have hstop : takeBusError c (acceptCommand s) =
      takeError .busError (acceptCommand (scrambleDest c (stopLanes s))) := rfl
  rw [hstop, takeError_acceptCommand (by exact h), stopLanes_of_inv hi h]
  rfl

/-! ## Success -/

/-- COMPRESS's blocks fill its source range (R65, R137). -/
theorem busOkRange_block {p : Instance} {c : Ctx} (hcmd : c.cmd = .compress)
    (hb : busFails p c = false) {i : Nat} (hi : i < c.len.toNat / 64) :
    busOkRange p (c.src.toNat + 64 * i) 64 = true := by
  refine busOkRange_source hb (Nat.le_add_right _ _) ?_
  simp only [sourceRange, sourceLength, hcmd]
  omega

/-- Settles O10: the blocks absorbed one after the other. -/
theorem compressCompletes : Obligations.CompressCompletes := by
  intro s hidle hsched hp hb
  obtain ⟨job, lanes, hstart, hexec, -⟩ := exec_of_passesChecks hidle hp
  obtain ⟨hmod, -⟩ : s.len.toNat % 64 = 0 ∧ _ := hp.2.2
  have hlen : 64 * (s.len.toNat / 64) = s.len.toNat := by omega
  cases hstart
  rw [hexec hsched, launched_eq_setJob, finishCommand_compress_blocks (acceptCommand s) _ (Nat.zero_add _).symm
    fun i _ hi => busOkRange_block rfl hb (by rwa [Nat.zero_add] at hi),
    completeSuccess_acceptCommand_setHash hidle]
  show Host.Outcome.next ((s.setHash (cfStar s.hash (Memory.readBytes s.memory (s.src.toNat + 64 * 0)
    (64 * (s.len.toNat / 64))))).setStatus _) = _
  rw [hlen, Nat.mul_zero, Nat.add_zero]

/-- A command meets a bus error exactly when the access to its source or to its destination does not
complete (R62). -/
theorem busFails_eq (p : Instance) (c : Ctx) : busFails p c =
    !(busOkRange p c.src.toNat (sourceLength c) && busOkRange p c.dst.toNat (destLength c)) := by
  simp only [busFails, busOkRange, sourceRange, destRange, Bool.not_and, Bool.not_not]
  induction p.busBad with
  | nil => rfl
  | cons r rs ih =>
    simp only [List.any_cons, ih]
    ac_rfl

/-- A command that reads its message and then writes its whole destination completes with success, or
with BusError where a byte of its ranges has ¬bus_ok (R244, R245). -/
theorem read_then_engineWrite {c : Ctx} (s : State) {bytes : List Byte} (hsrc : sourceLength c = 4096)
    (hdst : bytes.length = destLength c) :
    (if busOkRange s.inst c.src.toNat 4096 then engineWrite c s c.dst.toNat bytes completeSuccess
      else takeBusError c s) =
    if busFails s.inst c then takeBusError c s
      else completeSuccess (s.setMemory (Memory.writeBytes s.memory c.dst.toNat bytes)) := by
  rw [busFails_eq, hsrc, ← hdst, engineWrite]
  cases busOkRange s.inst c.src.toNat 4096 with
  | false => rfl
  | true => cases busOkRange s.inst c.dst.toNat bytes.length <;> rfl

/-- FUNNEL from its start (R170). -/
theorem finishCommand_funnel_result {c : Ctx} (s : State) (hcmd : c.cmd = .funnel) :
    finishCommand (setJob c (.funnel none) s) =
      if busFails s.inst c then takeBusError c s
      else completeSuccess (s.setMemory
        (Memory.writeBytes s.memory c.dst.toNat (funnelAt s.inst c s.memory c.src.toNat))) := by
  rw [finishCommand_funnel_start]
  exact read_then_engineWrite s (by simp only [sourceLength, hcmd])
    (by simp only [destLength, hcmd, funnelAt_length])

/-- Settles O22: the message read and its funnel written. -/
theorem funnelCompletes : Obligations.FunnelCompletes := by
  intro s hidle hsched hp hb
  obtain ⟨job, lanes, hstart, hexec, -⟩ := exec_of_passesChecks hidle hp
  cases hstart
  rw [hexec hsched, launched_eq_setJob, finishCommand_funnel_result _ rfl, if_neg (by exact Bool.eq_false_iff.1 hb),
    completeSuccess_acceptCommand_setMemory hidle]
  rfl

/-- DIGEST from its start (R194). -/
theorem finishCommand_digest_result {c : Ctx} (s : State) (hcmd : c.cmd = .digest)
    (hp : passesChecks s.inst c) : finishCommand (setJob c (.digest .fetch) s) =
      if busFails s.inst c then takeBusError c s
      else completeSuccess (s.setMemory
        (Memory.writeBytes s.memory c.dst.toNat (digestAt s.inst c s.memory c.src.toNat))) := by
  have hratio : ratioLegal s.inst c = true := by
    obtain ⟨-, -, hchecks⟩ := hp
    rw [hcmd] at hchecks
    exact hchecks.1
  rw [finishCommand_digest_start s (funnelLength_mod hratio)]
  exact read_then_engineWrite s (by simp only [sourceLength, hcmd])
    (by simp only [destLength, hcmd, digestAt_length])

/-- Settles O24: the message read and its digest written. -/
theorem digestCompletes : Obligations.DigestCompletes := by
  intro s hidle hsched hp hb
  obtain ⟨job, lanes, hstart, hexec, -⟩ := exec_of_passesChecks hidle hp
  cases hstart
  rw [hexec hsched, launched_eq_setJob, finishCommand_digest_result _ rfl (by exact hp),
    if_neg (by exact Bool.eq_false_iff.1 hb), completeSuccess_acceptCommand_setMemory hidle]
  rfl

/-- A DISPATCH without a bus error ends with the whole batch in memory (R221). -/
theorem finishCommand_launched_dispatch {s : State} {aff : Bool} {workers : Nat} (hi : Inv s)
    (h : s.engine = .idle) {lanes : List Lane} (hstart : Starts s (.dispatch aff workers) .dispatch lanes)
    (hp : passesChecks s.inst (capture (.dispatch aff workers) s))
    (hb : busFails s.inst (capture (.dispatch aff workers) s) = false) :
    finishCommand (launched (.dispatch aff workers) .dispatch lanes s) =
      (s.setMemory (batchMemory s.inst (capture (.dispatch aff workers) s) s.memory s.count.toNat)).setStatus
        ⟨true, false, s.status.dropped, 0#4⟩ := by
  have hinv := inv_launched hi h hp hstart
  have hend := (finishCommand_dispatch hinv rfl).2 (not_batchFails hinv rfl hb)
  rw [hend, ← completeSuccess_acceptCommand_setMemory h]
  show completeSuccess ((acceptCommand (stopLanes s)).setMemory _) = _
  rw [stopLanes_of_inv hi h]
  rfl

/-- Settles O30: the memory of the whole batch, slot by slot. -/
theorem dispatchCompletes : Obligations.DispatchCompletes := by
  intro s aff workers hidle hsched hi hp hb wb
  obtain ⟨job, lanes, hstart, hexec, -⟩ := exec_of_passesChecks hidle hp
  have hstart' := hstart
  cases hstart'
  refine ⟨batchMemory s.inst (capture (.dispatch aff workers) s) s.memory s.count.toNat,
    by rw [hexec hsched, finishCommand_launched_dispatch hi hidle hstart hp hb],
    batchMemory_wf _ _ hi.memory_canonical _,
    fun i hlt => batchMemory_slot _ _ hi.memory_canonical hlt,
    fun a ha => batchMemory_outside _ _ hi.memory_canonical _ ha⟩

/-! ## BusError -/

/-- An access that covers a byte with ¬bus_ok does not complete (R62). -/
theorem busOkRange_eq_false {p : Instance} {a n b : Nat} (hb : busOk p b = false) (hlo : a ≤ b)
    (hhi : b < a + n) : busOkRange p a n = false := by
  by_contra hok
  have hbyte := (busOkRange_iff p a n).1 (by simpa using hok) (b - a) (by omega)
  rw [Nat.add_sub_cancel' hlo, hb] at hbyte
  exact absurd hbyte (by decide)

/-- An address in a row of n items of w bytes lies in one of the items. -/
theorem exists_item {base w n a : Nat} (hlo : base ≤ a) (hhi : a < base + n * w) :
    ∃ i, i < n ∧ base + w * i ≤ a ∧ a < base + w * i + w := by
  have hw : 0 < w := Nat.pos_of_ne_zero (by rintro rfl; omega)
  have hdiv : w * ((a - base) / w) + (a - base) % w = a - base := Nat.div_add_mod _ _
  have hmod := Nat.mod_lt (a - base) hw
  refine ⟨(a - base) / w, ?_, by omega, by omega⟩
  rw [Nat.div_lt_iff_lt_mul hw]
  omega

/-- At the start of a DISPATCH a byte with ¬bus_ok lies in a message or a slot of some lane's
partition (R212, R275). -/
theorem batchFails_launched {s : State} {aff : Bool} {workers : Nat} (hlegal : s.inst.legal)
    {lanes : List Lane} (hstart : Starts s (.dispatch aff workers) .dispatch lanes)
    (hb : busFails s.inst (capture (.dispatch aff workers) s) = true) :
    batchFails (launched (.dispatch aff workers) .dispatch lanes s)
      (capture (.dispatch aff workers) s) := by
  obtain ⟨a, hrange, hbad⟩ := (busFails_iff _ _).1 hb
  obtain ⟨hsrc, hdst⟩ := dispatch_ranges (c := capture (.dispatch aff workers) s) rfl
  rw [hsrc, hdst, Span.has_iff, Span.has_iff] at hrange
  have hitem : ∃ i, i < s.count.toNat ∧
      (busOkRange s.inst (messageAddr (capture (.dispatch aff workers) s) i) 4096 = false ∨
        busOkRange s.inst (slotAddr (capture (.dispatch aff workers) s) i)
          (digestBytes (capture (.dispatch aff workers) s)) = false) := by
    rcases hrange with ⟨hlo, hhi⟩ | ⟨hlo, hhi⟩
    · obtain ⟨i, hi, hlo, hhi⟩ := exists_item hlo hhi
      exact ⟨i, hi, .inl (busOkRange_eq_false hbad hlo hhi)⟩
    · obtain ⟨i, hi, hlo, hhi⟩ := exists_item hlo hhi
      exact ⟨i, hi, .inr (busOkRange_eq_false hbad hlo hhi)⟩
  obtain ⟨i, hi, hfail⟩ := hitem
  obtain ⟨hpos, hmax⟩ := effectiveWorkers_bounds workers hlegal
  obtain ⟨k, hk, hlo, hhi⟩ := partitionAt_covers hpos hi
  cases hstart
  refine ⟨_, List.mem_map.2 ⟨k, List.mem_range.2 (hk.trans_le hmax), rfl⟩, ?_⟩
  rw [if_pos hk]
  exact ⟨rfl, i, hlo, hhi, hfail.imp (fun h => ⟨fun _ => rfl, h⟩) id⟩

/-- A command launched with a byte of ¬bus_ok in a range ends in BusError (R275). -/
theorem finishCommand_launched_busError {s : State} {i : Instr} {job : Job} {lanes : List Lane}
    (hi : Inv s) (h : s.engine = .idle) (hp : passesChecks s.inst (capture i s))
    (hstart : Starts s i job lanes) (hb : busFails s.inst (capture i s) = true) :
    finishCommand (launched i job lanes s) = takeBusError (capture i s) (acceptCommand s) := by
  cases hstart with
  | compress =>
    obtain ⟨a, hrange, hbad⟩ := (busFails_iff _ _).1 hb
    rw [Span.has_iff, Span.has_iff] at hrange
    obtain ⟨hmod, -⟩ : s.len.toNat % 64 = 0 ∧ _ := hp.2.2
    have hsrc : s.src.toNat ≤ a ∧ a < s.src.toNat + s.len.toNat / 64 * 64 := by
      simp only [sourceRange, sourceLength, destRange, destLength, capture] at hrange
      omega
    obtain ⟨k, hk, hlo, hhi⟩ := exists_item hsrc.1 hsrc.2
    exact finishCommand_compress_fails _ _ (Nat.zero_le k) hk (busOkRange_eq_false hbad hlo hhi)
  | funnel =>
    rw [launched_eq_setJob, finishCommand_funnel_result _ rfl]
    exact if_pos hb
  | digest =>
    rw [launched_eq_setJob, finishCommand_digest_result _ rfl (by exact hp)]
    exact if_pos hb
  | dispatch aff workers =>
    have hinv := inv_launched hi h hp (.dispatch aff workers)
    exact (finishCommand_dispatch hinv rfl).1
      (batchFails_launched hi.instance_legal (.dispatch aff workers) hb)

/-- Settles O36: the destination overwritten with free bytes, STATUS and the counter changed. -/
theorem busErrorCompletion : Obligations.BusErrorCompletion := by
  intro s i hi hidle hsched hp hb
  obtain ⟨job, lanes, hstart, hexec, -⟩ := exec_of_passesChecks hidle hp
  refine ⟨(scrambleDest (capture i s) s).memory, ?_,
    fun a ha => scrambleDest_outside _ hi.memory_canonical ha,
    fun k hk => scrambleDest_inside _ hi.memory_canonical hk⟩
  rw [hexec hsched, finishCommand_launched_busError hi hidle hp hstart hb,
    takeBusError_acceptCommand hi hidle]

/-! ## WORKERS and AFF -/

/-- The batch's memory does not depend on which command the context holds. -/
theorem batchMemory_setCmd (p : Instance) (c : Ctx) (m : Memory) (i : Instr) (n : Nat) :
    batchMemory p { c with cmd := i } m n = batchMemory p c m n := by
  induction n with
  | zero => rfl
  | succ n ih =>
    rw [batchMemory, ih]
    rfl

/-- How a launched DISPATCH ends, WORKERS and AFF gone from the answer (R217, R221). -/
theorem finishCommand_dispatch_workers {s : State} {aff aff' : Bool} {workers workers' : Nat}
    {lanes lanes' : List Lane} (hi : Inv s) (h : s.engine = .idle)
    (hp : passesChecks s.inst (capture (.dispatch aff workers) s))
    (hp' : passesChecks s.inst (capture (.dispatch aff' workers') s))
    (hstart : Starts s (.dispatch aff workers) .dispatch lanes)
    (hstart' : Starts s (.dispatch aff' workers') .dispatch lanes') :
    finishCommand (launched (.dispatch aff workers) .dispatch lanes s) =
      finishCommand (launched (.dispatch aff' workers') .dispatch lanes' s) := by
  have hsame : busFails s.inst (capture (.dispatch aff' workers') s) =
      busFails s.inst (capture (.dispatch aff workers) s) := rfl
  cases hb : busFails s.inst (capture (.dispatch aff workers) s) with
  | true =>
    rw [finishCommand_launched_busError hi h hp hstart hb,
      finishCommand_launched_busError hi h hp' hstart' (hsame.trans hb)]
    rfl
  | false =>
    have hbatch : batchMemory s.inst (capture (.dispatch aff workers) s) s.memory s.count.toNat =
        batchMemory s.inst (capture (.dispatch aff' workers') s) s.memory s.count.toNat :=
      batchMemory_setCmd _ (capture (.dispatch aff' workers') s) _ (.dispatch aff workers) _
    rw [finishCommand_launched_dispatch hi h hstart hp hb,
      finishCommand_launched_dispatch hi h hstart' hp' (hsame.trans hb), hbatch]

/-- Two launches of DISPATCH that differ in WORKERS and AFF alone answer the same (R217, R221). -/
theorem launch_dispatch_workers {s : State} {aff aff' : Bool} {workers workers' : Nat} (hi : Inv s)
    (h : s.engine = .idle) (hsched : s.sched = [])
    (hp : preChecks s.inst (capture (.dispatch aff workers) s))
    (hp' : preChecks s.inst (capture (.dispatch aff' workers') s)) :
    launch (capture (.dispatch aff workers) s) .dispatch ((acceptCommand s).setLanes
        (startLanes s.inst.numLanes s.count.toNat (effectiveWorkers s.inst workers))) =
      launch (capture (.dispatch aff' workers') s) .dispatch ((acceptCommand s).setLanes
        (startLanes s.inst.numLanes s.count.toNat (effectiveWorkers s.inst workers'))) := by
  simp only [launch, State.setLanes_sched, show (acceptCommand s).sched = [] from hsched]
  refine ite_congr rfl (fun hn => congrArg _ ?_) fun _ => rfl
  exact finishCommand_dispatch_workers hi h ((passesChecks_iff _ _).2 ⟨hn, hp⟩)
    ((passesChecks_iff _ _).2 ⟨hn, hp'⟩) (.dispatch aff workers) (.dispatch aff' workers')

/-- Settles O33: the checks read neither field but for the lanes, and the launches agree. -/
theorem dispatchResultIndependentOfWorkersAndAff :
    Obligations.DispatchResultIndependentOfWorkersAndAff := by
  intro s aff aff' workers workers' hi hidle hsched hl hl'
  have hrange : rangeFails (capture (.dispatch aff' workers') s) =
      rangeFails (capture (.dispatch aff workers) s) := rfl
  rw [execDispatch_idle hidle, execDispatch_idle hidle, hrange, hl, hl']
  split_ifs with hlegal hlen hfails havail hcount
  · rfl
  · rfl
  · rfl
  · rfl
  · obtain ⟨hratio, hmix, hwidth⟩ := hlegal
    have hpre {aff : Bool} {workers : Nat} (hl : lanesAvailable s.inst workers = true) :
        preChecks s.inst (capture (.dispatch aff workers) s) :=
      ⟨rfl, Bool.eq_false_iff.2 hfails, hratio, (mixLegal_iff _).2 hmix, (widthLegal_iff _).2 hwidth,
        not_not.1 hlen, hl, Nat.pos_of_ne_zero hcount⟩
    exact launch_dispatch_workers hi hidle hsched (hpre hl) (hpre hl')
  · rfl

/-! ## Launching -/

/-- Settles O34: the launched state, with the first work of each command. -/
theorem acceptanceMakesTheEngineBusy : Obligations.AcceptanceMakesTheEngineBusy := by
  intro s i hidle hsched hp
  obtain ⟨job, lanes, hstart, -, hexec⟩ := exec_of_passesChecks hidle hp
  refine ⟨rfl, job, lanes, hexec hsched, ?_⟩
  cases hstart with
  | compress => exact ⟨⟨rfl, Nat.zero_le _⟩, fun _ => rfl⟩
  | funnel => exact ⟨rfl, fun _ => rfl⟩
  | digest => exact ⟨rfl, fun _ => rfl⟩
  | dispatch aff workers =>
    exact ⟨startLanes_sound s.inst (capture (.dispatch aff workers) s) workers,
      fun hne => absurd rfl (hne aff workers)⟩

/-- Settles O35: the launch refuses what the pre-checks let through. -/
theorem deviceRangesAreRefused : Obligations.DeviceRangesAreRefused := by
  intro s i hidle hp hdevice
  obtain ⟨job, lanes, -, hexec⟩ := exec_of_preChecks hidle hp
  rw [hexec, launch, if_neg (by exact Bool.eq_false_iff.1 hdevice)]

end Sys2Proof.Machine
end

section
/-! SUPPORT. The moves of a sound BUSY engine: what they write, when and how the command ends, and that the
host's writes of STATUS and of locked registers do not reach its work (spec 10_state.md R34 to R38;
20_memory.md R65, R74; 44_command_control.md R243, R252). -/

namespace Sys2Proof.Machine

/-! ## What a move writes -/

/-- The part of the invariant that ties a BUSY engine to its context (R37, R38, R243). -/
theorem Inv.busy {s : State} {c : Ctx} {job : Job} (hi : Inv s) (he : s.engine = .busy c job) :
    passesChecks s.inst c ∧ jobSound s.inst c s.lanes job := by
  have hsound := hi.engine_sound
  simp only [engineSound, he] at hsound
  exact ⟨hsound.1, hsound.2.2.1⟩

/-- The lanes' command is a DISPATCH (R243). -/
theorem exists_dispatch {p : Instance} {c : Ctx} {lanes : List Lane}
    (h : jobSound p c lanes .dispatch) : ∃ aff workers, c.cmd = .dispatch aff workers := by
  cases hcmd : c.cmd <;> simp only [jobSound, hcmd] at h
  exact ⟨_, _, rfl⟩

/-- A write inside a range leaves every byte outside the range as it was (R65). -/
theorem read_writeBytes_of_not_has {m : Memory} {r : Span} {a b : Nat} {bytes : List Byte}
    (hm : Memory.wf m) (hlo : r.lo ≤ b) (hhi : b + bytes.length ≤ r.hi) (ha : r.has a = false) :
    Memory.read (Memory.writeBytes m b bytes) a = Memory.read m a := by
  refine Memory.read_writeBytes_outside _ hm ?_
  by_contra hin
  rw [(Span.has_iff r a).2 ⟨by omega, by omega⟩] at ha
  exact absurd ha (by decide)

/-- A move of the engine writes destination bytes alone (R65, R74). -/
theorem engineMove_outside {s : State} {c : Ctx} {job : Job} (turn : Nat) (hi : Inv s)
    (he : s.engine = .busy c job) {a : Nat} (ha : (destRange c).has a = false) :
    Memory.read (engineMove turn s).memory a = Memory.read s.memory a := by
  obtain ⟨-, hjob⟩ := hi.busy he
  have hwrite {b : Nat} {bytes : List Byte} (hlo : (destRange c).lo ≤ b)
      (hhi : b + bytes.length ≤ (destRange c).hi) :
      Memory.read (Memory.writeBytes s.memory b bytes) a = Memory.read s.memory a :=
    read_writeBytes_of_not_has hi.memory_canonical hlo hhi ha
  rcases engineMove_cases turn he with ⟨j, hm⟩ | ⟨-, k, l, l', -, hm⟩ |
    ⟨rfl, k, l, bytes, hl, hnext, hlen, hm⟩ | ⟨k, v, -, -, hm⟩ | ⟨bytes, rfl, hm⟩ |
    ⟨o, bytes, rfl, hlen, hm⟩ | ⟨-, hm⟩ | hm <;> rw [hm]
  · rfl
  · rfl
  · obtain ⟨aff, workers, hcmd⟩ := exists_dispatch hjob
    simp only [jobSound, hcmd] at hjob
    have hhi := (laneSound_hi (hjob k l hl)).2
    obtain ⟨-, -, hlo, hend⟩ := dispatch_item hcmd (i := l.next) (by omega)
    exact hwrite hlo (by omega)
  · rfl
  · obtain ⟨hcmd, hlen⟩ := hjob
    exact hwrite (Nat.le_refl _) (by simp only [destRange, destLength, hcmd, hlen]; omega)
  · have hcmd : c.cmd = .digest := hjob
    exact hwrite (Nat.le_refl _) (by simp only [destRange, destLength, hcmd]; omega)
  · rfl
  · exact scrambleDest_outside c hi.memory_canonical ha

/-- A move of the engine changes no part of the context (R38). -/
theorem engineMove_context {s : State} {c c' : Ctx} {job job' : Job} {turn : Nat}
    (he : s.engine = .busy c job) (h : (engineMove turn s).engine = .busy c' job') : c' = c := by
  have hsame (j : Job) (hj : Engine.busy c j = .busy c' job') : c' = c := (Engine.busy.inj hj).1.symm
  rcases engineMove_cases turn he with ⟨j, hm⟩ | ⟨-, k, l, l', -, hm⟩ | ⟨-, k, l, bytes, -, -, -, hm⟩ |
    ⟨k, v, -, -, hm⟩ | ⟨bytes, -, hm⟩ | ⟨o, bytes, -, -, hm⟩ | ⟨-, hm⟩ | hm <;> rw [hm] at h
  · exact hsame j h
  · exact hsame job (he ▸ h)
  · exact hsame job (he ▸ h)
  all_goals cases h

/-- Settles O43: the writes of each move, no source byte being a destination byte. -/
theorem engineWritesOnlyTheDestination : Obligations.EngineWritesOnlyTheDestination := by
  intro s c job turn a hi he
  obtain ⟨hp, -⟩ := hi.busy he
  exact ⟨engineMove_outside turn hi he,
    fun hsrc => engineMove_outside turn hi he ((passesChecks_ranges hp).2.2 a hsrc),
    fun _ _ h => engineMove_context he h⟩

/-- A move that is not COMPRESS's completion leaves STATE0..7 (R34, R36). -/
theorem engineMove_hash_cases {s : State} {c : Ctx} {job : Job} (turn : Nat)
    (he : s.engine = .busy c job) : (engineMove turn s).hash = s.hash ∨
      ∃ k v, job = .compress k v none ∧ engineMove turn s = completeSuccess (s.setHash v) := by
  rcases engineMove_cases turn he with ⟨j, hm⟩ | ⟨-, k, l, l', -, hm⟩ | ⟨-, k, l, bytes, -, -, -, hm⟩ |
    ⟨k, v, hjob, -, hm⟩ | ⟨bytes, -, hm⟩ | ⟨o, bytes, -, -, hm⟩ | ⟨-, hm⟩ | hm
  case inr.inr.inr.inl => exact .inr ⟨k, v, hjob, hm⟩
  all_goals exact .inl (by rw [hm]; rfl)

/-- The work is COMPRESS's, the only one that ends in STATE0..7 (R34). -/
def isCompress (job : Job) : Bool :=
  match job with
  | .compress _ _ _ => true
  | .funnel _ => false
  | .digest _ => false
  | .dispatch => false

/-- A move of a lane leaves a DISPATCH at work or ends it (R214). -/
theorem laneMove_engine {s : State} {c : Ctx} (he : s.engine = .busy c .dispatch) (k : Nat) (l : Lane) :
    (laneMove c k l s).engine = .busy c .dispatch ∨ (laneMove c k l s).engine = .idle := by
  unfold laneMove
  split_ifs
  · exact .inl he
  · cases orchStep s c (messageAddr c l.next) l.orch with
    | running o => exact .inl he
    | finished d =>
      simp only [engineWrite]
      split_ifs
      · exact .inl he
      · exact .inr rfl
    | busError => exact .inr rfl

/-- While a command runs its work stays of one kind (R243). -/
theorem engineMove_isCompress {s : State} {c c' : Ctx} {job job' : Job} {turn : Nat}
    (he : s.engine = .busy c job) (h : (engineMove turn s).engine = .busy c' job') :
    isCompress job' = isCompress job := by
  have hkind {j : Job} {u : State} (h : u.engine = .busy c' job')
      (hu : u.engine = .busy c j ∨ u.engine = .idle) (hj : isCompress j = isCompress job) :
      isCompress job' = isCompress job := by
    rcases hu with hu | hu <;> rw [hu] at h
    · exact (Engine.busy.inj h).2 ▸ hj
    · cases h
  unfold engineMove at h
  rw [he] at h
  cases job with
  | compress k v core =>
    cases core with
    | some e =>
      simp only [compressMove] at h
      cases hs : coreStep e <;> rw [hs] at h <;> exact hkind h (.inl rfl) rfl
    | none =>
      simp only [compressMove] at h
      split_ifs at h
      · cases h
      · cases hr : engineRead s (c.src.toNat + 64 * k) 64 <;> rw [hr] at h
        · cases h
        · exact hkind h (.inl rfl) rfl
  | funnel buffer =>
    cases buffer with
    | none =>
      simp only [funnelMove] at h
      cases hr : engineRead s c.src.toNat 4096 <;> rw [hr] at h
      · cases h
      · exact hkind h (.inl rfl) rfl
    | some b =>
      simp only [funnelMove, engineWrite] at h
      split_ifs at h <;> cases h
  | digest o =>
    simp only [digestMove] at h
    cases ho : orchStep s c c.src.toNat o <;> rw [ho] at h
    · exact hkind h (.inl rfl) rfl
    · simp only [engineWrite] at h
      split_ifs at h <;> cases h
    · cases h
  | dispatch =>
    simp only [dispatchMove] at h
    split at h
    · cases h
    · split at h
      · cases h
      · exact hkind h (laneMove_engine he _ _) rfl

/-- Only COMPRESS's context has COMPRESS's work (R243). -/
theorem isCompress_iff {p : Instance} {c : Ctx} {lanes : List Lane} {job : Job}
    (h : jobSound p c lanes job) : isCompress job = true ↔ c.cmd = .compress := by
  cases job with
  | compress k v core => cases core <;> exact iff_of_true rfl h.1
  | funnel buffer => cases buffer <;> simp_all [jobSound, isCompress]
  | digest o => simp_all [jobSound, isCompress]
  | dispatch =>
    obtain ⟨aff, workers, hcmd⟩ := exists_dispatch h
    simp [isCompress, hcmd]

/-- The other commands run to completion without a write of STATE0..7 (R34). -/
theorem finishCommand_hash {s : State} (h : ∀ c j, s.engine = .busy c j → isCompress j = false) :
    (finishCommand s).hash = s.hash := by
  have hrun := finishCommand_induction (s := s)
    (P := fun t => t.hash = s.hash ∧ ∀ c j, t.engine = .busy c j → isCompress j = false) ⟨rfl, h⟩ ?_
  · exact hrun.1
  · rintro t hbusy ⟨hhash, hkind⟩
    obtain ⟨c, j, he⟩ := exists_busy_of_ne_idle hbusy
    refine ⟨?_, fun c' j' h' => (engineMove_isCompress he h').trans (hkind c j he)⟩
    rcases engineMove_hash_cases 0 he with hsame | ⟨k, v, rfl, -⟩
    · exact hsame.trans hhash
    · exact absurd (hkind c _ he) (by simp [isCompress])

/-- Settles O44: the one move that writes STATE0..7 completes a COMPRESS. -/
theorem onlyCompletionOfCompressWritesState : Obligations.OnlyCompletionOfCompressWritesState := by
  intro s c job turn he
  rcases engineMove_hash_cases turn he with hsame | ⟨k, v, hjob, hm⟩
  · exact ⟨fun _ => hsame, fun hne => absurd hsame hne⟩
  · refine ⟨fun hne => absurd hjob (hne k v none), fun _ => ?_⟩
    rw [hm]
    exact ⟨rfl, rfl⟩

/-! ## How a command ends -/

/-- A command that has ended: DONE is set, and the end is success or BusError (R244, R245). -/
def ended (t : State) : Prop :=
  t.engine = .idle ∧ t.status.done = true ∧ (t.status.err = false ∨ t.status.errcode = 5#4)

/-- A move of a sound BUSY engine leaves it BUSY or ends its command (R243 to R245). -/
theorem engineMove_busy_or_ended {s : State} {c : Ctx} {job : Job} (turn : Nat) (hi : Inv s)
    (he : s.engine = .busy c job) : (engineMove turn s).engine ≠ .idle ∨ ended (engineMove turn s) := by
  have hstatus := status_busy hi (by simp [he])
  have hsuccess {u : State} (hu : u.status = s.status) : ended (completeSuccess u) :=
    ⟨rfl, rfl, .inl (by
      show u.status.err = false
      rw [hu, hstatus])⟩
  rcases engineMove_cases turn he with ⟨j, hm⟩ | ⟨-, k, l, l', -, hm⟩ | ⟨-, k, l, bytes, -, -, -, hm⟩ |
    ⟨k, v, -, -, hm⟩ | ⟨bytes, -, hm⟩ | ⟨o, bytes, -, -, hm⟩ | ⟨-, hm⟩ | hm <;> rw [hm]
  · exact .inl (by simp)
  · exact .inl (by simp [he])
  · exact .inl (by simp [he])
  · exact .inr (hsuccess rfl)
  · exact .inr (hsuccess rfl)
  · exact .inr (hsuccess rfl)
  · exact .inr (hsuccess rfl)
  · exact .inr ⟨rfl, rfl, .inr rfl⟩

/-- A sound BUSY engine, or one that has ended its command. -/
def soundOrEnded (t : State) : Prop := (t.engine ≠ .idle ∧ Inv t) ∨ ended t

theorem soundOrEnded_engineMove {t : State} (turn : Nat) (h : soundOrEnded t) :
    soundOrEnded (engineMove turn t) := by
  rcases h with ⟨hbusy, hi⟩ | hend
  · obtain ⟨c, j, he⟩ := exists_busy_of_ne_idle hbusy
    exact (engineMove_busy_or_ended turn hi he).imp (fun hb => ⟨hb, engineMove_inv turn hi⟩) id
  · rw [engineMove_idle turn hend.1]
    exact .inr hend

/-- The moves of a list of turns, one after the other. -/
def runTurns (turns : List Nat) (s : State) : State := turns.foldl (fun x k => engineMove k x) s

/-- A property that every move keeps holds after any turns. -/
theorem runTurns_induction {P : State → Prop} (hm : ∀ k t, P t → P (engineMove k t)) (turns : List Nat)
    {s : State} (hs : P s) : P (runTurns turns s) := by
  induction turns generalizing s with
  | nil => exact hs
  | cons k turns ih => exact ih (hm k s hs)

/-- As many moves as are left, of whatever lanes, leave the engine idle (R252). -/
theorem runTurns_engine {turns : List Nat} {s : State} (h : movesLeft s ≤ turns.length) :
    (runTurns turns s).engine = .idle := by
  induction turns generalizing s with
  | nil => exact runEngine_completes (n := 0) h
  | cons k turns ih =>
    refine ih (s := engineMove k s) ?_
    by_cases hidle : s.engine = .idle
    · rw [engineMove_idle k hidle, movesLeft_idle hidle]
      exact Nat.zero_le _
    · have := engineMove_lt k hidle
      rw [List.length_cons] at h
      omega

/-- Settles O37: the measure bounds the moves, and each move ends the command or keeps it sound. -/
theorem everyBusyCommandCompletes : Obligations.EveryBusyCommandCompletes := by
  intro s hi hbusy
  have hs : soundOrEnded s := .inl ⟨hbusy, hi⟩
  refine ⟨⟨movesLeft s, fun turns hlen => ?_⟩, fun hsched => ?_⟩
  · have hidle : (runTurns turns s).engine = .idle := runTurns_engine hlen
    have hsame : (runTurns turns s).inputs = s.inputs :=
      runTurns_induction (P := fun t => t.inputs = s.inputs)
        (fun k t ht => (engineMove_sameOutside k t).inputs.trans ht) turns rfl
    rcases runTurns_induction (fun k t ht => soundOrEnded_engineMove k ht) turns hs with
      ⟨hb, -⟩ | ⟨-, hdone, hend⟩
    · exact absurd hidle hb
    · exact ⟨hidle, hdone, hsame, hend⟩
  · obtain ⟨c, j, he⟩ := exists_busy_of_ne_idle hbusy
    refine ⟨finishCommand s, by simp only [step, he, hsched], finishCommand_engine s, ?_,
      (finishCommand_sameOutside s).inputs⟩
    rcases finishCommand_induction hs fun t _ ht => soundOrEnded_engineMove 0 ht with
      ⟨hb, -⟩ | ⟨-, hdone, -⟩
    · exact absurd (finishCommand_engine s) hb
    · exact hdone

/-- Settles O38: a move of any lane leads to the same end, turn after turn. -/
theorem orderOfMovesIsUnobservable : Obligations.OrderOfMovesIsUnobservable := by
  intro s turns hi
  induction turns generalizing s with
  | nil => rfl
  | cons k turns ih =>
    rw [List.foldl_cons, ih _ (engineMove_inv k hi), finishCommand_engineMove k hi]

/-! ## The result of the command's rule -/

/-- A run to completion writes destination bytes alone (R65). -/
theorem finishCommand_outside {s : State} {c : Ctx} {job : Job} (hi : Inv s)
    (he : s.engine = .busy c job) {a : Nat} (ha : (destRange c).has a = false) :
    Memory.read (finishCommand s).memory a = Memory.read s.memory a := by
  have hrun := finishCommand_induction (s := s)
    (P := fun t => Inv t ∧ (∀ c' j, t.engine = .busy c' j → c' = c) ∧
      Memory.read t.memory a = Memory.read s.memory a)
    ⟨hi, fun c' j h => (Engine.busy.inj (he.symm.trans h)).1.symm, rfl⟩ ?_
  · exact hrun.2.2
  · rintro t hbusy ⟨hit, hctx, hmem⟩
    obtain ⟨c', j, het⟩ := exists_busy_of_ne_idle hbusy
    obtain rfl := hctx c' j het
    exact ⟨engineMove_inv 0 hit, fun c'' j' h => engineMove_context het h,
      (engineMove_outside 0 hit het ha).trans hmem⟩

end Sys2Proof.Machine
end

section
/-! SUPPORT. What a BUSY command leaves in memory, in STATE0..7 and in STATUS, and what the host can see and
change of it on the way (spec 10_state.md R35, R38; 20_memory.md R77; 44_command_control.md R243, R244;
70_reset_and_hazards.md R306). -/

namespace Sys2Proof.Machine

/-! ## The result of the command's rule -/

/-- Where no byte of its ranges has ¬bus_ok, a BUSY command completes with success (R244). -/
theorem finishCommand_success {s : State} {c : Ctx} {job : Job} (hi : Inv s)
    (he : s.engine = .busy c job) (hb : busFails s.inst c = false) :
    ∃ u, finishCommand s = completeSuccess u ∧ u.status = s.status := by
  cases job with
  | compress k v core => exact ⟨_, finishCommand_compress hi he hb, rfl⟩
  | funnel buffer => exact ⟨_, finishCommand_funnel hi he hb, rfl⟩
  | digest o => exact ⟨_, finishCommand_digest hi he hb, rfl⟩
  | dispatch => exact ⟨_, (finishCommand_dispatch hi he).2 (not_batchFails hi he hb), rfl⟩

/-- STATUS then shows DONE and no error (R244). -/
theorem finishCommand_status {s : State} {c : Ctx} {job : Job} (hi : Inv s)
    (he : s.engine = .busy c job) (hb : busFails s.inst c = false) :
    (finishCommand s).status = ⟨true, false, s.status.dropped, 0#4⟩ := by
  obtain ⟨u, hend, hstatus⟩ := finishCommand_success hi he hb
  rw [hend]
  show statusSucceeded u.status = _
  rw [hstatus, status_busy hi (by simp [he])]
  rfl

/-- A byte of a string written at the start of the destination range. -/
theorem read_writeBytes_dest {m : Memory} {c : Ctx} {bytes : List Byte} {a : Nat} (hm : Memory.wf m)
    (hlen : bytes.length = destLength c) (ha : (destRange c).has a = true) :
    Memory.read (Memory.writeBytes m c.dst.toNat bytes) a = bytes.getD (a - c.dst.toNat) 0 := by
  obtain ⟨hlo, hhi⟩ := (Span.has_iff _ _).1 ha
  simp only [destRange] at hlo hhi
  obtain ⟨j, rfl⟩ := Nat.exists_eq_add_of_le hlo
  rw [Memory.read_writeBytes_inside bytes 0 hm (by omega), Nat.add_sub_cancel_left]

/-- Every destination byte then holds its final value (R74, R77 item 2). -/
theorem finishCommand_dest {s : State} {c : Ctx} {job : Job} (hi : Inv s)
    (he : s.engine = .busy c job) (hb : busFails s.inst c = false) {a : Nat}
    (ha : (destRange c).has a = true) :
    Memory.read (finishCommand s).memory a = finalByte s.inst c s.memory a := by
  obtain ⟨-, hjob⟩ := hi.busy he
  cases job with
  | compress k v core =>
    have hcmd : c.cmd = .compress := by cases core <;> exact hjob.1
    have hin := (Span.has_iff _ _).1 ha
    simp only [destRange, destLength, hcmd] at hin
    omega
  | funnel buffer =>
    have hcmd : c.cmd = .funnel := by
      cases buffer
      · exact hjob
      · exact hjob.1
    rw [finishCommand_funnel hi he hb]
    refine (read_writeBytes_dest hi.memory_canonical ?_ ha).trans ?_
    · simp only [funnelAt_length, destLength, hcmd]
    · simp only [finalByte, hcmd]
  | digest o =>
    have hcmd : c.cmd = .digest := hjob
    rw [finishCommand_digest hi he hb]
    refine (read_writeBytes_dest hi.memory_canonical ?_ ha).trans ?_
    · simp only [digestAt_length, destLength, hcmd]
    · simp only [finalByte, hcmd]
  | dispatch =>
    obtain ⟨aff, workers, hcmd⟩ := exists_dispatch hjob
    rw [(dispatch_ranges hcmd).2, Span.has_iff] at ha
    obtain ⟨i, hin, hlo, hhi⟩ := exists_item ha.1 ha.2
    obtain ⟨j, rfl⟩ := Nat.exists_eq_add_of_le hlo
    have hj : j < digestBytes c := by omega
    rw [(finishCommand_dispatch hi he).2 (not_batchFails hi he hb)]
    show Memory.read (batchMemory s.inst c s.memory c.count.toNat) (slotAddr c i + j) =
      finalByte s.inst c s.memory (slotAddr c i + j)
    rw [finalByte_slot hcmd hj, ← Memory.readBytes_getD _ _ _ _ 0 hj,
      batchMemory_slot _ _ hi.memory_canonical hin]

/-- The bytes of a digest as written are the first ones of D256 (R191, R194). -/
theorem digestAt_getD (p : Instance) (c : Ctx) (m : Memory) (a : Nat) {j : Nat}
    (hj : j < digestBytes c) : (digestAt p c m a).getD j 0 =
      (d256 p.mixKey (Memory.readBytes m a 4096) c.ratio.toNat c.mix).getD j 0 := by
  rw [digestAt, List.getD_eq_getElem?_getD, List.getD_eq_getElem?_getD, List.getElem?_take_of_lt hj]

/-- Settles O39: the destination by its final bytes, STATE0..7 of a COMPRESS by its absorbed blocks. -/
theorem busyCommandEndsInItsResult : Obligations.BusyCommandEndsInItsResult := by
  intro s c job hi he hb t
  obtain ⟨-, hjob⟩ := hi.busy he
  have hfinal {a : Nat} (ha : (destRange c).has a = true) := finishCommand_dest hi he hb ha
  refine ⟨finishCommand_engine s, finishCommand_status hi he hb, fun hcmd => ?_,
    fun hcmd => finishCommand_hash fun c' j' h' => ?_, fun hcmd j hj => ?_, fun hcmd j hj => ?_, ?_⟩
  · cases job with
    | compress k v core =>
      have hend : t = _ := finishCommand_compress hi he hb
      rw [hend]
      exact ⟨rfl, rfl⟩
    | _ => exact absurd ((isCompress_iff hjob).2 hcmd) (by simp [isCompress])
  · obtain ⟨rfl, rfl⟩ := Engine.busy.inj (he.symm.trans h')
    exact Bool.eq_false_iff.2 (mt (isCompress_iff hjob).1 hcmd)
  · have hin : (destRange c).has (c.dst.toNat + j) = true := by
      rw [Span.has_iff]
      simp only [destRange, destLength, hcmd, funnelLength]
      omega
    rw [hfinal hin]
    simp only [finalByte, hcmd, Nat.add_sub_cancel_left]
    rfl
  · have hin : (destRange c).has (c.dst.toNat + j) = true := by
      rw [Span.has_iff]
      simp only [destRange, destLength, hcmd]
      omega
    rw [hfinal hin]
    simp only [finalByte, hcmd, Nat.add_sub_cancel_left]
    exact digestAt_getD _ _ _ _ hj
  · rintro ⟨aff, workers, hcmd⟩ i j hlt hj
    obtain ⟨-, -, hlo, hhi⟩ := dispatch_item hcmd hlt
    have hin : (destRange c).has (slotAddr c i + j) = true :=
      (Span.has_iff _ _).2 ⟨by omega, by omega⟩
    exact (hfinal hin).trans ((finalByte_slot hcmd hj).trans (digestAt_getD _ _ _ _ hj))

/-! ## Early reads -/

/-- Settles O57: the byte read is the model's free choice, its final value the one the run to
completion leaves; the bytes in memory by the invariant. -/
theorem earlyReadIsOldOrFinal : Obligations.EarlyReadIsOldOrFinal := by
  intro s t c job addr hi he hread final
  have hfinal (ha : (destRange c).has addr.toNat = true) :
      (if busFails s.inst c then Config.freeByte s.fresh
        else finalByte s.inst c s.memory addr.toNat) = final := by
    refine ite_congr rfl (fun _ => rfl) fun hb => ?_
    exact (finishCommand_dest hi he (Bool.eq_false_iff.2 hb) ha).symm
  have hbyte : hostReadByte s addr.toNat 0 =
      if (destRange c).has addr.toNat = true then
        if Config.freeChoice s.fresh = true then final else Memory.read c.before addr.toNat
      else Memory.read s.memory addr.toNat := by
    simp only [hostReadByte, he, Nat.add_zero]
    exact ite_congr rfl (fun ha => by rw [hfinal ha]) fun _ => rfl
  refine ⟨?_, fun hb ha => ?_⟩
  · rw [← hbyte]
    exact (Host.Outcome.next.inj (onBusMemory_next hread).2).symm
  · have hbefore := hi.before_sound
    simp only [beforeSound, he] at hbefore
    rw [← hfinal ha, if_neg (Bool.eq_false_iff.1 hb)]
    exact hbefore.2.2 addr.toNat ha

end Sys2Proof.Machine
end

section
/-! SUPPORT. Two engines at the same work: what no move reads, STATUS and the copy of STATE0..7 in the context,
makes no difference to what the engine does (spec 10_state.md R34, R38; 42_digest.md R193). -/

namespace Sys2Proof.Machine

/-- The context with its copy of STATE0..7 changed (R38). -/
def recapture (f : HashState → HashState) (c : Ctx) : Ctx := { c with state := f c.state }

/-- The sequencer with the context's copy of STATE0..7 changed. -/
def recaptureEngine (f : HashState → HashState) (e : Engine) : Engine :=
  match e with
  | .idle => .idle
  | .busy c j => .busy (recapture f c) j

/-- A relation between machines at the same work: it fixes what the engine's moves read, the copy of
STATE0..7 apart, and the moves' updates keep it (R243). -/
structure SameWork (f : HashState → HashState) (R : State → State → Prop) : Prop where
  inst {s t : State} : R s t → t.inst = s.inst
  memory {s t : State} : R s t → t.memory = s.memory
  lanes {s t : State} : R s t → t.lanes = s.lanes
  engine {s t : State} : R s t → t.engine = recaptureEngine f s.engine
  setJob {s t : State} (c : Ctx) (j : Job) : R s t → R (setJob c j s) (setJob (recapture f c) j t)
  setLanes {s t : State} (l : List Lane) : R s t → R (s.setLanes l) (t.setLanes l)
  setMemory {s t : State} (m : Memory) : R s t → R (s.setMemory m) (t.setMemory m)
  success {s t : State} : R s t → R (completeSuccess s) (completeSuccess t)
  busError {s t : State} (c : Ctx) : R s t → R (takeBusError c s) (takeBusError (recapture f c) t)

section
variable {f : HashState → HashState} {R : State → State → Prop} {s t : State}

theorem engineRead_sameWork (hR : SameWork f R) (h : R s t) (a n : Nat) :
    engineRead t a n = engineRead s a n := by
  rw [engineRead, hR.inst h, hR.memory h, engineRead]

theorem orchStep_sameWork (hR : SameWork f R) (h : R s t) (c : Ctx) (a : Nat) (o : Orch) :
    orchStep t (recapture f c) a o = orchStep s c a o := by
  have hctx : orchStep t (recapture f c) a o = orchStep t c a o := by
    cases o with
    | absorb buffer v => cases buffer <;> rfl
    | _ => rfl
  rw [hctx, orchStep_congr o (hR.inst h) (by rw [hR.memory h])]

theorem engineWrite_sameWork (hR : SameWork f R) (h : R s t) (c : Ctx) (a : Nat) (bytes : List Byte)
    {after after' : State → State} (hafter : ∀ {u w}, R u w → R (after u) (after' w)) :
    R (engineWrite c s a bytes after) (engineWrite (recapture f c) t a bytes after') := by
  cases hok : busOkRange s.inst a bytes.length with
  | true =>
    rw [engineWrite_ok _ hok, engineWrite_ok _ ((hR.inst h).symm ▸ hok), hR.memory h]
    exact hafter (hR.setMemory _ h)
  | false =>
    rw [engineWrite_busError _ hok, engineWrite_busError _ ((hR.inst h).symm ▸ hok)]
    exact hR.busError c h

theorem compressMove_sameWork (hR : SameWork f R) (h : R s t) (hhash : ∀ v, R (s.setHash v) (t.setHash v))
    (c : Ctx) (k : Nat) (v : HashState) (core : Option CoreEval) :
    R (compressMove c k v core s) (compressMove (recapture f c) k v core t) := by
  cases core with
  | some e =>
    simp only [compressMove]
    cases coreStep e <;> exact hR.setJob c _ h
  | none =>
    have hlen : (recapture f c).len = c.len := rfl
    have hsrc : (recapture f c).src = c.src := rfl
    simp only [compressMove, engineRead_sameWork hR h, hlen, hsrc]
    split_ifs
    · exact hR.success (hhash v)
    · cases engineRead s (c.src.toNat + 64 * k) 64 with
      | none => exact hR.busError c h
      | some b => exact hR.setJob c _ h

theorem funnelMove_sameWork (hR : SameWork f R) (h : R s t) (c : Ctx) (buffer : Option (List Byte)) :
    R (funnelMove c buffer s) (funnelMove (recapture f c) buffer t) := by
  cases buffer with
  | some b => exact engineWrite_sameWork hR h c _ b hR.success
  | none =>
    have hsrc : (recapture f c).src = c.src := rfl
    simp only [funnelMove, engineRead_sameWork hR h, hR.inst h, hsrc]
    cases engineRead s c.src.toNat 4096 with
    | none => exact hR.busError c h
    | some m => exact hR.setJob c _ h

theorem digestMove_sameWork (hR : SameWork f R) (h : R s t) (c : Ctx) (o : Orch) :
    R (digestMove c o s) (digestMove (recapture f c) o t) := by
  have hsrc : (recapture f c).src = c.src := rfl
  simp only [digestMove, orchStep_sameWork hR h, hsrc]
  cases orchStep s c c.src.toNat o with
  | running o' => exact hR.setJob c _ h
  | finished d => exact engineWrite_sameWork hR h c _ _ hR.success
  | busError => exact hR.busError c h

theorem laneMove_sameWork (hR : SameWork f R) (h : R s t) (c : Ctx) (k : Nat) (l : Lane) :
    R (laneMove c k l s) (laneMove (recapture f c) k l t) := by
  have haddr : messageAddr (recapture f c) l.next = messageAddr c l.next := rfl
  simp only [laneMove, orchStep_sameWork hR h, hR.lanes h, haddr]
  split_ifs
  · exact hR.setLanes _ h
  · cases orchStep s c (messageAddr c l.next) l.orch with
    | running o' => exact hR.setLanes _ h
    | finished d =>
      exact engineWrite_sameWork hR h c _ _ fun hu => by rw [hR.lanes hu]; exact hR.setLanes _ hu
    | busError => exact hR.busError c h

theorem dispatchMove_sameWork (hR : SameWork f R) (h : R s t) (c : Ctx) (turn : Nat) :
    R (dispatchMove c turn s) (dispatchMove (recapture f c) turn t) := by
  have hstop : R (stopLanes s) (stopLanes t) := by
    rw [stopLanes, stopLanes, hR.inst h]
    exact hR.setLanes _ h
  simp only [dispatchMove, hR.lanes h]
  cases pickLane turn s.lanes with
  | none => exact hR.success hstop
  | some k =>
    cases hk : s.lanes[k]? with
    | none => simpa only [hk] using hR.success hstop
    | some l => simpa only [hk] using laneMove_sameWork hR h c k l

/-- Machines at the same work make the same move (R243). -/
theorem engineMove_sameWork (hR : SameWork f R) (h : R s t)
    (hhash : ∀ c j, s.engine = .busy c j → isCompress j = true → ∀ v, R (s.setHash v) (t.setHash v))
    (turn : Nat) : R (engineMove turn s) (engineMove turn t) := by
  have he := hR.engine h
  cases hs : s.engine with
  | idle =>
    rw [hs] at he
    rwa [engineMove_idle turn hs, engineMove_idle turn he]
  | busy c job =>
    rw [hs] at he
    simp only [engineMove, hs, he]
    cases job with
    | compress k v core => exact compressMove_sameWork hR h (hhash c _ hs rfl) c k v core
    | funnel buffer => exact funnelMove_sameWork hR h c buffer
    | digest o => exact digestMove_sameWork hR h c o
    | dispatch => exact dispatchMove_sameWork hR h c turn

/-- They have as many moves left (R252). -/
theorem movesLeft_sameWork (hR : SameWork f R) (h : R s t) : movesLeft t = movesLeft s := by
  have he := hR.engine h
  cases hs : s.engine with
  | idle =>
    rw [hs] at he
    rw [movesLeft_idle hs, movesLeft_idle he]
  | busy c job =>
    simp only [hs, recaptureEngine] at he
    cases job with
    | compress k v core => cases core <;> simp only [movesLeft, hs, he] <;> rfl
    | funnel buffer => cases buffer <;> simp only [movesLeft, hs, he]
    | digest o => simp only [movesLeft, hs, he]; rfl
    | dispatch => simp only [movesLeft, hs, he, hR.lanes h]; rfl

/-- Machines at the same work end alike (R243). -/
theorem finishCommand_sameWork (hR : SameWork f R) (h : R s t)
    (hhash : (∀ c j, s.engine = .busy c j → isCompress j = false) ∨
      ∀ {u w} v, R u w → R (u.setHash v) (w.setHash v)) : R (finishCommand s) (finishCommand t) := by
  rw [finishCommand, finishCommand, movesLeft_sameWork hR h]
  induction movesLeft s generalizing s t with
  | zero => exact h
  | succ n ih =>
    have he := hR.engine h
    cases hs : s.engine with
    | idle =>
      rw [hs] at he
      rwa [runEngine_idle _ hs, runEngine_idle _ he]
    | busy c job =>
      rw [hs] at he
      rw [runEngine_succ_busy n (by simp [hs]), runEngine_succ_busy n (by simp [he, recaptureEngine])]
      refine ih (engineMove_sameWork hR h (fun c j hj hc v => ?_) 0)
        (hhash.imp_left fun hkind c' j' h' => (engineMove_isCompress hs h').trans (hkind c job hs))
      rcases hhash with hkind | hset
      · exact absurd (hc.symm.trans (hkind c j hj)) (by decide)
      · exact hset v h

end

/-! ## The host's register writes -/

/-- Two machines that differ in STATUS alone are at the same work (R243). -/
theorem sameWork_setStatus : SameWork id fun s t => ∃ x, t = s.setStatus x where
  inst := fun ⟨x, h⟩ => h ▸ rfl
  memory := fun ⟨x, h⟩ => h ▸ rfl
  lanes := fun ⟨x, h⟩ => h ▸ rfl
  engine := by
    rintro s t ⟨x, rfl⟩
    show s.engine = _
    cases s.engine <;> rfl
  setJob := by rintro s t c j ⟨x, rfl⟩; exact ⟨x, rfl⟩
  setLanes := by rintro s t l ⟨x, rfl⟩; exact ⟨x, rfl⟩
  setMemory := by rintro s t m ⟨x, rfl⟩; exact ⟨x, rfl⟩
  success := by rintro s t ⟨x, rfl⟩; exact ⟨_, rfl⟩
  busError := by rintro s t c ⟨x, rfl⟩; exact ⟨_, rfl⟩

/-- While BUSY a register write other than CTRL's changes STATUS at most (R35). -/
theorem regWrite_busy {s t : State} {r : Reg} {v : Word} {c : Ctx} {j : Job}
    (he : s.engine = .busy c j) (hr : r ≠ .ctrl) (h : regWrite r v s = .next t) :
    ∃ x, t = s.setStatus x := by
  have hlock {store : State → State} (h : .next (lockedStore s store) = (.next t : Result)) :
      ∃ x, t = s.setStatus x :=
    ⟨_, (Host.Outcome.next.inj h).symm.trans (lockedStore_busy he store)⟩
  cases r with
  | id | params | laneAvail | reserved => exact ⟨s.status, (Host.Outcome.next.inj h).symm⟩
  | ctrl => exact absurd rfl hr
  | status => exact ⟨_, (Host.Outcome.next.inj h).symm⟩
  | cmd => exact ⟨_, (Host.Outcome.next.inj ((commandWrite_busy he v).symm.trans h)).symm⟩
  | config | src | dst | len | count | state k => exact hlock h

/-- Settles O40: the write changes STATUS at most, which no move reads. -/
theorem registerWritesCannotChangeARunningCommand :
    Obligations.RegisterWritesCannotChangeARunningCommand := by
  intro s t r v hbusy hr hwrite
  obtain ⟨c, j, he⟩ := exists_busy_of_ne_idle hbusy
  obtain ⟨x, rfl⟩ := regWrite_busy he hr hwrite
  obtain ⟨y, hend⟩ := finishCommand_sameWork sameWork_setStatus (s := s) ⟨x, rfl⟩
    (.inr fun v ⟨x, h⟩ => ⟨x, by rw [h]; rfl⟩)
  exact ⟨rfl, by rw [hend]; rfl, by rw [hend]; rfl, finishCommand_engine _⟩

/-! ## STATE0..7 under DIGEST and DISPATCH -/

/-- The machine with STATE0..7 and the context's copy of them replaced. -/
def withHash (v : HashState) (s : State) : State :=
  (s.setHash v).setEngine (recaptureEngine (fun _ => v) s.engine)

/-- It is at the same work (R193). -/
theorem sameWork_withHash (v : HashState) : SameWork (fun _ => v) fun s t => t = withHash v s where
  inst := fun h => h ▸ rfl
  memory := fun h => h ▸ rfl
  lanes := fun h => h ▸ rfl
  engine := fun h => h ▸ rfl
  setJob := by rintro s t c j rfl; rfl
  setLanes := by rintro s t l rfl; rfl
  setMemory := by rintro s t m rfl; rfl
  success := by rintro s t rfl; rfl
  busError := by rintro s t c rfl; rfl

/-- Where one answer is a next state, it has STATE0..7 as in `s` and the other answer is that state with
`v` there (R193). -/
def carriesHash (v : HashState) (s : State) (r r' : Result) : Prop :=
  ∀ t, r = .next t → t.hash = s.hash ∧ r' = .next (t.setHash v)

theorem carriesHash_ite {v : HashState} {s : State} {p : Prop} [Decidable p] {a a' b b' : Result}
    (ha : carriesHash v s a a') (hb : carriesHash v s b b') :
    carriesHash v s (if p then a else b) (if p then a' else b') := by
  split_ifs
  · exact ha
  · exact hb

theorem carriesHash_setStatus (v : HashState) (s : State) (x : Status) :
    carriesHash v s (.next (s.setStatus x)) (.next ((s.setHash v).setStatus x)) := by
  intro t h
  obtain rfl := Host.Outcome.next.inj h
  exact ⟨rfl, rfl⟩

/-- A launch of a command other than COMPRESS, run to completion, carries STATE0..7 along (R193). -/
theorem carriesHash_launch {c : Ctx} {j : Job} {s : State} (v : HashState) (hj : isCompress j = false)
    (hsched : s.sched = []) :
    carriesHash v s (launch c j s) (launch (recapture (fun _ => v) c) j (s.setHash v)) := by
  intro t h
  have hnormal : rangesNormal (s.setHash v).inst (recapture (fun _ => v) c) = rangesNormal s.inst c := rfl
  have hkind : ∀ c' j', (setJob c j s).engine = .busy c' j' → isCompress j' = false :=
    fun c' j' h' => (Engine.busy.inj h').2 ▸ hj
  have hsame := finishCommand_sameWork (sameWork_withHash v) (s := setJob c j s)
    (t := setJob (recapture (fun _ => v) c) j (s.setHash v)) rfl (.inl hkind)
  simp only [launch, hnormal, State.setHash_sched, hsched] at h ⊢
  split_ifs at h ⊢
  obtain rfl := Host.Outcome.next.inj h
  refine ⟨finishCommand_hash hkind, congrArg _ ?_⟩
  rw [hsame, withHash, finishCommand_engine]
  exact State.setEngine_self (finishCommand_engine _)

theorem carriesHash_digest {s : State} (v : HashState) (hidle : s.engine = .idle)
    (hsched : s.sched = []) : carriesHash v s (exec .digest s) (exec .digest (s.setHash v)) := by
  have hrange : rangeFails (capture .digest (s.setHash v)) = rangeFails (capture .digest s) := rfl
  rw [execDigest_idle hidle, execDigest_idle (s := s.setHash v) hidle]
  simp only [State.setHash_inst, State.setHash_config, State.setHash_len, State.setHash_status, hrange]
  have herror (x : Status) := carriesHash_setStatus v s x
  refine carriesHash_ite (herror _) (carriesHash_ite (herror _) (carriesHash_ite (herror _) ?_))
  exact carriesHash_launch (s := acceptCommand s) v rfl hsched

theorem carriesHash_dispatch {s : State} (aff : Bool) (workers : Nat) (v : HashState)
    (hidle : s.engine = .idle) (hsched : s.sched = []) :
    carriesHash v s (exec (.dispatch aff workers) s) (exec (.dispatch aff workers) (s.setHash v)) := by
  have hrange : rangeFails (capture (.dispatch aff workers) (s.setHash v)) =
      rangeFails (capture (.dispatch aff workers) s) := rfl
  rw [execDispatch_idle hidle, execDispatch_idle (s := s.setHash v) hidle]
  simp only [State.setHash_inst, State.setHash_config, State.setHash_len, State.setHash_status,
    State.setHash_count, hrange]
  have herror (x : Status) := carriesHash_setStatus v s x
  refine carriesHash_ite (herror _) (carriesHash_ite (herror _) (carriesHash_ite (herror _)
    (carriesHash_ite (herror _) (carriesHash_ite (herror _) ?_))))
  exact carriesHash_launch (s := (acceptCommand s).setLanes _) v rfl hsched

/-- Settles O27: the drop while BUSY, and from an idle engine each branch of the two commands. -/
theorem digestAndDispatchIgnoreState : Obligations.DigestAndDispatchIgnoreState := by
  intro s t v i hsched hi h
  cases he : s.engine with
  | busy c j =>
    rw [exec_busy he] at h
    rw [exec_busy (s := s.setHash v) he]
    exact carriesHash_setStatus v s _ t h
  | idle =>
    rcases hi with rfl | ⟨aff, workers, rfl⟩
    · exact carriesHash_digest v he hsched t h
    · exact carriesHash_dispatch aff workers v he hsched t h

end Sys2Proof.Machine
end

section
/-! SUPPORT. What each command leaves unchanged (spec 20_memory.md R65; 44_command_control.md R240 to R245). -/

namespace Sys2Proof.Machine

/-- A command changes no register but STATUS and STATE0..7, and never clears DROPPED (R240 to R245). -/
theorem exec_sameOutside {i : Instr} {s t : State} (h : exec i s = .next t) :
    t.inst = s.inst ∧ t.irqEn = s.irqEn ∧ t.config = s.config ∧ t.src = s.src ∧ t.dst = s.dst ∧
      t.len = s.len ∧ t.count = s.count ∧ t.inputs = s.inputs ∧ t.sched = s.sched ∧
      t.response = s.response ∧ (s.status.dropped = true → t.status.dropped = true) := by
  rcases exec_next_cases h with ⟨-, rfl⟩ | ⟨-, e, rfl⟩ | ⟨-, v, -, rfl⟩ |
    ⟨-, -, job, lanes, -, rfl | rfl⟩
  · exact ⟨rfl, rfl, rfl, rfl, rfl, rfl, rfl, rfl, rfl, rfl, fun _ => rfl⟩
  · exact ⟨rfl, rfl, rfl, rfl, rfl, rfl, rfl, rfl, rfl, rfl, id⟩
  · exact ⟨rfl, rfl, rfl, rfl, rfl, rfl, rfl, rfl, rfl, rfl, id⟩
  · obtain ⟨h1, h2, h3, h4, h5, h6, h7, h8, h9, h10, hdropped⟩ :=
      finishCommand_sameOutside (launched i job lanes s)
    exact ⟨h1, h2, h3, h4, h5, h6, h7, h8, h9, h10, hdropped.trans⟩
  · exact ⟨rfl, rfl, rfl, rfl, rfl, rfl, rfl, rfl, rfl, rfl, id⟩

/-- COMPRESS, BusError included, writes no memory: its destination range is empty (R65). -/
theorem finishCommand_compress_memory {s : State} (h : ∀ c j, s.engine = .busy c j →
    c.cmd = .compress ∧ isCompress j = true) : (finishCommand s).memory = s.memory := by
  have hrun := finishCommand_induction (s := s) (P := fun t => t.memory = s.memory ∧
    ∀ c j, t.engine = .busy c j → c.cmd = .compress ∧ isCompress j = true) ⟨rfl, h⟩ ?_
  · exact hrun.1
  · rintro t hbusy ⟨hmem, hkind⟩
    obtain ⟨c, j, he⟩ := exists_busy_of_ne_idle hbusy
    obtain ⟨hcmd, hj⟩ := hkind c j he
    refine ⟨?_, fun c' j' h' => ⟨engineMove_context he h' ▸ hcmd, (engineMove_isCompress he h').trans hj⟩⟩
    rcases engineMove_cases 0 he with ⟨j, hm⟩ | ⟨rfl, -⟩ | ⟨rfl, -⟩ | ⟨k, v, -, -, hm⟩ | ⟨b, rfl, -⟩ |
      ⟨o, b, rfl, -⟩ | ⟨rfl, -⟩ | hm
    · rw [hm]; exact hmem
    · cases hj
    · cases hj
    · rw [hm]; exact hmem
    · cases hj
    · cases hj
    · cases hj
    · have hempty : destLength c = 0 := by simp only [destLength, hcmd]
      rw [hm, ← hmem]
      show Memory.writeBytes t.memory _ (freeBytes t.fresh (destLength c)) = _
      rw [hempty]
      rfl

/-- Settles O41: STATUS and STATE0..7 at acceptance, and the run of a COMPRESS. -/
theorem frameOfCommandsThatStoreNothing : Obligations.FrameOfCommandsThatStoreNothing := by
  intro i s t hi h
  suffices hmem : t.memory = s.memory ∧ (i = .nop → t.hash = s.hash) from
    ⟨fun a => by rw [hmem.1], hmem.2, exec_sameOutside h⟩
  rcases exec_next_cases h with ⟨-, rfl⟩ | ⟨-, e, rfl⟩ | ⟨-, v, hv, rfl⟩ |
    ⟨-, -, job, lanes, hstart, ht⟩
  · exact ⟨rfl, fun _ => rfl⟩
  · exact ⟨rfl, fun _ => rfl⟩
  · exact ⟨rfl, fun hnop => hv (by simp [hnop])⟩
  · cases hstart with
    | compress =>
      refine ⟨?_, fun hnop => by cases hnop⟩
      rcases ht with rfl | rfl
      · refine finishCommand_compress_memory fun c j he => ?_
        obtain ⟨rfl, rfl⟩ := Engine.busy.inj he
        exact ⟨rfl, rfl⟩
      · rfl
    | funnel | digest | dispatch => simp at hi

/-- Settles O42: STATUS at acceptance, and the frame of the run of a storing command. -/
theorem frameOfCommandsThatStore : Obligations.FrameOfCommandsThatStore := by
  intro i s t hi hcmd h
  suffices hframe : (∀ a, (destRange (capture i s)).has a = false →
      Memory.read t.memory a = Memory.read s.memory a) ∧ t.hash = s.hash from
    ⟨hframe.1, hframe.2, exec_sameOutside h⟩
  have hnot : i ≠ .init ∧ i ≠ .compress := by
    rcases hcmd with rfl | rfl | ⟨aff, workers, rfl⟩ <;> simp
  rcases exec_next_cases h with ⟨-, rfl⟩ | ⟨-, e, rfl⟩ | ⟨-, v, hv, rfl⟩ |
    ⟨hidle, hp, job, lanes, hstart, ht⟩
  · exact ⟨fun _ _ => rfl, rfl⟩
  · exact ⟨fun _ _ => rfl, rfl⟩
  · exact ⟨fun _ _ => rfl, hv hnot.1⟩
  · have hinv := inv_launched hi hidle hp hstart
    have hkind : ∀ c j, (launched i job lanes s).engine = .busy c j → isCompress j = false := by
      intro c j he
      obtain ⟨rfl, rfl⟩ := Engine.busy.inj he
      exact Bool.eq_false_iff.2 (mt (isCompress_iff (hinv.busy rfl).2).1 hnot.2)
    rcases ht with rfl | rfl
    · exact ⟨fun a ha => finishCommand_outside hinv rfl ha, finishCommand_hash hkind⟩
    · exact ⟨fun _ _ => rfl, rfl⟩

end Sys2Proof.Machine
end

section
/-! SUPPORT. Errors and success at acceptance, each in its place in the order of R279 (spec 40_compression.md R137;
41_funnel.md R170; 42_digest.md R194; 43_dispatch.md R220). -/

namespace Sys2Proof.Machine

/-- Settles O11: LEN = 0 passes each check of COMPRESS, any SRC being in the bus space. -/
theorem compressOfNothingCompletes : Obligations.CompressOfNothingCompletes := by
  intro s hidle hlen
  have hrange : ¬rangeFails (capture .compress s) = true := by
    have hsrc := s.src.isLt
    have hdst := s.dst.isLt
    rw [rangeFails_iff]
    simp only [sourceLength, destLength, capture, hlen, busTop, BitVec.toNat_ofNat]
    omega
  have hzero : s.len.toNat = 0 := by simp [hlen]
  rw [execCompress_idle hidle, if_neg (by simp [hzero]), if_neg hrange, if_pos hzero]
  rfl

/-- The range check of COMPRESS, whose destination is empty (R276). -/
theorem rangeFails_compress (s : State) (h : 2 ^ 32 < s.src.toNat + s.len.toNat) :
    rangeFails (capture .compress s) = true :=
  (rangeFails_iff _).2 (.inl h)

/-- Settles O12: the first failing check of COMPRESS. -/
theorem compressErrorsAtAcceptance : Obligations.CompressErrorsAtAcceptance := by
  intro s hidle
  rw [execCompress_idle hidle]
  refine ⟨fun hlen => if_pos hlen, fun hlen hsrc => ?_⟩
  rw [if_neg (not_not.2 hlen), if_pos (rangeFails_compress s hsrc)]
  rfl

/-- A supported ratio leaves a funnel output, so FUNNEL's destination is not empty (R160). -/
theorem funnelLength_pos {p : Instance} {r : Nat} (h : ratioSupported p r = true) : 0 < 4096 / r := by
  rcases ratio_cases h with rfl | rfl | rfl | rfl | rfl | rfl | rfl <;> decide

/-- Settles O23: the first failing check of FUNNEL; both its ranges hold a byte. -/
theorem funnelErrorsAtAcceptance : Obligations.FunnelErrorsAtAcceptance := by
  intro s hidle r legal src dst
  rw [execFunnel_idle hidle]
  refine ⟨fun hlegal => if_pos hlegal, fun hlegal hlen => ?_, fun hlegal hlen hbad => ?_⟩
  · rw [if_neg (not_not.2 hlegal), if_pos hlen]
    rfl
  · have hrange : rangeFails (capture .funnel s) = true := by
      refine (rangeFails_iff _).2 (hbad.imp_right (Or.imp_right fun ⟨h1, h2⟩ => ?_))
      exact ⟨(by decide : 0 < 4096), funnelLength_pos hlegal.1, h1, h2⟩
    rw [if_neg (not_not.2 hlegal), if_neg (not_not.2 hlen), if_pos hrange]
    rfl

/-- Settles O25: the first failing check of DIGEST; both its ranges hold a byte. -/
theorem digestErrorsAtAcceptance : Obligations.DigestErrorsAtAcceptance := by
  intro s hidle legal src dst wb
  rw [execDigest_idle hidle]
  refine ⟨fun hlegal => if_pos hlegal, fun hlegal hlen => ?_, fun hlegal hlen hbad => ?_⟩
  · rw [if_neg (not_not.2 hlegal), if_pos hlen]
    rfl
  · have hrange : rangeFails (capture .digest s) = true := by
      refine (rangeFails_iff _).2 (hbad.imp_right (Or.imp_right fun ⟨h1, h2⟩ => ?_))
      exact ⟨(by decide : 0 < 4096), digestBytes_pos _, h1, h2⟩
    rw [if_neg (not_not.2 hlegal), if_neg (not_not.2 hlen), if_pos hrange]
    rfl

/-- The range check of DISPATCH in exact arithmetic (R220, R276). -/
theorem rangeFails_dispatch_iff (s : State) (aff : Bool) (workers : Nat) :
    rangeFails (capture (.dispatch aff workers) s) = true ↔
      2 ^ 32 < s.src.toNat + 4096 * s.count.toNat ∨
      2 ^ 32 < s.dst.toNat + (if configWidth s.config = 0#2 then 32 else 16) * s.count.toNat ∨
      (0 < s.count.toNat ∧
        s.src.toNat < s.dst.toNat + (if configWidth s.config = 0#2 then 32 else 16) * s.count.toNat ∧
        s.dst.toNat < s.src.toNat + 4096 * s.count.toNat) := by
  have hpos := digestBytes_pos (capture (.dispatch aff workers) s)
  have hsrc : sourceLength (capture (.dispatch aff workers) s) = 4096 * s.count.toNat := Nat.mul_comm _ _
  have hdst : destLength (capture (.dispatch aff workers) s) =
      digestBytes (capture (.dispatch aff workers) s) * s.count.toNat := Nat.mul_comm _ _
  rw [rangeFails_iff, hsrc, hdst]
  refine or_congr Iff.rfl (or_congr Iff.rfl ?_)
  constructor
  · rintro ⟨h1, -, h2, h3⟩
    exact ⟨by omega, h2, h3⟩
  · rintro ⟨h1, h2, h3⟩
    exact ⟨by omega, Nat.mul_pos hpos h1, h2, h3⟩

/-- Every lane a DISPATCH would start is available (R213). -/
theorem lanesAvailable_iff (p : Instance) (workers : Nat) : lanesAvailable p workers = true ↔
    ∀ k, k < effectiveWorkers p workers → p.laneAvail.getLsbD k = true := by
  simp [lanesAvailable]

/-- Settles O31: COUNT = 0 passes each check of DISPATCH, the lanes included. -/
theorem dispatchOfNothingCompletes : Obligations.DispatchOfNothingCompletes := by
  intro s aff workers hidle hratio hmix hwidth hlen hcount hlanes
  have hzero : s.count.toNat = 0 := by simp [hcount]
  have hrange : ¬rangeFails (capture (.dispatch aff workers) s) = true := by
    have hsrc := s.src.isLt
    have hdst := s.dst.isLt
    rw [rangeFails_dispatch_iff, hzero]
    omega
  have havail : ¬(!lanesAvailable s.inst workers) = true := by
    rw [(lanesAvailable_iff _ _).2 hlanes]
    decide
  rw [execDispatch_idle hidle, if_neg (not_not.2 ⟨hratio, hmix, hwidth⟩), if_neg (not_not.2 hlen),
    if_neg hrange, if_neg havail, if_pos hzero]
  rfl

/-- Settles O32: the first failing check of DISPATCH. -/
theorem dispatchErrorsAtAcceptance : Obligations.DispatchErrorsAtAcceptance := by
  intro s aff workers hidle legal src dst n wb badRange
  have hrange : rangeFails (capture (.dispatch aff workers) s) = true ↔ badRange :=
    rangeFails_dispatch_iff s aff workers
  rw [execDispatch_idle hidle]
  refine ⟨fun hlegal => if_pos hlegal, fun hlegal hlen => ?_, fun hlegal hlen hbad => ?_,
    fun hlegal hlen hfits hlane => ?_⟩
  · rw [if_neg (not_not.2 hlegal), if_pos hlen]
    rfl
  · rw [if_neg (not_not.2 hlegal), if_neg (not_not.2 hlen), if_pos (hrange.2 hbad)]
    rfl
  · obtain ⟨k, hk, hoff⟩ := hlane
    have havail : (!lanesAvailable s.inst workers) = true := by
      rw [Bool.not_eq_true', Bool.eq_false_iff, Ne, lanesAvailable_iff]
      exact fun hall => absurd ((hall k hk).symm.trans hoff) (by decide)
    rw [if_neg (not_not.2 hlegal), if_neg (not_not.2 hlen), if_neg (mt hrange.1 hfits), if_pos havail]
    rfl

end Sys2Proof.Machine
end

section
/-! SUPPORT. The registers' fields, what a host access in the window does, and the step that takes it (spec
10_state.md R20 to R34). -/

namespace Sys2Proof.Machine

/-- CTRL as a number (R24). -/
theorem ctrlWord_eq (irqEn : Bool) : ctrlWord irqEn = if irqEn then 1#32 else 0#32 := by
  cases irqEn <;> rfl

/-- Settles O45: each offset is aligned and inside the window. -/
theorem alignedReadsReturnTheRegister : Obligations.AlignedReadsReturnTheRegister := by
  intro s hs reads
  have hread {off : Nat} (hoff : off < 256) (halign : off % 4 = 0) :
      reads off (regRead s (regAt off)) := windowRead_aligned hs hoff halign
  have hctrl : reads 0x04 (ctrlWord s.irqEn) := hread (by decide) rfl
  rw [ctrlWord_eq] at hctrl
  refine ⟨?_, hctrl, ?_, ?_, ?_, ?_, ?_, ?_, ?_, ?_, ?_, ?_, ?_, ?_, ?_, ?_, ?_, ?_, ?_⟩ <;>
    exact hread (by decide) rfl

/-- Settles O47: HCE_BASE is aligned, so an address is aligned exactly when its offset is. -/
theorem wrongSizeOrAlignmentIsABusError : Obligations.WrongSizeOrAlignmentIsABusError := by
  intro s addr size v hs hin r
  obtain ⟨halign, -⟩ := hs
  obtain ⟨hlo, -⟩ := (Span.has_iff _ _).1 hin
  have hoff : windowOffset s.inst addr = some (addr.toNat - s.inst.hceBase.toNat) := if_pos hin
  have haccept : accessAccepted (addr.toNat - s.inst.hceBase.toNat) size = true ↔
      size = 4 ∧ addr.toNat % 4 = 0 := by
    simp only [windowSpan] at hlo
    simp only [accessAccepted, Bool.and_eq_true, decide_eq_true_eq]
    omega
  rw [windowWrite, windowRead, hoff]
  split
  case isTrue h => exact ⟨if_pos (haccept.2 h), if_pos (haccept.2 h)⟩
  case isFalse h => exact ⟨if_neg (mt haccept.1 h), if_neg (mt haccept.1 h)⟩

/-- The bits STATUS shows (R25). -/
theorem statusWord_fields (busy : Bool) (t : Status) :
    (statusWord busy t).getLsbD 0 = busy ∧ (statusWord busy t).getLsbD 2 = t.err ∧
      (statusWord busy t).getLsbD 3 = t.dropped ∧ (statusWord busy t).extractLsb' 4 4 = t.errcode ∧
      (statusWord busy t).toNat < 256 := by
  obtain ⟨done, err, dropped, errcode⟩ := t
  revert busy done err dropped errcode
  decide +kernel

theorem ctrlWord_toNat_lt (irqEn : Bool) : (ctrlWord irqEn).toNat < 2 := by
  cases irqEn <;> decide

/-- Bit i of RATIO_MAP stands for the ratio 2^i (R32). -/
theorem ratioMap_getLsbD (p : Instance) {i : Nat} (hi : i < 7) :
    (ratioMap p).getLsbD i = ratioSupported p (2 ^ i) := by
  simp only [ratioMap, BitVec.getLsbD_append]
  interval_cases i <;> simp

/-- NUM_LANES in bits 7:0 of PARAMS (R32). -/
theorem paramsWord_numLanes {p : Instance} (hp : p.legal) :
    ((paramsWord p).extractLsb' 0 8).toNat = p.numLanes := by
  obtain ⟨-, -, hmax, -⟩ := hp
  rw [paramsWord, BitVec.extractLsb'_append_eq_right, BitVec.toNat_ofNat]
  omega

/-- PARAMS bit by bit: NUM_LANES, eight zeros, RATIO_MAP (R32). -/
theorem paramsWord_getLsbD (p : Instance) (i : Nat) : (paramsWord p).getLsbD i =
    if i < 8 then (BitVec.ofNat 8 p.numLanes).getLsbD i
    else if i < 16 then false else (ratioMap p).getLsbD (i - 16) := by
  simp only [paramsWord, BitVec.getLsbD_append, BitVec.getLsbD_zero]
  split_ifs
  · rfl
  · rfl
  · omega
  · omega
  · rw [Nat.sub_sub]
  · rfl
  · exact (BitVec.getLsbD_of_ge _ _ (by omega)).symm

/-- Bits 15:8 and 31:23 of PARAMS are 0 (R32). -/
theorem paramsWord_reserved (p : Instance) :
    (paramsWord p).extractLsb' 8 8 = 0#8 ∧ (paramsWord p).extractLsb' 23 9 = 0#9 := by
  constructor
  · ext i hi
    rw [BitVec.getElem_extractLsb', paramsWord_getLsbD, if_neg (by omega), if_pos (by omega),
      BitVec.getElem_zero]
  · ext i hi
    rw [BitVec.getElem_extractLsb', paramsWord_getLsbD, if_neg (by omega), if_neg (by omega),
      BitVec.getElem_zero, BitVec.getLsbD_of_ge _ _ (by omega)]

/-- The fields of CONFIG as numbers (R27, R94 to R96). -/
theorem config_fields (v : Word) : (configRatio v).toNat = v.toNat % 128 ∧
    (configMix v).toNat = v.toNat / 256 % 4 ∧ (configWidth v).toNat = v.toNat / 4096 % 4 := by
  simp only [configRatio, configMix, configWidth, BitVec.extractLsb'_toNat, Nat.shiftRight_eq_div_pow,
    Nat.pow_zero, Nat.div_one, and_self]

/-- SUPPORTED_RATIOS, member by member (R8). -/
theorem ratioSupported_iff (p : Instance) (r : Nat) : ratioSupported p r = true ↔
    r = 8 ∨ r = 16 ∨ r = 32 ∨ r = 64 ∨ (r = 1 ∧ p.ratio1 = true) ∨ (r = 2 ∧ p.ratio2 = true) ∨
      (r = 4 ∧ p.ratio4 = true) := by
  simp only [ratioSupported, Bool.or_eq_true, Bool.and_eq_true, beq_iff_eq, or_assoc]

/-- Settles O48: the fields of the four registers one by one. -/
theorem statusCtrlAndParamsFields : Obligations.StatusCtrlAndParamsFields := by
  intro s hs st ct pa
  obtain ⟨hbusy, herr, hdropped, hcode, hlt⟩ := statusWord_fields (isBusy s) s.status
  obtain ⟨hlow, hhigh⟩ := paramsWord_reserved s.inst
  have hratio {i : Nat} (hi : i < 7) : pa.getLsbD (16 + i) = ratioSupported s.inst (2 ^ i) := by
    rw [← ratioMap_getLsbD s.inst hi]
    refine (paramsWord_getLsbD s.inst (16 + i)).trans ?_
    rw [if_neg (by omega), if_neg (by omega), Nat.add_sub_cancel_left]
  exact ⟨hbusy, statusWord_getLsbD_one _ _, herr, hdropped, hcode, hlt, ctrlWord_getLsbD_zero _,
    ctrlWord_toNat_lt _, paramsWord_numLanes hs, hlow, hhigh,
    fun i hi => hratio hi,
    ⟨rfl, config_fields s.config⟩, ratioSupported_iff s.inst⟩

/-- A register file with STATEk replaced (R34). -/
theorem hashGet_hashSet (h : HashState) (k k' : Fin 8) (v : Word) :
    hashGet (hashSet h k v) k' = if k' = k then v else hashGet h k' := by
  fin_cases k <;> fin_cases k' <;> rfl

/-- The lock is open while IDLE (R35). -/
theorem lockedStore_idle {s : State} (h : s.engine = .idle) (store : State → State) :
    lockedStore s store = store s := by
  simp only [lockedStore, h]

/-- Settles O51: the stores behind the open lock. -/
theorem writesWhileIdleAreStored : Obligations.WritesWhileIdleAreStored := by
  intro s v k hidle
  have hstore (store : State → State) : .next (lockedStore s store) = (.next (store s) : Result) :=
    congrArg _ (lockedStore_idle hidle store)
  refine ⟨hstore _, hstore _, hstore _, hstore _, hstore _, hashSet s.hash k v, hstore _, ?_,
    fun k' hk' => ?_⟩
  · rw [hashGet_hashSet, if_pos rfl]
  · rw [hashGet_hashSet, if_neg hk']

/-- A write to CMD at its address runs the command word (R20, R26). -/
theorem windowWrite_cmd {s : State} (hs : s.inst.legal) (w : Word) :
    windowWrite (regAddr s.inst .cmd) 4 w s = commandWrite w (s.setResponse .written) := by
  rw [regAddr, windowWrite_aligned hs (regOffset_lt _) (regOffset_aligned _), regAt_regOffset]
  rfl

/-- Settles O6: the host's turn takes the access, and the word decodes to the command. -/
theorem stepRunsTheDecodedCommand : Obligations.StepRunsTheDecodedCommand := by
  intro s w i rest turns hs hw hinputs
  have hturn {u : State} (hu : u.inst = s.inst) (hin : u.inputs = s.inputs) :
      hostTurn u = exec i ((u.setInputs rest).setResponse .written) := by
    have haddr : regAddr s.inst .cmd = regAddr (u.setInputs rest).inst .cmd := by
      rw [State.setInputs_inst, hu]
    have hlegal : (u.setInputs rest).inst.legal := hu ▸ hs
    simp only [hostTurn, hin, hinputs, hostAccess]
    rw [haddr, windowWrite_cmd hlegal, commandWrite_of_decode hw]
  refine ⟨fun hidle => ?_, fun hbusy hsched => ?_⟩
  · simp only [step, hidle]
    exact hturn rfl rfl
  · obtain ⟨c, j, he⟩ := exists_busy_of_ne_idle hbusy
    simp only [step, he, hsched]
    exact hturn rfl rfl

end Sys2Proof.Machine
end

section
/-! SUPPORT. Resets of a running command, the host's accesses to bus memory, and that no step stops but by the
host's doing (spec 70_reset_and_hazards.md R303 to R306). -/

namespace Sys2Proof.Machine

/-- No lane is active after a reset (R48). -/
theorem resetEngine_lanes (s : State) : ∀ l ∈ (resetEngine s).lanes, l.active = false := by
  obtain ⟨u, hu⟩ := resetEngine_eq_resetRegisters s
  rw [hu, resetRegisters_lanes]
  intro l hl
  rw [List.eq_of_mem_replicate hl]
  rfl

/-- The bus memory after a reset: the destination of a running command overwritten (R303). -/
theorem resetEngine_memory_idle {s : State} (h : s.engine = .idle) :
    (resetEngine s).memory = s.memory := by
  simp only [resetEngine, h, resetRegisters_memory]

theorem resetEngine_memory_busy {s : State} {c : Ctx} {j : Job} (h : s.engine = .busy c j) :
    (resetEngine s).memory = (scrambleDest c s).memory := by
  simp only [resetEngine, h, resetRegisters_memory]

@[simp] theorem resetEngine_inst (s : State) : (resetEngine s).inst = s.inst := by
  cases h : s.engine <;> simp only [resetEngine, h] <;> rfl

@[simp] theorem resetEngine_hash (s : State) : (resetEngine s).hash = iv := by
  obtain ⟨u, hu⟩ := resetEngine_eq_resetRegisters s
  rw [hu, resetRegisters_hash]

/-- Settles O55: the reset values, and the free bytes in a running command's destination. -/
theorem resetAbortsTheRunningCommand : Obligations.ResetAbortsTheRunningCommand := by
  intro s a hm
  refine ⟨resetEngine_engine s, by rw [resetEngine_status]; rfl, irq_resetEngine s, resetEngine_hash s,
    resetEngine_inst s, resetEngine_lanes s, fun hidle => by rw [resetEngine_memory_idle hidle],
    fun c job he => ?_⟩
  rw [resetEngine_memory_busy he]
  refine ⟨scrambleDest_outside c hm, fun ha => ?_⟩
  obtain ⟨hlo, hhi⟩ := (Span.has_iff _ _).1 ha
  simp only [destRange] at hlo hhi
  obtain ⟨j, rfl⟩ := Nat.exists_eq_add_of_le hlo
  rw [scrambleDest_inside c hm (by omega), Nat.add_sub_cancel_left]

/-- An access to plain memory reaches it (R60, R68). -/
theorem onBusMemory_plain {s : State} {r : Span} (h : plainMemory s r = true) (body : Result) :
    onBusMemory s r body = body := by
  simp only [plainMemory, Bool.and_eq_true, decide_eq_true_eq, Bool.not_eq_true'] at h
  obtain ⟨⟨htop, hwindow⟩, hdevice⟩ := h
  simp [onBusMemory, Nat.not_lt.2 htop, hwindow, hdevice]

/-- Settles O56: in plain memory only the running command's ranges are refused. -/
theorem hostWritesToBusyRangesAreRefused : Obligations.HostWritesToBusyRangesAreRefused := by
  intro s addr bytes hplain
  rw [memoryWrite, onBusMemory_plain hplain]
  split <;> rfl

/-- With no device on the bus every command answers a next state (R68). -/
theorem exec_answers {s : State} (hd : s.inst.devices = []) (i : Instr) : ∃ t, exec i s = .next t := by
  cases he : s.engine with
  | busy c j => exact ⟨_, exec_busy he i⟩
  | idle =>
    rcases exec_idle_cases he i with ⟨e, h⟩ | ⟨v, -, h⟩ | ⟨-, job, lanes, -, h⟩
    · exact ⟨_, h⟩
    · exact ⟨_, h⟩
    · rcases launch_cases (capture i s) job ((acceptCommand s).setLanes lanes) with
        ⟨hn, -⟩ | ⟨-, -, hl⟩ | ⟨-, -, hl⟩
      · have hnormal : rangesNormal s.inst (capture i s) = true := by rw [rangesNormal, hd]; rfl
        exact absurd (hnormal.symm.trans hn) (by decide)
      · exact ⟨_, h.trans hl⟩
      · exact ⟨_, h.trans hl⟩

theorem commandWrite_answers {s : State} (hd : s.inst.devices = []) (w : Word) :
    ∃ t, commandWrite w s = .next t := by
  cases hw : decode w with
  | ok i => exact commandWrite_of_decode hw s ▸ exec_answers hd i
  | error e =>
    cases he : s.engine with
    | idle => exact ⟨_, commandWrite_invalid hw he⟩
    | busy c j => exact ⟨_, commandWrite_busy he w⟩

theorem regWrite_answers {s : State} (hd : s.inst.devices = []) (r : Reg) (v : Word) :
    ∃ t, regWrite r v s = .next t := by
  cases r with
  | cmd => exact commandWrite_answers hd v
  | _ => exact ⟨_, rfl⟩

/-- An access the window accepts is at an offset of it, and aligned (R20, R21). -/
theorem windowAccepts_iff (p : Instance) (addr : Word) (size : Nat) :
    windowAccepts p addr size = true ↔
      ∃ off, windowOffset p addr = some off ∧ accessAccepted off size = true := by
  unfold windowAccepts
  cases windowOffset p addr <;> simp

/-- An admitted access answers a next state (R304). -/
theorem hostAccess_answers {s : State} {op : HostOp} (hd : s.inst.devices = [])
    (h : admitted s op = true) : ∃ t, hostAccess op s = .next t := by
  cases op with
  | wr addr size v =>
    obtain ⟨off, hoff, haccept⟩ := (windowAccepts_iff _ _ _).1 h
    simp only [hostAccess, windowWrite, hoff, haccept, if_true]
    exact regWrite_answers (s := s.setResponse .written) hd _ v
  | rd addr size =>
    obtain ⟨off, hoff, haccept⟩ := (windowAccepts_iff _ _ _).1 h
    simp only [hostAccess, windowRead, hoff, haccept, if_true]
    exact ⟨_, rfl⟩
  | memWrite addr bytes =>
    simp only [admitted, Bool.and_eq_true, Bool.not_eq_true'] at h
    obtain ⟨hplain, hmeets⟩ := h
    simp only [hostAccess, memoryWrite, onBusMemory_plain hplain, hmeets]
    exact ⟨_, rfl⟩
  | memRead addr n =>
    simp only [hostAccess, memoryRead, onBusMemory_plain (show plainMemory s _ = true from h)]
    exact ⟨_, rfl⟩
  | hardReset => exact ⟨_, rfl⟩

/-- Settles O58: the host's turn by its access; the engine's own steps always answer. -/
theorem admittedStepsNeverStop : Obligations.AdmittedStepsNeverStop := by
  intro s hd hin
  have hturn : ∀ sched, ∃ t, hostTurn (s.setSched sched) = .next t := by
    intro sched
    unfold hostTurn
    split
    case h_1 => exact ⟨_, rfl⟩
    case h_2 op rest hop =>
      exact hostAccess_answers (s := (s.setSched sched).setInputs rest) hd (hin op rest hop)
  unfold step
  split
  · exact hturn s.sched
  · split
    · exact ⟨_, rfl⟩
    · exact hturn _
    · exact ⟨_, rfl⟩

end Sys2Proof.Machine
end

section
/-! SUPPORT. The laws of the XOR-fold: linearity, and the collapse of messages with a period (spec 41_funnel.md
R169; 90_conflicts.md C1). -/

namespace Sys2Proof.Machine

/-- Byte strings of one length that agree byte by byte are equal. -/
theorem bytes_ext {x y : List Byte} (hlen : x.length = y.length)
    (h : ∀ i, i < x.length → x.getD i 0 = y.getD i 0) : x = y :=
  List.ext_getElem hlen fun i h1 h2 => by simpa [List.getD_eq_getElem?_getD, h1, h2] using h i h1

/-- Byte i of every group lies inside the message (R162). -/
theorem group_lt {r g i : Nat} (hg : g < r) (hi : i < 4096 / r) : g * (4096 / r) + i < 4096 := by
  have hfit : r * (4096 / r) ≤ 4096 := Nat.mul_div_le 4096 r
  have hnext := Nat.mul_le_mul_right (4096 / r) hg
  rw [Nat.succ_mul] at hnext
  omega

/-- XOR is linear over any list of terms. -/
theorem foldl_xor_xor {α : Type} (p q : α → Byte) (l : List α) (a b : Byte) :
    l.foldl (fun x g => x ^^^ (p g ^^^ q g)) (a ^^^ b) =
      l.foldl (fun x g => x ^^^ p g) a ^^^ l.foldl (fun x g => x ^^^ q g) b := by
  induction l generalizing a b with
  | nil => rfl
  | cons g l ih =>
    have hswap : a ^^^ b ^^^ (p g ^^^ q g) = (a ^^^ p g) ^^^ (b ^^^ q g) := by ac_rfl
    simp only [List.foldl_cons, hswap, ih]

/-- The fold is linear (R169). -/
theorem xorFold_xorBytes {m n : List Byte} (r : Nat) (hm : m.length = 4096) (hn : n.length = 4096) :
    xorFold (xorBytes m n) r = xorBytes (xorFold m r) (xorFold n r) := by
  have hmn : (xorBytes m n).length = 4096 := by rw [xorBytes_length, hm, hn, min_self]
  have hlm := xorFold_length m r hm
  have hln := xorFold_length n r hn
  refine bytes_ext (by rw [xorFold_length _ r hmn, xorBytes_length, hlm, hln, min_self]) fun i hi => ?_
  rw [xorFold_length _ r hmn] at hi
  rw [xorBytes_getD (by rwa [hlm]) (by rwa [hln]), xorFold_getD hmn hi, xorFold_getD hm hi,
    xorFold_getD hn hi, ← foldl_xor_xor, BitVec.xor_zero]
  refine List.foldl_ext _ _ _ fun b g hg => ?_
  have hin := group_lt (List.mem_range.1 hg) hi
  rw [xorBytes_getD (by rwa [hm]) (by rwa [hn])]

/-- A byte XORed in an even number of times vanishes. -/
theorem foldl_xor_even (c a : Byte) (k : Nat) :
    (List.range (k + k)).foldl (fun b _ => b ^^^ c) a = a := by
  induction k with
  | zero => rfl
  | succ k ih =>
    have hsucc : k + 1 + (k + 1) = k + k + 1 + 1 := by omega
    rw [hsucc, List.range_succ, List.range_succ]
    simp only [List.foldl_append, List.foldl_cons, List.foldl_nil, ih, BitVec.xor_assoc, BitVec.xor_self,
      BitVec.xor_zero]

/-- In a message of period `n` each byte is repeated in every later group (R169). -/
theorem getD_period {x : List Byte} {n i g : Nat}
    (hx : ∀ i, i + n < 4096 → x.getD (i + n) 0 = x.getD i 0) (hin : g * n + i < 4096) :
    x.getD (g * n + i) 0 = x.getD i 0 := by
  induction g with
  | zero => rw [Nat.zero_mul, Nat.zero_add]
  | succ g ih =>
    have hsucc : (g + 1) * n + i = g * n + i + n := by ring
    rw [hsucc] at hin ⊢
    rw [hx _ hin, ih (by omega)]

/-- An even number of equal groups folds to zero bytes (R169). -/
theorem xorFold_periodic {x : List Byte} {r : Nat} (hlen : x.length = 4096) (hr : r % 2 = 0)
    (hx : ∀ i, i + 4096 / r < 4096 → x.getD (i + 4096 / r) 0 = x.getD i 0) :
    xorFold x r = List.replicate (4096 / r) 0#8 := by
  refine bytes_ext (by rw [xorFold_length x r hlen, List.length_replicate]) fun i hi => ?_
  rw [xorFold_length x r hlen] at hi
  rw [xorFold_getD hlen hi, List.getD_replicate _ hi]
  obtain ⟨k, rfl⟩ : ∃ k, r = k + k := ⟨r / 2, by omega⟩
  refine (List.foldl_ext _ (fun b _ => b ^^^ x.getD i 0) _ fun b g hg => ?_).trans (foldl_xor_even _ _ k)
  rw [getD_period hx (group_lt (List.mem_range.1 hg) hi)]

/-- Byte b of sub-block q of the mixed message (R168). -/
theorem blockMix_getD (key : Vector Byte 16) {m : List Byte} {q b : Nat} (hm : m.length = 4096)
    (hq : q < 256) (hb : b < 16) : (blockMix key m).getD (q * 16 + b) 0 =
      (mixRound key ((m.drop (q * 16)).take 16)).getD b 0 := by
  obtain ⟨-, hblock⟩ := blockMixMixesEachSubBlock key m q hm hq
  rw [Nat.mul_comm] at hblock
  rw [← hblock, getD_group _ _ hb]

/-- Where whole sub-blocks repeat, so do the mixed ones (R168, R169). -/
theorem blockMix_periodic (key : Vector Byte 16) {m : List Byte} {n : Nat} (hm : m.length = 4096)
    (hn : n % 16 = 0) (hperiod : ∀ i, i + n < 4096 → m.getD (i + n) 0 = m.getD i 0) {i : Nat}
    (hi : i + n < 4096) : (blockMix key m).getD (i + n) 0 = (blockMix key m).getD i 0 := by
  have hhere : i = i / 16 * 16 + i % 16 := by omega
  have hthere : i + n = (i / 16 + n / 16) * 16 + i % 16 := by omega
  have hb : i % 16 < 16 := Nat.mod_lt i (by decide)
  have hlen {q : Nat} (hq : q < 256) : ((m.drop (q * 16)).take 16).length = 16 := by
    rw [List.length_take, List.length_drop, hm]
    omega
  have hsame : (m.drop ((i / 16 + n / 16) * 16)).take 16 = (m.drop (i / 16 * 16)).take 16 := by
    refine bytes_ext ((hlen (by omega)).trans (hlen (by omega)).symm) fun b hlt => ?_
    rw [hlen (by omega)] at hlt
    have hshift : (i / 16 + n / 16) * 16 + b = i / 16 * 16 + b + n := by omega
    rw [getD_group _ _ hlt, getD_group _ _ hlt, hshift, hperiod _ (by omega)]
  calc (blockMix key m).getD (i + n) 0
      = (blockMix key m).getD ((i / 16 + n / 16) * 16 + i % 16) 0 := by rw [← hthere]
    _ = (blockMix key m).getD (i / 16 * 16 + i % 16) 0 := by
        rw [blockMix_getD key hm (by omega) hb, blockMix_getD key hm (by omega) hb, hsame]
    _ = (blockMix key m).getD i 0 := by rw [← hhere]

/-- Settles O18: the fold is linear; under either strategy a periodic message folds an even number of
equal groups, the groups being whole sub-blocks. -/
theorem funnelIsLinearAndPeriodicInputsCollapse :
    Obligations.FunnelIsLinearAndPeriodicInputsCollapse := by
  intro p m r hm hr
  refine ⟨fun n hn => xorFold_xorBytes r hm hn, fun mix _ heven hperiod => ?_⟩
  have hblocks : 4096 / r % 16 = 0 := by
    have := groupLength_mod hr
    omega
  unfold funnel
  split
  · exact xorFold_periodic hm heven hperiod
  · exact xorFold_periodic (blockMix_length _ _) heven fun i hi =>
      blockMix_periodic p.mixKey hm hblocks hperiod hi

end Sys2Proof.Machine
end
